-- ==== Sys2Proof/Word.lean ====
section
/-! DEFINITION. The word types of the scan master: bytes on the transport, bit vectors of any length. -/

namespace Sys2Proof

/-- One byte: a sample on the RAW transport (R54, R81) or a byte of the host's command queue. -/
abbrev Byte := BitVec 8

/-- A BitVector of R12: a finite sequence of bits, index 0 first (and written leftmost). -/
abbrev Bits := List Bool

end Sys2Proof
end

