-- ==== Sys2Proof/Syntax.lean ====
section
/-! DEFINITION. The commands of the scan master: one constructor of `Instr` per row of spec/opcode_table.json,
and the kinds of operand they take (R109). -/

namespace Sys2Proof

/-- A receiver block, one of "the chip's two wrapper instances" (R17). -/
inductive Blk where
  | r0 | r1
deriving DecidableEq, Repr, Inhabited

/-- A selection: the register space an instruction opcode selects (R250). -/
inductive Sel where
  | configuration | coreInputs | readback
deriving DecidableEq, Repr, Inhabited

/-- The sixteen TAP states of R171 and the model value `Unknown` of R21. -/
inductive TapState where
  | testLogicReset | runTestIdle
  | selectDRScan | captureDR | shiftDR | exit1DR | pauseDR | exit2DR | updateDR
  | selectIRScan | captureIR | shiftIR | exit1IR | pauseIR | exit2IR | updateIR
  | unknown
deriving DecidableEq, Repr, Inhabited

/-- The field names of the three register images (R84 to R86). `guardHead`, `guardTail`, `reserved0` and
`reserved1` are names of results only (R127, R128). `other n` is the n-th name that no image has: an unknown
name (R122), or a name of the parameter `LANE_CTL_LAYOUT` (R10). -/
inductive FieldName where
  | coreWeHead | coreWe | tuningWe | debugWe | charWe | unshadowedWe | coreWeTail | tuningWeTail | debugWeTail
  | enpll | mpy | vrange | endivclk | lb | laneCtl | clkbyp | sleeppll | lock | bsinitclk
  | enbstx | enbsrx | enbspt | nearlock | unlock | cfgOvr
  | testfail | ecount | esword | es | phaseOffset | bitSelect | voltageOffset | voltageOffsetOverride
  | scanLen | scanRun | scanDone
  | guardHead | guardTail | reserved0 | reserved1
  | other (n : Nat)
deriving DecidableEq, Repr, Inhabited

/-- A key of a field map: `name`, or `name[i]` for a lane field (R109). -/
structure FieldKey where
  name : FieldName
  lane : Option Nat
deriving DecidableEq, Repr, Inhabited

/-- `fields` of R109: a finite map from field name to integer, as a list of pairs. -/
abbrev Fields := List (FieldKey × Int)

/-- The parameters of one sweep (R300) that a command carries. -/
structure SweepParams where
  bitNumber   : Nat
  pos         : Nat
  n           : Nat
  testPattern : Nat
  connection  : List Byte
deriving DecidableEq, Repr, Inhabited

/-- The lane block `ctdxu` of the format CFG (R84). -/
structure CfgLane where
  coreWe       : Bool
  tuningWe     : Bool
  debugWe      : Bool
  charWe       : Bool
  unshadowedWe : Bool
deriving DecidableEq, Repr, Inhabited

/-- The fields of a word of the format CFG (R84), each at its exact width. -/
structure CfgImage where
  coreWeHead   : Bool
  lane0        : CfgLane
  lane1        : CfgLane
  lane2        : CfgLane
  lane3        : CfgLane
  coreWeTail   : Bool
  tuningWeTail : Bool
  debugWeTail  : Bool
deriving DecidableEq, Repr, Inhabited

/-- The fields of a word of the format CORE (R85), each at its exact width. -/
structure CoreImage where
  enpll     : Bool
  mpy       : BitVec 8
  vrange    : Bool
  endivclk  : Bool
  lb        : BitVec 2
  laneCtl0  : BitVec 26
  laneCtl1  : BitVec 26
  laneCtl2  : BitVec 26
  laneCtl3  : BitVec 26
  clkbyp    : BitVec 2
  sleeppll  : Bool
  lock      : Bool
  bsinitclk : Bool
  enbstx    : Bool
  enbsrx    : Bool
  enbspt    : Bool
  nearlock  : Bool
  unlock    : Bool
  cfgOvr    : Bool
deriving DecidableEq, Repr, Inhabited

/-- One 48-bit lane block of the format CHAR (R86), each field at its exact width. -/
structure CharLane where
  testfail              : Bool
  ecount                : BitVec 12
  esword                : BitVec 8
  es                    : BitVec 4
  phaseOffset           : BitVec 7
  bitSelect             : BitVec 5
  voltageOffset         : BitVec 6
  voltageOffsetOverride : Bool
  scanLen               : BitVec 2
  scanRun               : Bool
  scanDone              : Bool
deriving DecidableEq, Repr, Inhabited

/-- The fields of a word of the format CHAR (R86). -/
structure CharImage where
  lane0 : CharLane
  lane1 : CharLane
  lane2 : CharLane
  lane3 : CharLane
deriving DecidableEq, Repr, Inhabited

/-- The 29 commands of R108 by name: what a TransportError records (R330), and what a command code stands for. -/
inductive Command where
  | encCfg | encCore | encChar | decCfg | decCore | decChar | toWire
  | padIr | padDr
  | tckCycle | tmsWalk | tapReset | goIdle | changeState | writeIr | writeDr | hwReset | openChannel | closeChannel
  | bbExpand | bbXfer | bbExtract
  | select | shift | transact
  | parseReply
  | configureBlock | sweepBlock | sweep
deriving DecidableEq, Repr, Inhabited

/-- The instructions: one constructor per row of spec/opcode_table.json, in the table's order. `pos` and `n` are
the chain position `(pos, N)`; `v` is in natural, `w` and `reply` in wire orientation (R109). -/
inductive Instr where
  | encCfg (fields : Fields)
  | encCore (fields : Fields)
  | encChar (fields : Fields)
  | decCfg (v : Bits)
  | decCore (v : Bits)
  | decChar (v : Bits)
  | toWire (v : Bits)
  | padIr (opcode : Bits) (pos : Nat) (n : Nat)
  | padDr (v : Bits) (blk : Blk) (pos : Nat) (n : Nat)
  | tckCycle (tms : Bool) (tdi : Bool)
  | tmsWalk (seq : Bits)
  | tapReset
  | goIdle
  | changeState (name : TapState)
  | writeIr (w : Bits)
  | writeDr (w : Bits)
  | hwReset (hw : Bool) (tapr : Bool)
  | openChannel (connection : List Byte)
  | closeChannel
  | bbExpand (cycles : List (Bool × Bool))
  | bbXfer (bytes : List Byte)
  | bbExtract (rd : List Byte) (first : Nat) (count : Nat)
  | select (blk : Blk) (sel : Sel) (pos : Nat) (n : Nat)
  | shift (blk : Blk) (v : Bits) (pos : Nat) (n : Nat)
  | transact (blk : Blk) (sel : Sel) (v : Bits) (pos : Nat) (n : Nat)
  | parseReply (reply : Bits) (blk : Blk) (pos : Nat) (n : Nat)
  | configureBlock (blk : Blk) (coreParams : Fields) (pos : Nat) (n : Nat)
  | sweepBlock (blk : Blk) (bitNumber : Nat) (pos : Nat) (n : Nat)
  | sweep (p : SweepParams)
  | sample (r : Bool) (m : Bool) (o : Bool) (i : Bool) (c : Bool)
  | irFrame (opcode : Bits) (pos : Nat) (n : Nat)
  | drFrame (v : Bits) (blk : Blk) (pos : Nat) (n : Nat)
  | cfgImage (image : CfgImage)
  | coreImage (image : CoreImage)
  | charImage (image : CharImage)
  | replyFormat (a : Bits)
  | bypassOpcode (pos : Nat) (n : Nat)
  | opcR0Configuration (pos : Nat) (n : Nat)
  | opcR0CoreInputs (pos : Nat) (n : Nat)
  | opcR0Readback (pos : Nat) (n : Nat)
  | opcR1Configuration (pos : Nat) (n : Nat)
  | opcR1CoreInputs (pos : Nat) (n : Nat)
  | opcR1Readback (pos : Nat) (n : Nat)
deriving DecidableEq, Repr, Inhabited

end Sys2Proof
end

