-- ==== Sys2Proof/Config.lean ====
section
/-! DEFINITION. What an implementation fixes: the parameters of R10, and the free answers of the transport
(R58, R59, R62, R64). The values are opaque: no proof can learn them. -/

namespace Sys2Proof

/-- The low-level realisation (R10, `backend`). -/
inductive Backend where
  | raw | engine
deriving DecidableEq, Repr, Inhabited

/-- One opcode table of R100: the numbers of a block's three opcodes, each written as `IRLEN` bits, most
significant bit first. -/
structure OpcodeTable where
  configuration : Nat
  coreInputs    : Nat
  readback      : Nat
deriving DecidableEq, Repr, Inhabited

/-- The four lane blocks of CoreControl as ready 26-bit numbers (R124, R305). -/
structure LaneNumbers where
  lane0 : BitVec 26
  lane1 : BitVec 26
  lane2 : BitVec 26
  lane3 : BitVec 26
deriving DecidableEq, Repr, Inhabited

/-- `TESTPATT_SET`, each member with what selects it in every lane, in the two forms of R305: the lane numbers that the
host passes ready, derived from the pattern; or the value of the test-pattern field, which has a name in
`LANE_CTL_LAYOUT`. A member is a number (log entry 19). -/
inductive TestPatterns where
  | ready (members : List (Nat × LaneNumbers))
  | byField (field : Nat) (members : List (Nat × Int))
deriving DecidableEq, Repr, Inhabited

/-- The numbers of the members of `TESTPATT_SET`. -/
def TestPatterns.numbers : TestPatterns → List Nat
  | .ready members => members.map Prod.fst
  | .byField _ members => members.map Prod.fst

/-- The implementation parameters of R10 that no command carries. An opcode is a number, so that as a BitVector it
has `IRLEN` bits by construction. `TRIM` is fixed (R10) and stands in Machine/Layout.lean; `pos`, `N`,
`bitNumber`, `testPattern` and `connection` are operands; `sink` is `State.sink`. -/
structure Params where
  backend          : Backend
  irLen            : Nat
  bypassOpcode     : Nat
  opcR0            : OpcodeTable
  opcR1            : OpcodeTable
  /-- `REPLY_DROP` (R10, R283): default 2 and 0; "a model may take it as an argument". -/
  replyDropR0      : Nat
  replyDropR1      : Nat
  pinTck           : Fin 8
  pinTdi           : Fin 8
  pinTdo           : Fin 8
  pinTms           : Fin 8
  pinRst           : Fin 8
  hasRst           : Bool
  rstInactive      : Bool
  rstPulseSamples  : Nat
  rxLag            : Nat
  /-- `LANE_CTL_LAYOUT`: the names `other n` and widths of the per-lane bits; empty where the lane blocks are
  passed as ready 26-bit numbers (R124, R305). -/
  laneLayout       : List (Nat × Nat)
  /-- `TESTPATT_SET` (R10), with what selects each member (R305). -/
  testPatterns     : TestPatterns
  /-- `CORE_PARAMS` (R300, R305), but for what the test pattern decides. -/
  coreParams       : Fields
  /-- `DIAG_TEMPLATE` (R300, R312). -/
  diagTemplate     : Fields
deriving DecidableEq, Repr, Inhabited

/-- The ranges R10 gives its parameters: `IRLEN >= 1`, distinct pins, `RST_PULSE_SAMPLES >= 1`, lane widths that
sum to 26, a `CORE_PARAMS` that gives `enpll` and `mpy` (R305). That the names of `LANE_CTL_LAYOUT`, the test patterns and
the keys of the two records are each distinct, and that a test-pattern field is one of the layout, the spec asks
nowhere: DESIGN CHOICE, unsafe for an implementation that breaks it (log entry 31). -/
def Params.wf (p : Params) : Bool :=
  decide (1 ≤ p.irLen)
  && decide [p.pinTck, p.pinTdi, p.pinTdo, p.pinTms, p.pinRst].Nodup
  && decide (1 ≤ p.rstPulseSamples)
  && (p.laneLayout.isEmpty
      || (decide ((p.laneLayout.map Prod.snd).sum = 26) && decide (p.laneLayout.map Prod.fst).Nodup))
  && decide p.testPatterns.numbers.Nodup
  && (match p.testPatterns with
      | .ready _ => true
      | .byField f _ => decide (f ∈ p.laneLayout.map Prod.fst))
  && decide (p.coreParams.map Prod.fst).Nodup
  && decide (p.diagTemplate.map Prod.fst).Nodup
  && decide (⟨.enpll, none⟩ ∈ p.coreParams.map Prod.fst)
  && decide (⟨.mpy, none⟩ ∈ p.coreParams.map Prod.fst)

/-- One set of legal parameters: the defaults of R10, and for its OPEN parameters the illustrative values that
95_test_vectors uses. It stands in for nothing but an illegal `Config.rawParams`; the tests use it too. -/
def Params.illustrative : Params where
  backend := .raw
  irLen := 4
  bypassOpcode := 0b1111
  opcR0 := ⟨0b0001, 0b0010, 0b0011⟩
  opcR1 := ⟨0b0101, 0b0110, 0b0111⟩
  replyDropR0 := 2
  replyDropR1 := 0
  pinTck := 0
  pinTdi := 1
  pinTdo := 2
  pinTms := 3
  pinRst := 4
  hasRst := true
  rstInactive := true
  rstPulseSamples := 2
  rxLag := 0
  laneLayout := []
  testPatterns := .ready [(0, ⟨0, 0, 0, 0⟩)]
  coreParams := [(⟨.enpll, none⟩, 1), (⟨.mpy, none⟩, 20)]
  diagTemplate := []

/-- A call of the external JTAG engine (R64). -/
inductive EngineCall where
  | configure (connection : List Byte)
  | reset (hw : Bool) (tapr : Bool)
  | writeInstructionRegister (bits : Bits)
  | writeDataRegister (bits : Bits)
  | changeState (name : TapState)
  | goIdle
  | resetTAP
  | close
deriving DecidableEq, Repr, Inhabited

/-- An entry of the history `tx` (R27): a byte written, or an engine call made. -/
inductive TxItem where
  | byte (b : Byte)
  | call (c : EngineCall)
deriving DecidableEq, Repr, Inhabited

/-- An entry of the history `rx` (R27): a byte, or a bit vector, that the transport returned. -/
inductive RxItem where
  | byte (b : Byte)
  | bits (v : Bits)
deriving DecidableEq, Repr, Inhabited

/-- The transport's answer to one `TxWrite` (R58). -/
inductive WriteAnswer where
  /-- `count` bytes were accepted. -/
  | accepted (count : Nat)
  /-- The transport reports a failure. -/
  | failed
  /-- The transport never answers (R385, 93 U21). -/
  | silent
deriving DecidableEq, Repr, Inhabited

/-- The transport's answer to one `RxRead` (R59). -/
inductive ReadAnswer where
  /-- These bytes were returned; they may be fewer than asked for. -/
  | returned (bytes : List Byte)
  | failed
  | silent
deriving DecidableEq, Repr, Inhabited

/-- The engine's answer to one call (R64). `bits` counts only for `writeDataRegister`, the one call that returns
a value. -/
inductive EngineAnswer where
  | done (bits : Bits)
  | failed
  | silent
deriving DecidableEq, Repr, Inhabited

/-- The parameters of this implementation: free (R10, "no rule may assume a value"). -/
opaque Config.rawParams : Params

/-- Free value: the transport's answer to the `asked`-th question, a write of `bytes` after the history `tx`. -/
opaque Config.writeAnswer (asked : Nat) (tx : List TxItem) (bytes : List Byte) : WriteAnswer

/-- Free value: the transport's answer to the `asked`-th question, a read of `count` bytes after the history `tx`
(R62: every bit of every reply is unconstrained). -/
opaque Config.readAnswer (asked : Nat) (tx : List TxItem) (count : Nat) : ReadAnswer

/-- Free value: the engine's answer to the `asked`-th question, the call `c` after the history `tx`. -/
opaque Config.engineAnswer (asked : Nat) (tx : List TxItem) (c : EngineCall) : EngineAnswer

/-- Free value: a lane's 26 bits where a field map gives them both ready and by the names of `LANE_CTL_LAYOUT`; R124
states no result for both (log entry 17). -/
opaque Config.laneGivenTwice (ready : BitVec 26) (named : BitVec 26) : BitVec 26

/-- Any legal set of parameters: `Config.rawParams` where it is legal. -/
def Config.params : Params :=
  if Config.rawParams.wf then Config.rawParams else Params.illustrative

end Sys2Proof
end

