-- ==== Sys2Proof/Machine/Layout.lean ====
section
/-! DEFINITION. Integers as bits (R14), the layouts of the three register images (R84 to R86), and how fields
enter and leave an image (R88, R121, R127). -/

namespace Sys2Proof.Machine

/-- `be_w(v)` of R14: the `w` bits of `v mod 2^w`, most significant bit first. -/
def be (w : Nat) (v : Int) : Bits :=
  (List.range w).map fun i => ((v % ((2 ^ w : Nat) : Int)).toNat).testBit (w - 1 - i)

/-- `ube(b)` of R14: the unsigned value of `b`, most significant bit first. -/
def ube (b : Bits) : Nat := b.foldl (fun acc x => 2 * acc + x.toNat) 0

/-- `ule(b)` of R14: the unsigned value of `b`, least significant bit first. -/
def ule (b : Bits) : Nat := ube b.reverse

/-- `slice(b, s, n)` of R12. -/
def slice (b : Bits) (s n : Nat) : Bits := (b.drop s).take n

/-- `droplast(b, n)` of R12. -/
def dropLast (b : Bits) (n : Nat) : Bits := b.take (b.length - n)

/-- `TRIM[blk]` of R10 and R156: the trailing natural-orientation bits a block omits from every data vector. -/
def trim : Blk → Nat
  | .r0 => 1
  | .r1 => 0

/-- `LEN[sel]` of R250. -/
def selLength : Sel → Nat
  | .configuration => 27
  | .coreInputs => 133
  | .readback => 195

/-- One run of bits of an image: `zero` is a guard or reserved run, always emitted as 0 and reported under a name
of its own by `DEC_*` (R101, R127); `field` holds a caller's value. -/
inductive Slot where
  | zero (key : FieldKey) (width : Nat)
  | field (key : FieldKey) (width : Nat)
deriving DecidableEq, Repr

def Slot.key : Slot → FieldKey
  | .zero k _ => k
  | .field k _ => k

def Slot.width : Slot → Nat
  | .zero _ w => w
  | .field _ w => w

/-- A slot for a global field (header or trailer). -/
def globalSlot (name : FieldName) (width : Nat) : Slot := .field ⟨name, none⟩ width

/-- A slot for a field of lane `i`. -/
def laneSlot (i : Nat) (name : FieldName) (width : Nat) : Slot := .field ⟨name, some i⟩ width

def guardHeadSlot : Slot := .zero ⟨.guardHead, none⟩ 2
def guardTailSlot : Slot := .zero ⟨.guardTail, none⟩ 1

def cfgLaneSlots (i : Nat) : List Slot :=
  [laneSlot i .coreWe 1, laneSlot i .tuningWe 1, laneSlot i .debugWe 1, laneSlot i .charWe 1,
   laneSlot i .unshadowedWe 1]

/-- The layout `CFG` of R84, natural orientation, 27 bits. -/
def cfgLayout : List Slot :=
  [guardHeadSlot, globalSlot .coreWeHead 1]
  ++ cfgLaneSlots 0 ++ cfgLaneSlots 1 ++ cfgLaneSlots 2 ++ cfgLaneSlots 3
  ++ [globalSlot .coreWeTail 1, globalSlot .tuningWeTail 1, globalSlot .debugWeTail 1, guardTailSlot]

/-- The layout `CORE` of R85, natural orientation, 133 bits. -/
def coreLayout : List Slot :=
  [guardHeadSlot, globalSlot .enpll 1, globalSlot .mpy 8, globalSlot .vrange 1, globalSlot .endivclk 1,
   globalSlot .lb 2]
  ++ [laneSlot 0 .laneCtl 26, laneSlot 1 .laneCtl 26, laneSlot 2 .laneCtl 26, laneSlot 3 .laneCtl 26]
  ++ [globalSlot .clkbyp 2, globalSlot .sleeppll 1, .zero ⟨.reserved0, none⟩ 1, globalSlot .lock 1,
      globalSlot .bsinitclk 1, globalSlot .enbstx 1, globalSlot .enbsrx 1, globalSlot .enbspt 1,
      .zero ⟨.reserved1, none⟩ 1, globalSlot .nearlock 1, globalSlot .unlock 1, globalSlot .cfgOvr 1,
      guardTailSlot]

def charLaneSlots (i : Nat) : List Slot :=
  [laneSlot i .testfail 1, laneSlot i .ecount 12, laneSlot i .esword 8, laneSlot i .es 4,
   laneSlot i .phaseOffset 7, laneSlot i .bitSelect 5, laneSlot i .voltageOffset 6,
   laneSlot i .voltageOffsetOverride 1, laneSlot i .scanLen 2, laneSlot i .scanRun 1, laneSlot i .scanDone 1]

/-- The layout `CHAR` of R86, natural orientation, 195 bits. -/
def charLayout : List Slot :=
  [guardHeadSlot] ++ charLaneSlots 0 ++ charLaneSlots 1 ++ charLaneSlots 2 ++ charLaneSlots 3 ++ [guardTailSlot]

/-- The keys a caller may name in an image (R122: guards and reserved bits cannot be named). -/
def fieldKeys (layout : List Slot) : List FieldKey :=
  layout.filterMap fun
    | .zero _ _ => none
    | .field k _ => some k

/-- The value given for a key, if any. -/
def fieldValue? (fs : Fields) (key : FieldKey) : Option Int :=
  (fs.find? fun kv => decide (kv.1 = key)).map Prod.snd

/-- `f(name)` of R123: the value given, or 0 (R122). -/
def fieldValue (fs : Fields) (key : FieldKey) : Int := (fieldValue? fs key).getD 0

/-- The bits of one slot (R88, R101, R121). -/
def Slot.bits (value : FieldKey → Int) : Slot → Bits
  | .zero _ w => List.replicate w false
  | .field k w => be w (value k)

/-- The image that holds `value k` in every field `k`: what every `ENC_*` makes (R88, R131). -/
def encodeLayout (value : FieldKey → Int) (layout : List Slot) : Bits :=
  layout.flatMap (Slot.bits value)

/-- The fields read from an image, in the layout's order, guards and reserved bits included: what every `DEC_*` reads (R127,
R131). -/
def decodeLayout : List Slot → Bits → Fields
  | [], _ => []
  | s :: rest, v => (s.key, (ube (v.take s.width) : Int)) :: decodeLayout rest (v.drop s.width)

/-- What `DEC_*` reads of a slot from the image that `ENC_*` made of `value` (R131): the field modulo 2 to its width, 0 for a
guard or a reserved run. -/
def readBack (value : FieldKey → Int) : Slot → FieldKey × Int
  | .zero k _ => (k, 0)
  | .field k w => (k, value k % ((2 ^ w : Nat) : Int))

/-! The words of the formats CFG, CORE and CHAR as typed field values. -/

def bitValue (b : Bool) : Int := (b.toNat : Int)

def wordValue {w : Nat} (x : BitVec w) : Int := (x.toNat : Int)

def cfgLaneFields (i : Nat) (l : CfgLane) : Fields :=
  [(⟨.coreWe, some i⟩, bitValue l.coreWe), (⟨.tuningWe, some i⟩, bitValue l.tuningWe),
   (⟨.debugWe, some i⟩, bitValue l.debugWe), (⟨.charWe, some i⟩, bitValue l.charWe),
   (⟨.unshadowedWe, some i⟩, bitValue l.unshadowedWe)]

/-- The field map of a word of CFG (R84). -/
def cfgImageFields (x : CfgImage) : Fields :=
  [(⟨.coreWeHead, none⟩, bitValue x.coreWeHead)]
  ++ cfgLaneFields 0 x.lane0 ++ cfgLaneFields 1 x.lane1 ++ cfgLaneFields 2 x.lane2 ++ cfgLaneFields 3 x.lane3
  ++ [(⟨.coreWeTail, none⟩, bitValue x.coreWeTail), (⟨.tuningWeTail, none⟩, bitValue x.tuningWeTail),
      (⟨.debugWeTail, none⟩, bitValue x.debugWeTail)]

/-- The field map of a word of CORE (R85). -/
def coreImageFields (x : CoreImage) : Fields :=
  [(⟨.enpll, none⟩, bitValue x.enpll), (⟨.mpy, none⟩, wordValue x.mpy), (⟨.vrange, none⟩, bitValue x.vrange),
   (⟨.endivclk, none⟩, bitValue x.endivclk), (⟨.lb, none⟩, wordValue x.lb),
   (⟨.laneCtl, some 0⟩, wordValue x.laneCtl0), (⟨.laneCtl, some 1⟩, wordValue x.laneCtl1),
   (⟨.laneCtl, some 2⟩, wordValue x.laneCtl2), (⟨.laneCtl, some 3⟩, wordValue x.laneCtl3),
   (⟨.clkbyp, none⟩, wordValue x.clkbyp), (⟨.sleeppll, none⟩, bitValue x.sleeppll),
   (⟨.lock, none⟩, bitValue x.lock), (⟨.bsinitclk, none⟩, bitValue x.bsinitclk),
   (⟨.enbstx, none⟩, bitValue x.enbstx), (⟨.enbsrx, none⟩, bitValue x.enbsrx),
   (⟨.enbspt, none⟩, bitValue x.enbspt), (⟨.nearlock, none⟩, bitValue x.nearlock),
   (⟨.unlock, none⟩, bitValue x.unlock), (⟨.cfgOvr, none⟩, bitValue x.cfgOvr)]

def charLaneFields (i : Nat) (l : CharLane) : Fields :=
  [(⟨.testfail, some i⟩, bitValue l.testfail), (⟨.ecount, some i⟩, wordValue l.ecount),
   (⟨.esword, some i⟩, wordValue l.esword), (⟨.es, some i⟩, wordValue l.es),
   (⟨.phaseOffset, some i⟩, wordValue l.phaseOffset), (⟨.bitSelect, some i⟩, wordValue l.bitSelect),
   (⟨.voltageOffset, some i⟩, wordValue l.voltageOffset),
   (⟨.voltageOffsetOverride, some i⟩, bitValue l.voltageOffsetOverride),
   (⟨.scanLen, some i⟩, wordValue l.scanLen), (⟨.scanRun, some i⟩, bitValue l.scanRun),
   (⟨.scanDone, some i⟩, bitValue l.scanDone)]

/-- The field map of a word of CHAR (R86). -/
def charImageFields (x : CharImage) : Fields :=
  charLaneFields 0 x.lane0 ++ charLaneFields 1 x.lane1 ++ charLaneFields 2 x.lane2 ++ charLaneFields 3 x.lane3

/-- The 27 bits of a word of CFG. -/
def cfgImageBits (x : CfgImage) : Bits := encodeLayout (fieldValue (cfgImageFields x)) cfgLayout

/-- The 133 bits of a word of CORE. -/
def coreImageBits (x : CoreImage) : Bits := encodeLayout (fieldValue (coreImageFields x)) coreLayout

/-- The 195 bits of a word of CHAR. -/
def charImageBits (x : CharImage) : Bits := encodeLayout (fieldValue (charImageFields x)) charLayout

/-- The one-bit field at natural index `i` of an image. -/
def bitAt (v : Bits) (i : Nat) : Bool := v.getD i false

/-- The `w`-bit field that starts at natural index `i` of an image. -/
def wordAt (v : Bits) (i w : Nat) : BitVec w := BitVec.ofNat w (ube (slice v i w))

def cfgLaneAt (v : Bits) (i : Nat) : CfgLane where
  coreWe := bitAt v (3 + 5 * i)
  tuningWe := bitAt v (4 + 5 * i)
  debugWe := bitAt v (5 + 5 * i)
  charWe := bitAt v (6 + 5 * i)
  unshadowedWe := bitAt v (7 + 5 * i)

/-- The fields of CFG read at the indices of R84. -/
def cfgImageOf (v : Bits) : CfgImage where
  coreWeHead := bitAt v 2
  lane0 := cfgLaneAt v 0
  lane1 := cfgLaneAt v 1
  lane2 := cfgLaneAt v 2
  lane3 := cfgLaneAt v 3
  coreWeTail := bitAt v 23
  tuningWeTail := bitAt v 24
  debugWeTail := bitAt v 25

/-- The fields of CORE read at the indices of R85. -/
def coreImageOf (v : Bits) : CoreImage where
  enpll := bitAt v 2
  mpy := wordAt v 3 8
  vrange := bitAt v 11
  endivclk := bitAt v 12
  lb := wordAt v 13 2
  laneCtl0 := wordAt v 15 26
  laneCtl1 := wordAt v 41 26
  laneCtl2 := wordAt v 67 26
  laneCtl3 := wordAt v 93 26
  clkbyp := wordAt v 119 2
  sleeppll := bitAt v 121
  lock := bitAt v 123
  bsinitclk := bitAt v 124
  enbstx := bitAt v 125
  enbsrx := bitAt v 126
  enbspt := bitAt v 127
  nearlock := bitAt v 129
  unlock := bitAt v 130
  cfgOvr := bitAt v 131

/-- The lane block of CHAR that starts at natural index `b = 2 + 48 i` (R86). -/
def charLaneAt (v : Bits) (b : Nat) : CharLane where
  testfail := bitAt v b
  ecount := wordAt v (b + 1) 12
  esword := wordAt v (b + 13) 8
  es := wordAt v (b + 21) 4
  phaseOffset := wordAt v (b + 25) 7
  bitSelect := wordAt v (b + 32) 5
  voltageOffset := wordAt v (b + 37) 6
  voltageOffsetOverride := bitAt v (b + 43)
  scanLen := wordAt v (b + 44) 2
  scanRun := bitAt v (b + 46)
  scanDone := bitAt v (b + 47)

/-- The fields of CHAR read at the indices of R86. -/
def charImageOf (v : Bits) : CharImage where
  lane0 := charLaneAt v 2
  lane1 := charLaneAt v 50
  lane2 := charLaneAt v 98
  lane3 := charLaneAt v 146

/-- The guard and reserved runs of an image are all zero (R101). -/
def zerosHold : List Slot → Bits → Bool
  | [], _ => true
  | .zero _ w :: rest, v => (v.take w).all (fun b => !b) && zerosHold rest (v.drop w)
  | .field _ w :: rest, v => zerosHold rest (v.drop w)

end Sys2Proof.Machine
end

