-- ==== Sys2Proof/WellFormed.lean ====
section
/-! DEFINITION. What the syntax cannot say about a command: a field map names each field once, and the name
given to CHANGE_STATE is one of the sixteen states. -/

namespace Sys2Proof

/-- A field map names no key twice: it is a finite map (R109). -/
def Fields.wf (fs : Fields) : Bool := decide (fs.map Prod.fst).Nodup

/-- `name` of CHANGE_STATE is one of the sixteen identifiers of R171 (R180); `Unknown` is none of them. -/
def TapState.named (t : TapState) : Bool := decide (t ≠ .unknown)

/-- The well-formed commands. Every other demand the spec makes of an operand (a position, a length, a known
field name) is checked by the command itself, which raises or refuses. -/
def Instr.wellFormed : Instr → Bool
  | .encCfg fs => Fields.wf fs
  | .encCore fs => Fields.wf fs
  | .encChar fs => Fields.wf fs
  | .decCfg _ => true
  | .decCore _ => true
  | .decChar _ => true
  | .toWire _ => true
  | .padIr _ _ _ => true
  | .padDr _ _ _ _ => true
  | .tckCycle _ _ => true
  | .tmsWalk _ => true
  | .tapReset => true
  | .goIdle => true
  | .changeState name => name.named
  | .writeIr _ => true
  | .writeDr _ => true
  | .hwReset _ _ => true
  | .openChannel _ => true
  | .closeChannel => true
  | .bbExpand _ => true
  | .bbXfer _ => true
  | .bbExtract _ _ _ => true
  | .select _ _ _ _ => true
  | .shift _ _ _ _ => true
  | .transact _ _ _ _ _ => true
  | .parseReply _ _ _ _ => true
  | .configureBlock _ fs _ _ => Fields.wf fs
  | .sweepBlock _ _ _ _ => true
  | .sweep _ => true
  | .sample _ _ _ _ _ => true
  | .irFrame _ _ _ => true
  | .drFrame _ _ _ _ => true
  | .cfgImage _ => true
  | .coreImage _ => true
  | .charImage _ => true
  | .replyFormat _ => true
  | .bypassOpcode _ _ => true
  | .opcR0Configuration _ _ => true
  | .opcR0CoreInputs _ _ => true
  | .opcR0Readback _ _ => true
  | .opcR1Configuration _ _ => true
  | .opcR1CoreInputs _ _ => true
  | .opcR1Readback _ _ => true

end Sys2Proof
end

