-- ==== Sys2Proof/Decode.lean ====
section
/-! DEFINITION. The host's command queue as bytes: how a queued command is read (`decode`) and written (`encode`).
The spec gives a command its 8-bit code (R108) and passes operands "as values, not packed into bits"; the byte form
of the operands, and the codes 0x80 to 0x97 of the rows that R108 does not number, are the model's own
(DESIGN CHOICE, log entry 1). -/

namespace Sys2Proof

/-- Why a queue of bytes is no command. -/
inductive DecodeError where
  /-- There is no byte to read. -/
  | empty
  /-- The first byte is no code of R108 and no code of this model. -/
  | unknownCode (code : Byte)
  /-- The queue ends inside an operand. -/
  | truncated
  /-- An operand byte stands for no value of the operand's kind. -/
  | badOperand (b : Byte)
  /-- A guard or reserved bit of a format word is 1 (R101). -/
  | nonzeroGuard
deriving DecidableEq, Repr, Inhabited

/-- A reader of one operand: the value and the bytes that follow it, or why there is none. -/
abbrev Parser (α : Type) := List Byte → Except DecodeError (α × List Byte)

/-- Read with `p`, then with what `f` says. -/
def andThen {α β : Type} (p : Parser α) (f : α → Parser β) : Parser β := fun bs =>
  match p bs with
  | .error e => .error e
  | .ok (a, rest) => f a rest

/-- Read nothing. -/
def parsed {α : Type} (a : α) : Parser α := fun bs => .ok (a, bs)

/-- Read with `p` and apply `f`. -/
def parseMap {α β : Type} (p : Parser α) (f : α → β) : Parser β := andThen p fun a => parsed (f a)

/-! ### Operand kinds -/

def getByte : Parser Byte
  | [] => .error .truncated
  | b :: rest => .ok (b, rest)

/-- A natural number, seven bits a byte, least significant first; the top bit says that another byte follows. -/
def getNat : Parser Nat
  | [] => .error .truncated
  | b :: rest =>
    if b.toNat < 128 then .ok (b.toNat, rest)
    else match getNat rest with
      | .error e => .error e
      | .ok (n, rest') => .ok (b.toNat - 128 + 128 * n, rest')

/-- The bytes of `n`; the first argument bounds how many more may follow. -/
def putNatUpTo : Nat → Nat → List Byte
  | 0, n => [BitVec.ofNat 8 (n % 128)]
  | fuel + 1, n =>
    if n < 128 then [BitVec.ofNat 8 n]
    else BitVec.ofNat 8 (128 + n % 128) :: putNatUpTo fuel (n / 128)

def putNat (n : Nat) : List Byte := putNatUpTo n n

def intOfNat (k : Nat) : Int := if k % 2 = 0 then ((k / 2 : Nat) : Int) else Int.negSucc (k / 2)

def natOfInt : Int → Nat
  | .ofNat n => 2 * n
  | .negSucc n => 2 * n + 1

def getInt : Parser Int := parseMap getNat intOfNat
def putInt (v : Int) : List Byte := putNat (natOfInt v)

def getBool : Parser Bool
  | [] => .error .truncated
  | b :: rest => if b = 0 then .ok (false, rest) else if b = 1 then .ok (true, rest) else .error (.badOperand b)

def putBool (b : Bool) : List Byte := [if b then 1 else 0]

/-- Exactly `k` values, one after another. -/
def getMany {α : Type} (p : Parser α) : Nat → Parser (List α)
  | 0 => parsed []
  | k + 1 => andThen p fun a => parseMap (getMany p k) fun as => a :: as

/-- A count, then that many values. -/
def getList {α : Type} (p : Parser α) : Parser (List α) := andThen getNat (getMany p)

def putList {α : Type} (put : α → List Byte) (xs : List α) : List Byte := putNat xs.length ++ xs.flatMap put

def getBits : Parser Bits := getList getBool
def putBits (v : Bits) : List Byte := putList putBool v

def getBytes : Parser (List Byte) := getList getByte
def putBytes (bs : List Byte) : List Byte := putList (fun b => [b]) bs

def getCycle : Parser (Bool × Bool) := andThen getBool fun tms => parseMap getBool fun tdi => (tms, tdi)
def putCycle (c : Bool × Bool) : List Byte := putBool c.1 ++ putBool c.2

def getBlk : Parser Blk
  | [] => .error .truncated
  | b :: rest => if b = 0 then .ok (.r0, rest) else if b = 1 then .ok (.r1, rest) else .error (.badOperand b)

def putBlk : Blk → List Byte
  | .r0 => [0]
  | .r1 => [1]

def getSel : Parser Sel
  | [] => .error .truncated
  | b :: rest =>
    if b = 0 then .ok (.configuration, rest)
    else if b = 1 then .ok (.coreInputs, rest)
    else if b = 2 then .ok (.readback, rest)
    else .error (.badOperand b)

def putSel : Sel → List Byte
  | .configuration => [0]
  | .coreInputs => [1]
  | .readback => [2]

/-- The sixteen state names in the order of R171. -/
def tapStateCode : TapState → Nat
  | .testLogicReset => 0
  | .runTestIdle => 1
  | .selectDRScan => 2
  | .captureDR => 3
  | .shiftDR => 4
  | .exit1DR => 5
  | .pauseDR => 6
  | .exit2DR => 7
  | .updateDR => 8
  | .selectIRScan => 9
  | .captureIR => 10
  | .shiftIR => 11
  | .exit1IR => 12
  | .pauseIR => 13
  | .exit2IR => 14
  | .updateIR => 15
  | .unknown => 16

def tapStateOfCode? : Nat → Option TapState
  | 0 => some .testLogicReset
  | 1 => some .runTestIdle
  | 2 => some .selectDRScan
  | 3 => some .captureDR
  | 4 => some .shiftDR
  | 5 => some .exit1DR
  | 6 => some .pauseDR
  | 7 => some .exit2DR
  | 8 => some .updateDR
  | 9 => some .selectIRScan
  | 10 => some .captureIR
  | 11 => some .shiftIR
  | 12 => some .exit1IR
  | 13 => some .pauseIR
  | 14 => some .exit2IR
  | 15 => some .updateIR
  | _ => none

def getTapState : Parser TapState
  | [] => .error .truncated
  | b :: rest =>
    match tapStateOfCode? b.toNat with
    | some t => .ok (t, rest)
    | none => .error (.badOperand b)

def putTapState (t : TapState) : List Byte := [BitVec.ofNat 8 (tapStateCode t)]

/-- The field names in the order of R84, R85 and R86, then the names no image has. -/
def fieldNameCode : FieldName → Nat
  | .coreWeHead => 0
  | .coreWe => 1
  | .tuningWe => 2
  | .debugWe => 3
  | .charWe => 4
  | .unshadowedWe => 5
  | .coreWeTail => 6
  | .tuningWeTail => 7
  | .debugWeTail => 8
  | .enpll => 9
  | .mpy => 10
  | .vrange => 11
  | .endivclk => 12
  | .lb => 13
  | .laneCtl => 14
  | .clkbyp => 15
  | .sleeppll => 16
  | .lock => 17
  | .bsinitclk => 18
  | .enbstx => 19
  | .enbsrx => 20
  | .enbspt => 21
  | .nearlock => 22
  | .unlock => 23
  | .cfgOvr => 24
  | .testfail => 25
  | .ecount => 26
  | .esword => 27
  | .es => 28
  | .phaseOffset => 29
  | .bitSelect => 30
  | .voltageOffset => 31
  | .voltageOffsetOverride => 32
  | .scanLen => 33
  | .scanRun => 34
  | .scanDone => 35
  | .guardHead => 36
  | .guardTail => 37
  | .reserved0 => 38
  | .reserved1 => 39
  | .other n => 40 + n

def fieldNameOfCode : Nat → FieldName
  | 0 => .coreWeHead
  | 1 => .coreWe
  | 2 => .tuningWe
  | 3 => .debugWe
  | 4 => .charWe
  | 5 => .unshadowedWe
  | 6 => .coreWeTail
  | 7 => .tuningWeTail
  | 8 => .debugWeTail
  | 9 => .enpll
  | 10 => .mpy
  | 11 => .vrange
  | 12 => .endivclk
  | 13 => .lb
  | 14 => .laneCtl
  | 15 => .clkbyp
  | 16 => .sleeppll
  | 17 => .lock
  | 18 => .bsinitclk
  | 19 => .enbstx
  | 20 => .enbsrx
  | 21 => .enbspt
  | 22 => .nearlock
  | 23 => .unlock
  | 24 => .cfgOvr
  | 25 => .testfail
  | 26 => .ecount
  | 27 => .esword
  | 28 => .es
  | 29 => .phaseOffset
  | 30 => .bitSelect
  | 31 => .voltageOffset
  | 32 => .voltageOffsetOverride
  | 33 => .scanLen
  | 34 => .scanRun
  | 35 => .scanDone
  | 36 => .guardHead
  | 37 => .guardTail
  | 38 => .reserved0
  | 39 => .reserved1
  | n => .other (n - 40)

def getLane : Parser (Option Nat) := parseMap getNat fun k => if k = 0 then none else some (k - 1)

def putLane : Option Nat → List Byte
  | none => putNat 0
  | some i => putNat (i + 1)

def getFieldEntry : Parser (FieldKey × Int) :=
  andThen getNat fun name => andThen getLane fun lane =>
  parseMap getInt fun v => (⟨fieldNameOfCode name, lane⟩, v)

def putFieldEntry (kv : FieldKey × Int) : List Byte :=
  putNat (fieldNameCode kv.1.name) ++ putLane kv.1.lane ++ putInt kv.2

def getFields : Parser Fields := getList getFieldEntry
def putFields (fs : Fields) : List Byte := putList putFieldEntry fs

def getSweepParams : Parser SweepParams :=
  andThen getNat fun bitNumber => andThen getNat fun pos => andThen getNat fun n =>
  andThen getNat fun testPattern => parseMap getBytes fun connection =>
    { bitNumber := bitNumber, pos := pos, n := n, testPattern := testPattern, connection := connection }

def putSweepParams (p : SweepParams) : List Byte :=
  putNat p.bitNumber ++ putNat p.pos ++ putNat p.n ++ putNat p.testPattern ++ putBytes p.connection

/-- The line levels of a SAMPLE byte at the places the table's pattern `000rmoic` gives them (R81). -/
def sampleOfByte (b : Byte) : Instr :=
  .sample (b.getLsbD 4) (b.getLsbD 3) (b.getLsbD 2) (b.getLsbD 1) (b.getLsbD 0)

/-- The byte `000rmoic` (R81). -/
def sampleToByte (r m o i c : Bool) : Byte :=
  BitVec.ofNat 8 (16 * r.toNat + 8 * m.toNat + 4 * o.toNat + 2 * i.toNat + c.toNat)

def getSample : Parser Instr
  | [] => .error .truncated
  | b :: rest => if b.toNat < 32 then .ok (sampleOfByte b, rest) else .error (.badOperand b)

/-- The bits of a format word in natural order, index 0 first; guards and reserved bits must be 0. -/
def getImage (layout : List Machine.Slot) (length : Nat) : Parser Bits :=
  andThen (getMany getBool length) fun v bs =>
    if Machine.zerosHold layout v then .ok (v, bs) else .error .nonzeroGuard

/-! ### Commands -/

/-- The 8-bit command codes of R108. -/
def Command.code : Command → Byte
  | .encCfg => 0x10
  | .encCore => 0x11
  | .encChar => 0x12
  | .decCfg => 0x14
  | .decCore => 0x15
  | .decChar => 0x16
  | .toWire => 0x18
  | .padIr => 0x20
  | .padDr => 0x21
  | .tckCycle => 0x30
  | .tmsWalk => 0x31
  | .tapReset => 0x32
  | .goIdle => 0x33
  | .changeState => 0x34
  | .writeIr => 0x35
  | .writeDr => 0x36
  | .hwReset => 0x37
  | .openChannel => 0x38
  | .closeChannel => 0x39
  | .bbExpand => 0x40
  | .bbXfer => 0x41
  | .bbExtract => 0x42
  | .select => 0x50
  | .shift => 0x51
  | .transact => 0x52
  | .parseReply => 0x60
  | .configureBlock => 0x70
  | .sweepBlock => 0x71
  | .sweep => 0x72

/-- Read the operands that follow a code. A byte below 0x20 that is no code of R108 is a bare SAMPLE byte of the
table's pattern `000rmoic` (log entry 27). -/
def decodeOperands (code : Byte) : Parser Instr :=
  match code.toNat with
  | 0x10 => parseMap getFields fun fields => .encCfg fields
  | 0x11 => parseMap getFields fun fields => .encCore fields
  | 0x12 => parseMap getFields fun fields => .encChar fields
  | 0x14 => parseMap getBits fun v => .decCfg v
  | 0x15 => parseMap getBits fun v => .decCore v
  | 0x16 => parseMap getBits fun v => .decChar v
  | 0x18 => parseMap getBits fun v => .toWire v
  | 0x20 => andThen getBits fun opcode => andThen getNat fun pos => parseMap getNat fun n => .padIr opcode pos n
  | 0x21 =>
    andThen getBits fun v => andThen getBlk fun blk => andThen getNat fun pos => parseMap getNat fun n =>
    .padDr v blk pos n
  | 0x30 => andThen getBool fun tms => parseMap getBool fun tdi => .tckCycle tms tdi
  | 0x31 => parseMap getBits fun seq => .tmsWalk seq
  | 0x32 => parsed .tapReset
  | 0x33 => parsed .goIdle
  | 0x34 => parseMap getTapState fun name => .changeState name
  | 0x35 => parseMap getBits fun w => .writeIr w
  | 0x36 => parseMap getBits fun w => .writeDr w
  | 0x37 => andThen getBool fun hw => parseMap getBool fun tapr => .hwReset hw tapr
  | 0x38 => parseMap getBytes fun connection => .openChannel connection
  | 0x39 => parsed .closeChannel
  | 0x40 => parseMap (getList getCycle) fun cycles => .bbExpand cycles
  | 0x41 => parseMap getBytes fun bytes => .bbXfer bytes
  | 0x42 =>
    andThen getBytes fun rd => andThen getNat fun first => parseMap getNat fun count =>
    .bbExtract rd first count
  | 0x50 =>
    andThen getBlk fun blk => andThen getSel fun sel => andThen getNat fun pos => parseMap getNat fun n =>
    .select blk sel pos n
  | 0x51 =>
    andThen getBlk fun blk => andThen getBits fun v => andThen getNat fun pos => parseMap getNat fun n =>
    .shift blk v pos n
  | 0x52 =>
    andThen getBlk fun blk => andThen getSel fun sel => andThen getBits fun v => andThen getNat fun pos =>
    parseMap getNat fun n => .transact blk sel v pos n
  | 0x60 =>
    andThen getBits fun reply => andThen getBlk fun blk => andThen getNat fun pos =>
    parseMap getNat fun n => .parseReply reply blk pos n
  | 0x70 =>
    andThen getBlk fun blk => andThen getFields fun coreParams => andThen getNat fun pos =>
    parseMap getNat fun n => .configureBlock blk coreParams pos n
  | 0x71 =>
    andThen getBlk fun blk => andThen getNat fun bitNumber => andThen getNat fun pos =>
    parseMap getNat fun n => .sweepBlock blk bitNumber pos n
  | 0x72 => parseMap getSweepParams fun p => .sweep p
  | 0x80 => getSample
  | 0x81 =>
    andThen getBits fun opcode => andThen getNat fun pos => parseMap getNat fun n => .irFrame opcode pos n
  | 0x82 =>
    andThen getBits fun v => andThen getBlk fun blk => andThen getNat fun pos => parseMap getNat fun n =>
    .drFrame v blk pos n
  | 0x83 => parseMap (getImage Machine.cfgLayout 27) fun v => .cfgImage (Machine.cfgImageOf v)
  | 0x84 => parseMap (getImage Machine.coreLayout 133) fun v => .coreImage (Machine.coreImageOf v)
  | 0x85 => parseMap (getImage Machine.charLayout 195) fun v => .charImage (Machine.charImageOf v)
  | 0x86 => parseMap getBits fun a => .replyFormat a
  | 0x90 => andThen getNat fun pos => parseMap getNat fun n => .bypassOpcode pos n
  | 0x91 => andThen getNat fun pos => parseMap getNat fun n => .opcR0Configuration pos n
  | 0x92 => andThen getNat fun pos => parseMap getNat fun n => .opcR0CoreInputs pos n
  | 0x93 => andThen getNat fun pos => parseMap getNat fun n => .opcR0Readback pos n
  | 0x95 => andThen getNat fun pos => parseMap getNat fun n => .opcR1Configuration pos n
  | 0x96 => andThen getNat fun pos => parseMap getNat fun n => .opcR1CoreInputs pos n
  | 0x97 => andThen getNat fun pos => parseMap getNat fun n => .opcR1Readback pos n
  | c => if c < 32 then parsed (sampleOfByte code) else fun _ => .error (.unknownCode code)

/-- Read one command from the front of the queue: the command and what is left. Total on any bytes. -/
def decode : Parser Instr
  | [] => .error .empty
  | code :: rest => decodeOperands code rest

/-- The bytes of a command: its code, then its operands in the order of R108. -/
def encode : Instr → List Byte
  | .encCfg fields => [0x10] ++ putFields fields
  | .encCore fields => [0x11] ++ putFields fields
  | .encChar fields => [0x12] ++ putFields fields
  | .decCfg v => [0x14] ++ putBits v
  | .decCore v => [0x15] ++ putBits v
  | .decChar v => [0x16] ++ putBits v
  | .toWire v => [0x18] ++ putBits v
  | .padIr opcode pos n => [0x20] ++ putBits opcode ++ putNat pos ++ putNat n
  | .padDr v blk pos n => [0x21] ++ putBits v ++ putBlk blk ++ putNat pos ++ putNat n
  | .tckCycle tms tdi => [0x30] ++ putBool tms ++ putBool tdi
  | .tmsWalk seq => [0x31] ++ putBits seq
  | .tapReset => [0x32]
  | .goIdle => [0x33]
  | .changeState name => [0x34] ++ putTapState name
  | .writeIr w => [0x35] ++ putBits w
  | .writeDr w => [0x36] ++ putBits w
  | .hwReset hw tapr => [0x37] ++ putBool hw ++ putBool tapr
  | .openChannel connection => [0x38] ++ putBytes connection
  | .closeChannel => [0x39]
  | .bbExpand cycles => [0x40] ++ putList putCycle cycles
  | .bbXfer bytes => [0x41] ++ putBytes bytes
  | .bbExtract rd first count => [0x42] ++ putBytes rd ++ putNat first ++ putNat count
  | .select blk sel pos n => [0x50] ++ putBlk blk ++ putSel sel ++ putNat pos ++ putNat n
  | .shift blk v pos n => [0x51] ++ putBlk blk ++ putBits v ++ putNat pos ++ putNat n
  | .transact blk sel v pos n => [0x52] ++ putBlk blk ++ putSel sel ++ putBits v ++ putNat pos ++ putNat n
  | .parseReply reply blk pos n => [0x60] ++ putBits reply ++ putBlk blk ++ putNat pos ++ putNat n
  | .configureBlock blk coreParams pos n =>
    [0x70] ++ putBlk blk ++ putFields coreParams ++ putNat pos ++ putNat n
  | .sweepBlock blk bitNumber pos n => [0x71] ++ putBlk blk ++ putNat bitNumber ++ putNat pos ++ putNat n
  | .sweep p => [0x72] ++ putSweepParams p
  | .sample r m o i c => [0x80, sampleToByte r m o i c]
  | .irFrame opcode pos n => [0x81] ++ putBits opcode ++ putNat pos ++ putNat n
  | .drFrame v blk pos n => [0x82] ++ putBits v ++ putBlk blk ++ putNat pos ++ putNat n
  | .cfgImage image => 0x83 :: (Machine.cfgImageBits image).flatMap putBool
  | .coreImage image => 0x84 :: (Machine.coreImageBits image).flatMap putBool
  | .charImage image => 0x85 :: (Machine.charImageBits image).flatMap putBool
  | .replyFormat a => [0x86] ++ putBits a
  | .bypassOpcode pos n => [0x90] ++ putNat pos ++ putNat n
  | .opcR0Configuration pos n => [0x91] ++ putNat pos ++ putNat n
  | .opcR0CoreInputs pos n => [0x92] ++ putNat pos ++ putNat n
  | .opcR0Readback pos n => [0x93] ++ putNat pos ++ putNat n
  | .opcR1Configuration pos n => [0x95] ++ putNat pos ++ putNat n
  | .opcR1CoreInputs pos n => [0x96] ++ putNat pos ++ putNat n
  | .opcR1Readback pos n => [0x97] ++ putNat pos ++ putNat n

/-! ### The host's table words -/

/-- The bytes of a table word of `nbits` bits, the first byte from the least significant bits, with the operand
bytes that follow all zero: more than the zero operands of any row that the table gives bits. -/
def tableBytes (nbits w : Nat) : List Byte :=
  ((List.range ((nbits + 7) / 8)).map fun k => BitVec.ofNat 8 (w >>> (8 * k))) ++ List.replicate 16 0

/-- The instruction the decoder reads from a table word. -/
def decodeTableWord (nbits w : Nat) : Option Instr :=
  match decode (tableBytes nbits w) with
  | .ok (i, _) => some i
  | .error _ => none

/-- The bytes of exactly the one command that `tableBytes` begins with; all of them where it begins with none. -/
def tableCommand (nbits w : Nat) : List Byte :=
  match decode (tableBytes nbits w) with
  | .ok (_, rest) => (tableBytes nbits w).take ((tableBytes nbits w).length - rest.length)
  | .error _ => tableBytes nbits w

end Sys2Proof
end

