-- ==== Sys2Proof/Machine/State.lean ====
section
/-! DEFINITION. The state of the scan master: the seven elements of R20, and beside them the model's own fields for
the host's side (queue, result, sink), the transport's coming answers and the parameters. Plain data. -/

namespace Sys2Proof.Machine

/-- The states of the transaction sequencer (R22, R255). -/
inductive Phase where
  | idle | selectInstruction | shiftData | resetTAP | selectData
deriving DecidableEq, Repr, Inhabited

/-- The levels last driven on the four output lines (R23). -/
structure Lines where
  tck : Bool
  tms : Bool
  tdi : Bool
  rst : Bool
deriving DecidableEq, Repr, Inhabited

/-- The transport resource (R25). -/
inductive Channel where
  | closed | opened
deriving DecidableEq, Repr, Inhabited

/-- What a ConfigurationError records (R330): the chain position, or the test pattern. -/
inductive ConfigCause where
  | position (pos : Nat) (n : Nat)
  | pattern (testPattern : Nat)
deriving DecidableEq, Repr, Inhabited

/-- The error latch with the value recorded (R24, R330, R340). -/
inductive Err where
  | none
  | configurationError (cause : ConfigCause)
  /-- The command, the count asked and the count got; a count is `none` where the failing call has none. -/
  | transportError (command : Command) (asked : Option Nat) (got : Option Nat)
  /-- The length got and the length needed. -/
  | protocolViolation (got : Nat) (needed : Nat)
deriving DecidableEq, Repr, Inhabited

/-- A sample of the sweep (R313, R315). -/
structure SweepSample where
  lane      : Nat
  bitSelect : Nat
  voltage   : Int
  phase     : Int
  counter   : Nat
deriving DecidableEq, Repr, Inhabited

/-- What a command returns to the host (R108, column "result"). -/
inductive Result where
  | none
  | bit (b : Bool)
  | bits (v : Bits)
  | bytes (bs : List Byte)
  | fields (fs : Fields)
  | counters (c0 c1 c2 c3 : Nat)
  | samples (ss : List SweepSample)
deriving DecidableEq, Repr, Inhabited

/-- The transport's coming answers: a list for each kind of question, taken from the front; where a list is
empty the answer is the free value of Config that `asked` selects (R62; log entry 7). -/
structure Env where
  writes : List WriteAnswer
  reads  : List ReadAnswer
  engine : List EngineAnswer
  asked  : Nat
deriving DecidableEq, Repr, Inhabited

/-- Why the machine stops with a fault. -/
inductive Fault where
  /-- The transport never answers, and there is no timeout: the command never completes (R385, 93 U21 "stuck").
  Raised by every command that waits for the transport. Safe: the model stops where the hardware waits for ever. -/
  | transportSilent
deriving DecidableEq, Repr, Inhabited

/-- Why a command is refused: `refuse(reason)` of R343, the spec's own "no next state at all". Every one but the
first and the last two is a refusal the spec writes; refusing is safe, since no claim can be drawn from it. -/
inductive Refusal where
  /-- An instruction without a meaning. Raised by no arm of this model. Safe. -/
  | notModelled (mnemonic : String)
  /-- A command of files 42 to 44 while `chan = Closed` (R189, R343). Safe. -/
  | channelClosed
  /-- A command that can change state or raise while `err ≠ None` (R342). Safe. -/
  | errorLatched
  /-- `OPEN` while the channel is open (R188). Safe. -/
  | channelAlreadyOpen
  /-- A field name the image does not have (R122). Safe. -/
  | unknownField
  /-- `DEC_*` of a vector of another length (R127). Safe. -/
  | wrongLength
  /-- An opcode that is not `IRLEN` bits wide (R153). Safe. -/
  | wrongOpcodeWidth
  /-- `PAD_DR` of a vector not longer than `TRIM[blk]` (R157). Safe. -/
  | vectorTooShort
  /-- `GO_IDLE` or `CHANGE_STATE` while the TAP state is not known (R179, R180). Safe. -/
  | tapUnknown
  /-- A register write that does not start in Run-Test/Idle (R187). Safe. -/
  | notInIdle
  /-- A register write of no bits (R190). Safe. -/
  | emptyShift
  /-- A cycle-level command on the ENGINE backend (R343, 93 U13). Safe. -/
  | engineHasNoCycles
  /-- `HW_RESET` of a reset line that does not exist (R186). Safe. -/
  | noResetLine
  /-- `SHIFT` with nothing selected (R254). Safe. -/
  | nothingSelected
  /-- `SHIFT` for a block that is not the selected one (R254). Safe. -/
  | blockMismatch
  /-- `SHIFT` of a vector that is not the selected register's length (R253). Safe. -/
  | vectorMismatch
  /-- `TRANSACT` while a transaction is in progress (R256). Safe. -/
  | transactionInProgress
  /-- `BB_EXPAND` of no cycles (R225). Safe. -/
  | emptyCycleList
  /-- `BB_XFER` of no bytes: its operand is a non-empty list (R230). Safe. -/
  | emptyTransfer
  /-- `BB_EXTRACT` of an index outside the frame (R232). Safe. -/
  | indexOutsideFrame
  /-- The row `REPLY` for a word shorter than the format's 158 bits (R87, D24; log entry 22). Safe. -/
  | replyTooShort
  /-- The bytes at the front of the queue are no command (log entry 23). Raised by `step`. Safe. -/
  | undecodable (why : DecodeError)
  /-- The command read is not well formed (log entry 23). Raised by `step`. Safe. -/
  | illFormed
deriving DecidableEq, Repr, Inhabited

end Sys2Proof.Machine

namespace Sys2Proof.Machine

/-- The state. `tap` to `rx` are the spec's seven elements (R21 to R27); `result`, `sink`, `inbox`, `env` and
`params` are the model's own (log entries 1, 5, 6, 7). -/
structure State where
  tap    : TapState
  phase  : Phase
  lines  : Lines
  err    : Err
  chan   : Channel
  curSel : Option (Blk × Sel)
  tx     : List TxItem
  rx     : List RxItem
  result : Result
  sink   : List SweepSample
  inbox  : List Byte
  env    : Env
  params : Params
deriving DecidableEq, Repr, Inhabited

/-- The reset state of R45 and R360 for a given set of parameters. -/
def State.resetWith (p : Params) : State where
  tap := .unknown
  phase := .idle
  lines := { tck := false, tms := false, tdi := false, rst := p.rstInactive }
  err := .none
  chan := .closed
  curSel := none
  tx := []
  rx := []
  result := .none
  sink := []
  inbox := []
  env := { writes := [], reads := [], engine := [], asked := 0 }
  params := p

/-- The machine right after reset (R45, R360), with this implementation's parameters. -/
def State.reset : State := State.resetWith Config.params

end Sys2Proof.Machine
end

