-- ==== Sys2Proof/Machine/Flags.lean ====
section
/-! DEFINITION. The only status a command leaves behind, the error latch (R24, R31), and what it and the channel
allow (R342, R343). There are no condition codes. -/

namespace Sys2Proof.Machine

/-- The code of the error latch (R330). -/
def Err.code : Err → Nat
  | .none => 0
  | .configurationError _ => 1
  | .transportError _ _ _ => 2
  | .protocolViolation _ _ => 3

/-- Why a command that can change state or raise is not accepted, if it is not (R342). -/
def State.latched (s : State) : Option Refusal :=
  if s.err = .none then none else some .errorLatched

/-- Why a command of files 42 to 44 is not accepted, if it is not: "require chan = Open and err = None" (R174,
R189, R343). -/
def State.notLive (s : State) : Option Refusal :=
  if s.err = .none then (if s.chan = .opened then none else some .channelClosed) else some .errorLatched

end Sys2Proof.Machine
end

