-- ==== Sys2Proof/Machine/TapTable.lean ====
section
/-! DEFINITION. The TAP's transition table (R172) and the table of shortest TMS sequences (R180). -/

namespace Sys2Proof.Machine

/-- `next(s, tms)` of R172: the state after one rising edge of TCK. -/
def tapNext : TapState → Bool → TapState
  | .testLogicReset, false => .runTestIdle
  | .testLogicReset, true => .testLogicReset
  | .runTestIdle, false => .runTestIdle
  | .runTestIdle, true => .selectDRScan
  | .selectDRScan, false => .captureDR
  | .selectDRScan, true => .selectIRScan
  | .captureDR, false => .shiftDR
  | .captureDR, true => .exit1DR
  | .shiftDR, false => .shiftDR
  | .shiftDR, true => .exit1DR
  | .exit1DR, false => .pauseDR
  | .exit1DR, true => .updateDR
  | .pauseDR, false => .pauseDR
  | .pauseDR, true => .exit2DR
  | .exit2DR, false => .shiftDR
  | .exit2DR, true => .updateDR
  | .updateDR, false => .runTestIdle
  | .updateDR, true => .selectDRScan
  | .selectIRScan, false => .captureIR
  | .selectIRScan, true => .testLogicReset
  | .captureIR, false => .shiftIR
  | .captureIR, true => .exit1IR
  | .shiftIR, false => .shiftIR
  | .shiftIR, true => .exit1IR
  | .exit1IR, false => .pauseIR
  | .exit1IR, true => .updateIR
  | .pauseIR, false => .pauseIR
  | .pauseIR, true => .exit2IR
  | .exit2IR, false => .shiftIR
  | .exit2IR, true => .updateIR
  | .updateIR, false => .runTestIdle
  | .updateIR, true => .selectDRScan
  | .unknown, false => .unknown
  | .unknown, true => .unknown

/-- The state after a walk. -/
def tapWalk (s : TapState) (seq : Bits) : TapState := seq.foldl tapNext s

/-- The columns of the table of R180, in its order. -/
def pathColumn : TapState → Nat
  | .testLogicReset => 0
  | .runTestIdle => 1
  | .selectDRScan => 2
  | .captureDR => 3
  | .shiftDR => 4
  | .exit1DR => 5
  | .pauseDR => 6
  | .exit2DR => 7
  | .updateDR => 8
  | .selectIRScan => 9
  | .captureIR => 10
  | .shiftIR => 11
  | .exit1IR => 12
  | .pauseIR => 13
  | .exit2IR => 14
  | .updateIR => 15
  | .unknown => 16

/-- The rows of the table of R180. An entry is the TMS sequence in the order driven, written in binary after a
leading 1: `0b1` is the empty path, `0b101` the path "01". -/
def pathRow : TapState → List Nat
  | .testLogicReset =>
    [0b1, 0b10, 0b101, 0b1010, 0b10100, 0b10101, 0b101010, 0b1010101,
     0b101011, 0b1011, 0b10110, 0b101100, 0b101101, 0b1011010, 0b10110101, 0b1011011]
  | .runTestIdle =>
    [0b1111, 0b1, 0b11, 0b110, 0b1100, 0b1101, 0b11010, 0b110101,
     0b11011, 0b111, 0b1110, 0b11100, 0b11101, 0b111010, 0b1110101, 0b111011]
  | .selectDRScan =>
    [0b111, 0b1110, 0b1, 0b10, 0b100, 0b101, 0b1010, 0b10101,
     0b1011, 0b11, 0b110, 0b1100, 0b1101, 0b11010, 0b110101, 0b11011]
  | .captureDR =>
    [0b111111, 0b1110, 0b1111, 0b1, 0b10, 0b11, 0b110, 0b1101,
     0b111, 0b11111, 0b111110, 0b1111100, 0b1111101, 0b11111010, 0b111110101, 0b11111011]
  | .shiftDR =>
    [0b111111, 0b1110, 0b1111, 0b11110, 0b1, 0b11, 0b110, 0b1101,
     0b111, 0b11111, 0b111110, 0b1111100, 0b1111101, 0b11111010, 0b111110101, 0b11111011]
  | .exit1DR =>
    [0b11111, 0b110, 0b111, 0b1110, 0b1010, 0b1, 0b10, 0b101,
     0b11, 0b1111, 0b11110, 0b111100, 0b111101, 0b1111010, 0b11110101, 0b1111011]
  | .pauseDR =>
    [0b111111, 0b1110, 0b1111, 0b11110, 0b110, 0b1101, 0b1, 0b11,
     0b111, 0b11111, 0b111110, 0b1111100, 0b1111101, 0b11111010, 0b111110101, 0b11111011]
  | .exit2DR =>
    [0b11111, 0b110, 0b111, 0b1110, 0b10, 0b101, 0b1010, 0b1,
     0b11, 0b1111, 0b11110, 0b111100, 0b111101, 0b1111010, 0b11110101, 0b1111011]
  | .updateDR =>
    [0b1111, 0b10, 0b11, 0b110, 0b1100, 0b1101, 0b11010, 0b110101,
     0b1, 0b111, 0b1110, 0b11100, 0b11101, 0b111010, 0b1110101, 0b111011]
  | .selectIRScan =>
    [0b11, 0b110, 0b1101, 0b11010, 0b110100, 0b110101, 0b1101010, 0b11010101,
     0b1101011, 0b1, 0b10, 0b100, 0b101, 0b1010, 0b10101, 0b1011]
  | .captureIR =>
    [0b111111, 0b1110, 0b1111, 0b11110, 0b111100, 0b111101, 0b1111010, 0b11110101,
     0b1111011, 0b11111, 0b1, 0b10, 0b11, 0b110, 0b1101, 0b111]
  | .shiftIR =>
    [0b111111, 0b1110, 0b1111, 0b11110, 0b111100, 0b111101, 0b1111010, 0b11110101,
     0b1111011, 0b11111, 0b111110, 0b1, 0b11, 0b110, 0b1101, 0b111]
  | .exit1IR =>
    [0b11111, 0b110, 0b111, 0b1110, 0b11100, 0b11101, 0b111010, 0b1110101,
     0b111011, 0b1111, 0b11110, 0b1010, 0b1, 0b10, 0b101, 0b11]
  | .pauseIR =>
    [0b111111, 0b1110, 0b1111, 0b11110, 0b111100, 0b111101, 0b1111010, 0b11110101,
     0b1111011, 0b11111, 0b111110, 0b110, 0b1101, 0b1, 0b11, 0b111]
  | .exit2IR =>
    [0b11111, 0b110, 0b111, 0b1110, 0b11100, 0b11101, 0b111010, 0b1110101,
     0b111011, 0b1111, 0b11110, 0b10, 0b101, 0b1010, 0b1, 0b11]
  | .updateIR =>
    [0b1111, 0b10, 0b11, 0b110, 0b1100, 0b1101, 0b11010, 0b110101,
     0b11011, 0b111, 0b1110, 0b11100, 0b11101, 0b111010, 0b1110101, 0b1]
  | .unknown => []

/-- The bits of an entry of the table after its leading 1; `fuel` bounds their number. -/
def pathBits : Nat → Nat → Bits
  | 0, _ => []
  | fuel + 1, e => if e ≤ 1 then [] else pathBits fuel (e / 2) ++ [e.testBit 0]

/-- `path(s, t)` of R180: the unique shortest TMS sequence from `s` to `t`, empty when `s = t`. There is none from or
to `Unknown`; no command asks for one. -/
def tapPath (s t : TapState) : Bits := pathBits 9 ((pathRow s).getD (pathColumn t) 1)

/-- The TMS values of the preamble `PRE_IR` (R183). -/
def preIr : Bits := [true, true, false, false]

/-- The TMS values of the preamble `PRE_DR` (R183). -/
def preDr : Bits := [true, false, false]

/-- The TMS values of the postamble `POST` (R183). -/
def post : Bits := [true, false]

end Sys2Proof.Machine
end

