-- ==== Sys2Proof/Machine/Operands.lean ====
section
/-! DEFINITION. The operand forms, as pure functions: encoded and decoded images (40), padded frames (41), samples and
cycles (43), counter windows (45). -/

namespace Sys2Proof.Machine

/-! ### The register codec (file 40) -/

/-- Every key of the map is one the image has (R122). -/
def namesOnly (keys : List FieldKey) (fs : Fields) : Bool := fs.all fun kv => decide (kv.1 ∈ keys)

/-- `ENC_CFG` (R123). -/
def encodeCfg (fs : Fields) : Except Refusal Bits :=
  if namesOnly (fieldKeys cfgLayout) fs then .ok (encodeLayout (fieldValue fs) cfgLayout)
  else .error .unknownField

/-- The names `LANE_CTL_LAYOUT` gives the bits of lane `i` (R124). -/
def laneLayoutKeys (p : Params) (i : Nat) : List FieldKey :=
  p.laneLayout.map fun nw => ⟨.other nw.1, some i⟩

/-- The 26 bits of lane `i` from the names of `LANE_CTL_LAYOUT` (R124). -/
def laneLayoutBits (p : Params) (fs : Fields) (i : Nat) : Bits :=
  p.laneLayout.flatMap fun nw => be nw.2 (fieldValue fs ⟨.other nw.1, some i⟩)

/-- Lane `i` is given both ready and by name (log entry 17). -/
def laneTwice (p : Params) (fs : Fields) (i : Nat) : Bool :=
  (fieldValue? fs ⟨.laneCtl, some i⟩).isSome && (laneLayoutKeys p i).any fun k => (fieldValue? fs k).isSome

/-- The value of a CoreControl field: `laneCtl[i]` given ready, or composed from the names of `LANE_CTL_LAYOUT`
(R124), a free value where it is given both ways (log entry 17); every other field as given, or 0. -/
def coreValue (p : Params) (fs : Fields) (key : FieldKey) : Int :=
  match key with
  | ⟨.laneCtl, some i⟩ =>
    match fieldValue? fs ⟨.laneCtl, some i⟩ with
    | some v =>
      if laneTwice p fs i then
        ((Config.laneGivenTwice (BitVec.ofInt 26 v) (BitVec.ofNat 26 (ube (laneLayoutBits p fs i)))).toNat : Int)
      else v
    | none => ((ube (laneLayoutBits p fs i) : Nat) : Int)
  | k => fieldValue fs k

/-- The keys a caller may name in a CoreControl image (R122, R124). -/
def coreKeys (p : Params) : List FieldKey :=
  fieldKeys coreLayout ++ (List.range 4).flatMap (laneLayoutKeys p)

/-- `ENC_CORE` (R124). -/
def encodeCore (p : Params) (fs : Fields) : Except Refusal Bits :=
  if namesOnly (coreKeys p) fs then .ok (encodeLayout (coreValue p fs) coreLayout) else .error .unknownField

/-- `ENC_CHAR` (R125). -/
def encodeChar (fs : Fields) : Except Refusal Bits :=
  if namesOnly (fieldKeys charLayout) fs then .ok (encodeLayout (fieldValue fs) charLayout)
  else .error .unknownField

/-- `DEC_*` against a layout of `length` bits (R127 to R129, R131). -/
def decodeImage (layout : List Slot) (length : Nat) (v : Bits) : Except Refusal Fields :=
  if v.length = length then .ok (decodeLayout layout v) else .error .wrongLength

/-- `TO_WIRE`: `rev(v)`, its own inverse (R130, R131). -/
def toWire (v : Bits) : Bits := v.reverse

/-! ### The daisy chain (file 41) -/

/-- The opcode number as `IRLEN` bits, most significant first (R100). -/
def opcodeBits (p : Params) (opcode : Nat) : Bits := be p.irLen opcode

/-- `BYPASS_OPCODE` (R10, R100). -/
def bypassBits (p : Params) : Bits := opcodeBits p p.bypassOpcode

/-- The number of `OPC[blk][sel]` (R100). -/
def opcodeNumber (p : Params) : Blk → Sel → Nat
  | .r0, .configuration => p.opcR0.configuration
  | .r0, .coreInputs => p.opcR0.coreInputs
  | .r0, .readback => p.opcR0.readback
  | .r1, .configuration => p.opcR1.configuration
  | .r1, .coreInputs => p.opcR1.coreInputs
  | .r1, .readback => p.opcR1.readback

/-- `OPC[blk][sel]` (R10, R100). -/
def opcode (p : Params) (blk : Blk) (sel : Sel) : Bits := opcodeBits p (opcodeNumber p blk sel)

/-- `rep(x, n)` of R12. -/
def rep (x : Bits) (n : Nat) : Bits := (List.replicate n x).flatten

/-- A chain position is valid: `N >= 1` and `1 <= pos <= N` (R150). -/
def validPosition (pos n : Nat) : Bool := decide (1 ≤ n) && decide (1 ≤ pos) && decide (pos ≤ n)

/-- The natural-orientation IRFRAME (R82, R151, R153). -/
def irFrameNatural (p : Params) (op : Bits) (pos n : Nat) : Bits :=
  rep (bypassBits p) (n - pos) ++ op ++ rep (bypassBits p) (pos - 1)

/-- The wire-orientation IRFRAME: one reversal of the whole (R52, R153). -/
def irFrameWire (p : Params) (op : Bits) (pos n : Nat) : Bits := (irFrameNatural p op pos n).reverse

/-- The natural-orientation DRFRAME (R83, R154, R156, R157). -/
def drFrameNatural (v : Bits) (blk : Blk) (pos n : Nat) : Bits :=
  rep [false] (n - pos) ++ dropLast v (trim blk) ++ rep [false] (pos - 1)

/-- The wire-orientation DRFRAME (R157). -/
def drFrameWire (v : Bits) (blk : Blk) (pos n : Nat) : Bits := (drFrameNatural v blk pos n).reverse

/-! ### Samples and cycles (file 43) -/

/-- One line's level at its place in a sample byte (R81). -/
def pinBit (pin : Fin 8) (level : Bool) : Byte := if level then 1#8 <<< pin.val else 0#8

/-- `S(tck, tms, tdi, rst)` of R222. -/
def sampleByte (p : Params) (tck tms tdi rst : Bool) : Byte :=
  pinBit p.pinTck tck ||| pinBit p.pinTms tms ||| pinBit p.pinTdi tdi
  ||| (if p.hasRst then pinBit p.pinRst rst else 0#8)

/-- The levels a sample byte holds (R222). Without a reset line a byte holds no level for it, and the old one stays
(log entry 24). -/
def sampleLevels (p : Params) (old : Lines) (b : Byte) : Lines where
  tck := b.getLsbD p.pinTck.val
  tms := b.getLsbD p.pinTms.val
  tdi := b.getLsbD p.pinTdi.val
  rst := if p.hasRst then b.getLsbD p.pinRst.val else old.rst

/-- The two samples of one TCK cycle, TCK low first (R223). -/
def cycleBytes (p : Params) (c : Bool × Bool) : List Byte :=
  [sampleByte p false c.1 c.2 p.rstInactive, sampleByte p true c.1 c.2 p.rstInactive]

/-- The flush samples: the last sample again, `RX_LAG` times (R225). -/
def flush (p : Params) (bytes : List Byte) : List Byte :=
  match bytes.getLast? with
  | none => []
  | some b => List.replicate p.rxLag b

/-- `BB_EXPAND` of a non-empty cycle list (R225). -/
def expandCycles (p : Params) (cycles : List (Bool × Bool)) : List Byte :=
  cycles.flatMap (cycleBytes p) ++ flush p (cycles.flatMap (cycleBytes p))

/-- The TDO level of cycle `k` in the bytes read for a frame, if they reach that far (R232). -/
def tdoOfCycle (p : Params) (rd : List Byte) (k : Nat) : Option Bool :=
  (rd[2 * k + 1 + p.rxLag]?).map fun b => b.getLsbD p.pinTdo.val

/-- `BB_EXTRACT rd, first, n` (R232): `none` where an index lies outside the frame. -/
def extractTdo (p : Params) (rd : List Byte) (first : Nat) : Nat → Option Bits
  | 0 => some []
  | n + 1 =>
    match tdoOfCycle p rd first with
    | none => none
    | some b => (extractTdo p rd (first + 1) n).map fun bs => b :: bs

/-- The data cycles of a shift: TMS = 1 with the last bit (R181, R182, R378). -/
def dataCycles : Bits → List (Bool × Bool)
  | [] => []
  | [b] => [(true, b)]
  | b :: rest => (false, b) :: dataCycles rest

/-- Cycles of a walk: TDI = 0 in each (R177). -/
def walkCycles (seq : Bits) : List (Bool × Bool) := seq.map fun tms => (tms, false)

/-- The cycles of `WRITE_IR w` (R181). -/
def writeIrCycles (w : Bits) : List (Bool × Bool) := walkCycles preIr ++ dataCycles w ++ walkCycles post

/-- The cycles of `WRITE_DR w` (R182). -/
def writeDrCycles (w : Bits) : List (Bool × Bool) := walkCycles preDr ++ dataCycles w ++ walkCycles post

/-- The cycles of `TAP_RESET`: TMS = 1,1,1,1,1,0 (R178). -/
def tapResetCycles : List (Bool × Bool) := walkCycles [true, true, true, true, true, false]

/-- The bytes of `HW_RESET hw, tapr` on the RAW backend (R186): the pulse with the other lines held, the walk to
Test-Logic-Reset, the flush samples once at the end. -/
def hwResetBytes (p : Params) (lines : Lines) (hw tapr : Bool) : List Byte :=
  let held := fun rst => sampleByte p lines.tck lines.tms lines.tdi rst
  let pulse := if hw then List.replicate p.rstPulseSamples (held (!p.rstInactive)) ++ [held p.rstInactive] else []
  let walk := if tapr then (walkCycles [true, true, true, true, true]).flatMap (cycleBytes p) else []
  (pulse ++ walk) ++ flush p (pulse ++ walk)

/-- A word of the format SAMPLE (R81): each level at its pin; no reset bit without a reset line. -/
def formatSample (p : Params) (r m o i c : Bool) : Byte :=
  sampleByte p c m i r ||| pinBit p.pinTdo o

/-! ### The reply (file 45) -/

/-- `REPLY_DROP[blk]` (R10, R283). -/
def replyDrop (p : Params) : Blk → Nat
  | .r0 => p.replyDropR0
  | .r1 => p.replyDropR1

/-- The bits an aligned reply must have to hold the four windows (R284). -/
def windowsEnd : Nat := 158

/-- The counter of lane `i` in an aligned reply (R285). -/
def laneCounter (a : Bits) (i : Nat) : Nat := ube (slice a (2 + 48 * i) 12).reverse

/-- The counters of the four lanes in an aligned reply (R285). -/
def laneCounters (a : Bits) : Nat × Nat × Nat × Nat :=
  (laneCounter a 0, laneCounter a 1, laneCounter a 2, laneCounter a 3)

/-- The leading bits of the natural reply that steps (c) and (d) drop (R283). -/
def replyLead (p : Params) (blk : Blk) (pos n : Nat) : Nat := (n - pos) + replyDrop p blk

/-- The aligned reply `A` of R87: steps (b) to (d) of R280. -/
def alignedReply (p : Params) (reply : Bits) (blk : Blk) (pos n : Nat) : Bits :=
  reply.reverse.drop (replyLead p blk pos n)

end Sys2Proof.Machine
end

