-- ==== Sys2Proof/Machine/Ops.lean ====
section
/-! DEFINITION. The named operations over the state: field updates, what a command can answer, the transport's
primitives, the abort sequence, and the procedures that several commands share. -/

namespace Sys2Proof.Machine

/-! ### Field updates -/

def State.setTap (s : State) (t : TapState) : State := { s with tap := t }
def State.setPhase (s : State) (p : Phase) : State := { s with phase := p }
def State.setLines (s : State) (l : Lines) : State := { s with lines := l }
def State.setErr (s : State) (e : Err) : State := { s with err := e }
def State.setChan (s : State) (c : Channel) : State := { s with chan := c }
def State.setCurSel (s : State) (x : Option (Blk × Sel)) : State := { s with curSel := x }
def State.setResult (s : State) (r : Result) : State := { s with result := r }
def State.setInbox (s : State) (bs : List Byte) : State := { s with inbox := bs }
def State.setEnv (s : State) (e : Env) : State := { s with env := e }
/-- Append to the history of what was sent (R27). -/
def State.send (s : State) (items : List TxItem) : State := { s with tx := s.tx ++ items }
/-- Append to the history of what came back (R27). -/
def State.receive (s : State) (items : List RxItem) : State := { s with rx := s.rx ++ items }
/-- Emit samples to the output sink (R313, R318). -/
def State.emit (s : State) (samples : List SweepSample) : State := { s with sink := s.sink ++ samples }

/-! ### What a command can answer -/

/-- The answer of an operation: a value and a state, an abort that has left its state (R340), a refusal (R343), or
a wait that never ends (R385). -/
inductive Res (α : Type) where
  | ok (a : α) (s : State)
  | raised (s : State)
  | refused (r : Refusal)
  | stuck (f : Fault)
deriving Repr

/-- Go on after a value; an abort, a refusal and a wait end the command (R258, R335). -/
def Res.bind {α β : Type} (r : Res α) (f : α → State → Res β) : Res β :=
  match r with
  | .ok a s => f a s
  | .raised s => .raised s
  | .refused x => .refused x
  | .stuck x => .stuck x

/-- The outcome of a whole command: its result goes to the host; an aborted command returns none (R340). -/
def Res.deliver {α : Type} (r : Res α) (f : α → Result) : Host.Outcome State Fault Refusal :=
  match r with
  | .ok a s => .next (s.setResult (f a))
  | .raised s => .next (s.setResult .none)
  | .refused x => .refused x
  | .stuck x => .fault x

/-- The answer of a pure operation in state `s`. -/
def ofExcept {α : Type} (x : Except Refusal α) (s : State) : Res α :=
  match x with
  | .ok a => .ok a s
  | .error r => .refused r

/-- Go on unless the command is not accepted. -/
def accept {α : Type} (no : Option Refusal) (k : Res α) : Res α :=
  match no with
  | none => k
  | some r => .refused r

/-- Run one operation for each element, in order. -/
def forEach {α : Type} (f : α → State → Res Unit) : List α → State → Res Unit
  | [], s => .ok () s
  | x :: xs, s => (f x s).bind fun _ s' => forEach f xs s'

/-! ### The transport's primitives -/

/-- The transport's answer to a write of `bytes` (R58, R62). -/
def State.writeAnswer (s : State) (bytes : List Byte) : WriteAnswer :=
  match s.env.writes with
  | a :: _ => a
  | [] => Config.writeAnswer s.env.asked s.tx bytes

/-- The transport's answer to a read of `count` bytes (R59, R62). -/
def State.readAnswer (s : State) (count : Nat) : ReadAnswer :=
  match s.env.reads with
  | a :: _ => a
  | [] => Config.readAnswer s.env.asked s.tx count

/-- The engine's answer to a call (R64). -/
def State.engineAnswer (s : State) (c : EngineCall) : EngineAnswer :=
  match s.env.engine with
  | a :: _ => a
  | [] => Config.engineAnswer s.env.asked s.tx c

def Env.afterWrite (e : Env) : Env := { e with writes := e.writes.tail, asked := e.asked + 1 }
def Env.afterRead (e : Env) : Env := { e with reads := e.reads.tail, asked := e.asked + 1 }
def Env.afterEngine (e : Env) : Env := { e with engine := e.engine.tail, asked := e.asked + 1 }

/-- The lines after samples are handed to the transport: the levels of the last one (R222, R230, R341). -/
def linesAfter (p : Params) (old : Lines) (bytes : List Byte) : Lines :=
  match bytes.getLast? with
  | none => old
  | some b => sampleLevels p old b

/-- `TxWrite(bytes) -> count` (R58): `none` is a reported failure. The history and the lines take every byte that
is handed over, whatever the answer (R341). -/
def txWrite (bytes : List Byte) (s : State) : Res (Option Nat) :=
  let s' := ((s.send (bytes.map .byte)).setLines (linesAfter s.params s.lines bytes)).setEnv s.env.afterWrite
  match s.writeAnswer bytes with
  | .accepted n => .ok (some n) s'
  | .failed => .ok none s'
  | .silent => .stuck .transportSilent

/-- `RxRead(count) -> bytes` (R59): `none` is a reported failure. -/
def rxRead (count : Nat) (s : State) : Res (Option (List Byte)) :=
  match s.readAnswer count with
  | .returned bytes => .ok (some bytes) ((s.receive (bytes.map .byte)).setEnv s.env.afterRead)
  | .failed => .ok none (s.setEnv s.env.afterRead)
  | .silent => .stuck .transportSilent

/-- What an engine call adds to `rx`: the bit vector of `writeDataRegister`, nothing for the others (R64). -/
def engineReply (c : EngineCall) (bits : Bits) : List RxItem :=
  match c with
  | .writeDataRegister _ => [.bits bits]
  | _ => []

/-- `EngineCall(name, args)` (R64): `none` is a reported failure. -/
def engineCall (c : EngineCall) (s : State) : Res (Option Bits) :=
  let s' := (s.send [.call c]).setEnv s.env.afterEngine
  match s.engineAnswer c with
  | .done bits => .ok (some bits) (s'.receive (engineReply c bits))
  | .failed => .ok none s'
  | .silent => .stuck .transportSilent

/-! ### Release and abort -/

/-- The release of `CLOSE` (R189): nothing while the channel is closed; a failure of the engine's `close` is
ignored. -/
def closeTransport (s : State) : Res Unit :=
  match s.chan with
  | .closed => .ok () s
  | .opened =>
    (match s.params.backend with
      | .raw => Res.ok none s
      | .engine => engineCall .close s).bind fun _ s' =>
    .ok () (((s'.setChan .closed).setTap .unknown).setCurSel none)

/-- `raise E(info)`, the abort sequence of R340: the latch is set, an open channel is closed, no result. There is no
return from it (R342). -/
def raise {α : Type} (e : Err) (s : State) : Res α :=
  (closeTransport (s.setErr e)).bind fun _ s' => .raised s'

/-! ### Transfers -/

/-- `BB_XFER bytes` (R230): one write, one read of the same count. -/
def bbXfer (cmd : Command) (bytes : List Byte) (s : State) : Res (List Byte) :=
  (txWrite bytes s).bind fun count s1 =>
    if count = some bytes.length then
      (rxRead bytes.length s1).bind fun rd s2 =>
        match rd with
        | none => raise (.transportError cmd (some bytes.length) none) s2
        | some bs =>
          if bs.length = bytes.length then .ok bs s2
          else raise (.transportError cmd (some bytes.length) (some bs.length)) s2
    else raise (.transportError cmd (some bytes.length) count) s1

/-- An engine call whose failure aborts the command (R64). -/
def engineDo (cmd : Command) (c : EngineCall) (s : State) : Res Bits :=
  (engineCall c s).bind fun r s' =>
    match r with
    | some bits => .ok bits s'
    | none => raise (.transportError cmd none none) s'

/-! ### TCK cycles -/

/-- One cycle's effect on the tracked state: `tap` moves, and arriving in Test-Logic-Reset loses the selection
(R172, R174, R176). -/
def clockTap (s : State) (tms : Bool) : State :=
  let t := tapNext s.tap tms
  if t = .testLogicReset then (s.setTap t).setCurSel none else s.setTap t

/-- The effect of a list of cycles, in order (R174). -/
def clockAll (cycles : List (Bool × Bool)) (s : State) : State :=
  cycles.foldl (fun s c => clockTap s c.1) s

/-- The lines after a list of cycles: the last cycle's TMS and TDI, TCK high (R174). -/
def linesAfterCycles (old : Lines) (cycles : List (Bool × Bool)) : Lines :=
  match cycles.getLast? with
  | none => old
  | some c => { old with tck := true, tms := c.1, tdi := c.2 }

/-- What `RunCycles` leaves in the state once its transfer has succeeded (R174). -/
def afterCycles (cycles : List (Bool × Bool)) (s : State) : State :=
  (clockAll cycles s).setLines (linesAfterCycles s.lines cycles)

/-- `RunCycles(cycles) -> tdos` of R174, on the RAW backend. -/
def runCycles (cmd : Command) (cycles : List (Bool × Bool)) (s : State) : Res Bits :=
  accept s.notLive <|
  if cycles = [] then .ok [] s
  else
    (bbXfer cmd (expandCycles s.params cycles) s).bind fun rd s1 =>
      match extractTdo s1.params rd 0 cycles.length with
      | none => .refused .indexOutsideFrame
      | some tdos => .ok tdos (afterCycles cycles s1)

/-- A walk with TDI = 0, its replies discarded (R177). -/
def walk (cmd : Command) (seq : Bits) (s : State) : Res Unit :=
  (runCycles cmd (walkCycles seq) s).bind fun _ s' => .ok () s'

/-! ### The TAP controller's procedures -/

/-- `TAP_RESET` (R178, R185). -/
def tapReset (cmd : Command) (s : State) : Res Unit :=
  accept s.notLive <|
  match s.params.backend with
  | .raw =>
    (runCycles cmd tapResetCycles s).bind fun _ s1 =>
      .ok () ((if s.tap = .unknown then s1.setTap .runTestIdle else s1).setCurSel none)
  | .engine =>
    (engineDo cmd .resetTAP s).bind fun _ s1 =>
    (engineDo cmd .goIdle s1).bind fun _ s2 =>
      .ok () ((s2.setTap .runTestIdle).setCurSel none)

/-- The scan master's record after the ENGINE backend has moved to `name`: `tap` is `name` and, where `name` is
Test-Logic-Reset, `cur_sel` is lost (R179, R180). It is also lost where RAW's shortest walk passes through
Test-Logic-Reset (R176, R185, R376, D26, D33), which the ENGINE lines of R179 and R180 leave out: DEDUCED, unsafe (log
entry 29). -/
def trackTo (name : TapState) (s : State) : State :=
  let walked := clockAll (walkCycles (tapPath s.tap name)) s
  if name = .testLogicReset then (walked.setTap name).setCurSel none else walked.setTap name

/-- `GO_IDLE` (R179, R185). -/
def goIdle (cmd : Command) (s : State) : Res Unit :=
  accept s.notLive <|
  if s.tap = .unknown then .refused .tapUnknown
  else match s.params.backend with
  | .raw => walk cmd (tapPath s.tap .runTestIdle) s
  | .engine => (engineDo cmd .goIdle s).bind fun _ s1 => .ok () (trackTo .runTestIdle s1)

/-- `CHANGE_STATE name` (R180, R185). -/
def changeState (cmd : Command) (name : TapState) (s : State) : Res Unit :=
  accept s.notLive <|
  if s.tap = .unknown then .refused .tapUnknown
  else match s.params.backend with
  | .raw => walk cmd (tapPath s.tap name) s
  | .engine =>
    (engineDo cmd (.changeState name) s).bind fun _ s1 => .ok () (trackTo name s1)

/-- Why no frame can start here, if it cannot: the TAP is not in Run-Test/Idle (R187, R377). -/
def State.offIdle (s : State) : Option Refusal :=
  if s.tap = .runTestIdle then none else some .notInIdle

/-- Why a register write of `w` is not accepted, if it is not (R187, R190). -/
def State.noWrite (s : State) (w : Bits) : Option Refusal :=
  if w = [] then some .emptyShift else s.offIdle

/-- `WRITE_IR w` (R181, R185). It takes any bits, though R102 says that the six opcodes and `BYPASS_OPCODE` are all that is
ever written: DEDUCED, unsafe (log entry 37). -/
def writeIr (cmd : Command) (w : Bits) (s : State) : Res Unit :=
  accept s.notLive <|
  accept (s.noWrite w) <|
  match s.params.backend with
  | .raw => (runCycles cmd (writeIrCycles w) s).bind fun _ s1 => .ok () s1
  | .engine =>
    (engineDo cmd (.writeInstructionRegister w) s).bind fun _ s1 => .ok () (s1.setTap .runTestIdle)

/-- `WRITE_DR w -> r` (R182, R185): on RAW the preamble's three and the postamble's two samples are dropped (R233);
on ENGINE a reply of another length is a TransportError. It takes any bits (log entry 36). -/
def writeDr (cmd : Command) (w : Bits) (s : State) : Res Bits :=
  accept s.notLive <|
  accept (s.noWrite w) <|
  match s.params.backend with
  | .raw => (runCycles cmd (writeDrCycles w) s).bind fun tdos s1 => .ok (slice tdos 3 w.length) s1
  | .engine =>
    (engineDo cmd (.writeDataRegister w) s).bind fun r s1 =>
      if r.length = w.length then .ok r (s1.setTap .runTestIdle)
      else raise (.transportError cmd (some w.length) (some r.length)) s1

/-- The state updates of `HW_RESET hw, tapr` after its transfer or its call: "the same state updates" on both backends
(R186), the lines of a walk among them (log entry 15). With tapr the TAP is in Test-Logic-Reset from any state, the unknown
one too, as R186, D29 and V47 say against R178, D25 and U9, by which only `TAP_RESET` resolves it: DEDUCED, unsafe (log
entry 32). -/
def afterHwReset (hw tapr : Bool) (s : State) : State :=
  let s1 := if hw then (s.setTap .unknown).setCurSel none else s
  if tapr then
    ((s1.setTap .testLogicReset).setCurSel none).setLines { s1.lines with tck := true, tms := true, tdi := false }
  else s1

/-- `HW_RESET hw, tapr` (R186). -/
def hwReset (cmd : Command) (hw tapr : Bool) (s : State) : Res Unit :=
  accept s.notLive <|
  if hw = false ∧ tapr = false then .ok () s
  else if hw = true ∧ s.params.hasRst = false then .refused .noResetLine
  else match s.params.backend with
  | .raw =>
    (bbXfer cmd (hwResetBytes s.params s.lines hw tapr) s).bind fun _ s1 => .ok () (afterHwReset hw tapr s1)
  | .engine => (engineDo cmd (.reset hw tapr) s).bind fun _ s1 => .ok () (afterHwReset hw tapr s1)

/-- `OPEN connection` (R188). -/
def openTransport (cmd : Command) (connection : List Byte) (s : State) : Res Unit :=
  accept s.latched <|
  match s.chan with
  | .opened => .refused .channelAlreadyOpen
  | .closed =>
    (match s.params.backend with
      | .raw => Res.ok [] s
      | .engine => engineDo cmd (.configure connection) s).bind fun _ s1 =>
    .ok () ((((s1.setChan .opened).setTap .unknown).setCurSel none).setPhase .idle)

/-! ### Frames -/

/-- `PAD_IR opcode, pos, N -> w` (R153). The width is refused before the position raises (R335, D32), the other way round
than in R153's pseudocode: DEDUCED, unsafe (log entry 11). Any opcode of the right width is taken, though R102 says that no
other than the seven is ever written: DEDUCED, unsafe (log entry 37). -/
def padIr (op : Bits) (pos n : Nat) (s : State) : Res Bits :=
  if op.length = s.params.irLen then
    if validPosition pos n then .ok (irFrameWire s.params op pos n) s
    else raise (.configurationError (.position pos n)) s
  else .refused .wrongOpcodeWidth

/-- `PAD_DR v, blk, pos, N -> w` (R157). The length is refused before the position raises (R335, D32), the other way round
than in R157's pseudocode: DEDUCED, unsafe (log entry 11). A 1 of `v` in a guard or reserved position goes into the frame:
DEDUCED, unsafe (log entry 36). -/
def padDr (v : Bits) (blk : Blk) (pos n : Nat) (s : State) : Res Bits :=
  if trim blk < v.length then
    if validPosition pos n then .ok (drFrameWire v blk pos n) s
    else raise (.configurationError (.position pos n)) s
  else .refused .vectorTooShort

/-! ### The scan controller's procedures -/

/-- Write an opcode to the addressed device's instruction register, BYPASS to every other, and record what it
selects once the write has completed (R252). What `WRITE_IR` refuses is refused before the position raises (D32; log entry
11). -/
def writeOpcode (cmd : Command) (op : Bits) (selects : Option (Blk × Sel)) (pos n : Nat) (s : State) : Res Unit :=
  accept s.notLive <|
  accept s.offIdle <|
  (padIr op pos n s).bind fun w s1 =>
  (writeIr cmd w s1).bind fun _ s2 =>
  .ok () (s2.setCurSel selects)

/-- `SELECT blk, sel, pos, N` (R252). -/
def select (cmd : Command) (blk : Blk) (sel : Sel) (pos n : Nat) (s : State) : Res Unit :=
  writeOpcode cmd (opcode s.params blk sel) (some (blk, sel)) pos n s

/-- Why a `SHIFT` of `v` for `blk` is not accepted, if it is not (R253, R254). -/
def State.noShift (s : State) (blk : Blk) (v : Bits) : Option Refusal :=
  match s.curSel with
  | none => some .nothingSelected
  | some (b, sel) =>
    if b = blk then (if v.length = selLength sel then none else some .vectorMismatch) else some .blockMismatch

/-- `SHIFT blk, v, pos, N -> reply` (R254). What `WRITE_DR` refuses is refused before the position raises (D32; log entry 11).
A 1 of `v` in a guard or reserved position is shifted as given, though R101 says that the scan master cannot produce one:
DEDUCED, unsafe (log entry 36). -/
def shift (cmd : Command) (blk : Blk) (v : Bits) (pos n : Nat) (s : State) : Res Bits :=
  accept s.notLive <|
  accept (s.noShift blk v) <|
  accept s.offIdle <|
  (padDr v blk pos n s).bind fun w s1 => writeDr cmd w s1

/-- Why a `TRANSACT` of `v` is not accepted, if it is not: what R256, and the `SELECT` and the `SHIFT` in it, refuse (R187,
R253), all before the position raises (R335, D32; log entry 11). -/
def State.noTransact (s : State) (sel : Sel) (v : Bits) : Option Refusal :=
  if s.phase = .idle then
    if s.tap = .runTestIdle then (if v.length = selLength sel then none else some .vectorMismatch) else some .notInIdle
  else some .transactionInProgress

/-- `TRANSACT blk, sel, v, pos, N -> reply` (R256): the four steps, each under its phase. -/
def transact (cmd : Command) (blk : Blk) (sel : Sel) (v : Bits) (pos n : Nat) (s : State) : Res Bits :=
  accept s.notLive <|
  accept (s.noTransact sel v) <|
  (select cmd blk sel pos n (s.setPhase .selectInstruction)).bind fun _ s1 =>
  (shift cmd blk v pos n (s1.setPhase .shiftData)).bind fun reply s2 =>
  (tapReset cmd (s2.setPhase .resetTAP)).bind fun _ s3 =>
  (select cmd blk sel pos n (s3.setPhase .selectData)).bind fun _ s4 =>
  .ok reply (s4.setPhase .idle)

/-! ### The reply parser -/

/-- The four counters of an aligned reply, or ProtocolViolation where the reply is too short; `dropped` is what steps (c)
and (d) took from a reply of `length` bits (R281, R284). -/
def countersOf (a : Bits) (length dropped : Nat) (s : State) : Res (Nat × Nat × Nat × Nat) :=
  if length < dropped + windowsEnd then raise (.protocolViolation length (dropped + windowsEnd)) s
  else .ok (laneCounters a) s

/-- `PARSE_REPLY reply, blk, pos, N` (R281). -/
def parseReply (reply : Bits) (blk : Blk) (pos n : Nat) (s : State) : Res (Nat × Nat × Nat × Nat) :=
  accept s.latched <|
  if validPosition pos n then
    countersOf (alignedReply s.params reply blk pos n) reply.length (replyLead s.params blk pos n) s
  else raise (.configurationError (.position pos n)) s

end Sys2Proof.Machine
end

