-- ==== Sys2Proof/Machine/Tap.lean ====
section
/-! DEFINITION. The meanings of the TAP controller's commands (42_tap_controller). -/

namespace Sys2Proof.Machine

/-- Why a cycle-level command is not accepted, if it is not: a closed channel, a latched error (R174), or the ENGINE
backend, which has no such call (R185, R343). -/
def State.noCycles (s : State) : Option Refusal :=
  match s.notLive with
  | some r => some r
  | none => if s.params.backend = .raw then none else some .engineHasNoCycles

/-- `TCK_CYCLE tms, tdi -> tdo` (R175). -/
def execTckCycle (tms tdi : Bool) (s : State) : Host.Outcome State Fault Refusal :=
  (accept s.noCycles (runCycles .tckCycle [(tms, tdi)] s)).deliver fun tdos => .bit (tdos.headD false)

/-- `TMS_WALK seq` (R177). -/
def execTmsWalk (seq : Bits) (s : State) : Host.Outcome State Fault Refusal :=
  (accept s.noCycles (walk .tmsWalk seq s)).deliver fun _ => .none

/-- `TAP_RESET` (R178). -/
def execTapReset (s : State) : Host.Outcome State Fault Refusal :=
  (tapReset .tapReset s).deliver fun _ => .none

/-- `GO_IDLE` (R179). -/
def execGoIdle (s : State) : Host.Outcome State Fault Refusal :=
  (goIdle .goIdle s).deliver fun _ => .none

/-- `CHANGE_STATE name` (R180). -/
def execChangeState (name : TapState) (s : State) : Host.Outcome State Fault Refusal :=
  (changeState .changeState name s).deliver fun _ => .none

/-- `WRITE_IR w` (R181). -/
def execWriteIr (w : Bits) (s : State) : Host.Outcome State Fault Refusal :=
  (writeIr .writeIr w s).deliver fun _ => .none

/-- `WRITE_DR w -> r` (R182). -/
def execWriteDr (w : Bits) (s : State) : Host.Outcome State Fault Refusal :=
  (writeDr .writeDr w s).deliver .bits

/-- `HW_RESET hw, tapr` (R186). -/
def execHwReset (hw tapr : Bool) (s : State) : Host.Outcome State Fault Refusal :=
  (hwReset .hwReset hw tapr s).deliver fun _ => .none

/-- `OPEN connection` (R188). -/
def execOpenChannel (connection : List Byte) (s : State) : Host.Outcome State Fault Refusal :=
  (openTransport .openChannel connection s).deliver fun _ => .none

/-- `CLOSE` (R189): accepted in every state, and it never clears the latch. -/
def execCloseChannel (s : State) : Host.Outcome State Fault Refusal :=
  (closeTransport s).deliver fun _ => .none

end Sys2Proof.Machine
end

