-- ==== Sys2Proof/Machine/BitBang.lean ====
section
/-! DEFINITION. The meanings of the line multiplexer's commands (43_bitbang_framing). None exists on the ENGINE
backend (93 U13). -/

namespace Sys2Proof.Machine

/-- Why a pure command of file 43 is not accepted, if it is not: as every command of files 42 to 44 it needs the channel
open (R189, 93 U16) and the RAW backend (93 U13); but as it touches no state and cannot raise, it stays accepted after
an error, which has closed the channel (R342; log entry 12). -/
def State.noFraming (s : State) : Option Refusal :=
  if s.err = .none then s.noCycles
  else if s.params.backend = .raw then none else some .engineHasNoCycles

/-- `BB_EXPAND cycles -> bytes` (R225). -/
def execBbExpand (cycles : List (Bool × Bool)) (s : State) : Host.Outcome State Fault Refusal :=
  (accept s.noFraming <|
    if cycles = [] then .refused .emptyCycleList else .ok (expandCycles s.params cycles) s).deliver .bytes

/-- `BB_XFER bytes -> rd` (R230). It takes any bytes, and `lines` then holds the last one's levels, an asserted reset line
among them, though R224 says that only `HW_RESET` asserts it: DEDUCED, unsafe (log entry 33).
The bytes are sent as given: their `PIN_TDO` and unused bits too, which R81 and R222 say are 0 in a written sample: DEDUCED,
unsafe (log entry 34). -/
def execBbXfer (bytes : List Byte) (s : State) : Host.Outcome State Fault Refusal :=
  (accept s.noCycles <|
    if bytes = [] then .refused .emptyTransfer else bbXfer .bbXfer bytes s).deliver .bytes

/-- `BB_EXTRACT rd, first, n -> bits` (R232). -/
def execBbExtract (rd : List Byte) (first count : Nat) (s : State) : Host.Outcome State Fault Refusal :=
  (accept s.noFraming <|
    match extractTdo s.params rd first count with
    | none => .refused .indexOutsideFrame
    | some v => .ok v s).deliver .bits

end Sys2Proof.Machine
end

