-- ==== Sys2Proof/Machine/Chain.lean ====
section
/-! DEFINITION. The meanings of the daisy-chain encoder's commands (41_chain_addressing). They can raise, so they are
refused while an error is latched (R342). -/

namespace Sys2Proof.Machine

/-- `PAD_IR opcode, pos, N -> w` (R153). -/
def execPadIr (op : Bits) (pos n : Nat) (s : State) : Host.Outcome State Fault Refusal :=
  (accept s.latched (padIr op pos n s)).deliver .bits

/-- `PAD_DR v, blk, pos, N -> w` (R157). -/
def execPadDr (v : Bits) (blk : Blk) (pos n : Nat) (s : State) : Host.Outcome State Fault Refusal :=
  (accept s.latched (padDr v blk pos n s)).deliver .bits

end Sys2Proof.Machine
end

