-- ==== Sys2Proof/Machine/Codec.lean ====
section
/-! DEFINITION. The meanings of the register codec's commands (40_register_codec). They read and write no state
element of R20 and are accepted in every state (R342). -/

namespace Sys2Proof.Machine

/-- `ENC_CFG fields -> v` (R123). -/
def execEncCfg (fields : Fields) (s : State) : Host.Outcome State Fault Refusal :=
  (ofExcept (encodeCfg fields) s).deliver .bits

/-- `ENC_CORE fields -> v` (R124). -/
def execEncCore (fields : Fields) (s : State) : Host.Outcome State Fault Refusal :=
  (ofExcept (encodeCore s.params fields) s).deliver .bits

/-- `ENC_CHAR fields -> v` (R125). -/
def execEncChar (fields : Fields) (s : State) : Host.Outcome State Fault Refusal :=
  (ofExcept (encodeChar fields) s).deliver .bits

/-- `DEC_CFG v -> fields` (R127). -/
def execDecCfg (v : Bits) (s : State) : Host.Outcome State Fault Refusal :=
  (ofExcept (decodeImage cfgLayout 27 v) s).deliver .fields

/-- `DEC_CORE v -> fields` (R128). -/
def execDecCore (v : Bits) (s : State) : Host.Outcome State Fault Refusal :=
  (ofExcept (decodeImage coreLayout 133 v) s).deliver .fields

/-- `DEC_CHAR v -> fields` (R129). -/
def execDecChar (v : Bits) (s : State) : Host.Outcome State Fault Refusal :=
  (ofExcept (decodeImage charLayout 195 v) s).deliver .fields

/-- `TO_WIRE v -> w` (R130). -/
def execToWire (v : Bits) (s : State) : Host.Outcome State Fault Refusal :=
  (Res.ok (toWire v) s).deliver .bits

end Sys2Proof.Machine
end

