-- ==== Sys2Proof/Machine/Formats.lean ====
section
/-! DEFINITION. The meanings of the table's format rows (30_encoding R80 to R87). A format is no command; as an
instruction it delivers what its word is or holds: a format the scan master produces is composed from its fields, and
the one it consumes, REPLY, is read (log entry 3). No state element of R20 changes, but that an invalid position raises
as everywhere. -/

namespace Sys2Proof.Machine

/-- `SAMPLE`: the byte that holds the five levels at their pins (R81, R222). It is delivered on both backends, though
ENGINE has no sample bytes and the spec does not say: DESIGN CHOICE, unsafe (log entry 30). The TDO level stands at its pin,
as in a sample that is read; in one that is written R81 has 0 there: DESIGN CHOICE, unsafe (log entry 3). -/
def execSample (r m o i c : Bool) (s : State) : Host.Outcome State Fault Refusal :=
  (Res.ok [formatSample s.params r m o i c] s).deliver .bytes

/-- `IRFRAME`: the frame, in wire orientation (R82). -/
def execIrFrame (op : Bits) (pos n : Nat) (s : State) : Host.Outcome State Fault Refusal :=
  (accept s.latched (padIr op pos n s)).deliver .bits

/-- `DRFRAME`: the frame, in wire orientation (R83). -/
def execDrFrame (v : Bits) (blk : Blk) (pos n : Nat) (s : State) : Host.Outcome State Fault Refusal :=
  (accept s.latched (padDr v blk pos n s)).deliver .bits

/-- `CFG`: the 27-bit image of the fields (R84). -/
def execCfgImage (image : CfgImage) (s : State) : Host.Outcome State Fault Refusal :=
  (Res.ok (cfgImageBits image) s).deliver .bits

/-- `CORE`: the 133-bit image of the fields (R85). -/
def execCoreImage (image : CoreImage) (s : State) : Host.Outcome State Fault Refusal :=
  (Res.ok (coreImageBits image) s).deliver .bits

/-- `CHAR`: the 195-bit image of the fields (R86). -/
def execCharImage (image : CharImage) (s : State) : Host.Outcome State Fault Refusal :=
  (Res.ok (charImageBits image) s).deliver .bits

/-- `REPLY`: the four counters of an aligned reply `A`. Fewer than 158 bits are no word of the format (R87) and are refused
(D24); a ProtocolViolation is raised by `PARSE_REPLY` alone (R330, R335): DESIGN CHOICE (log entry 22). -/
def execReplyFormat (a : Bits) (s : State) : Host.Outcome State Fault Refusal :=
  (accept s.latched <|
    if a.length < windowsEnd then .refused .replyTooShort else .ok (laneCounters a) s).deliver fun c =>
      .counters c.1 c.2.1 c.2.2.1 c.2.2.2

end Sys2Proof.Machine
end

