-- ==== Sys2Proof/Machine/Opcodes.lean ====
section
/-! DEFINITION. The meanings of the seven opcodes of the target's instruction register (30_encoding R100). An opcode
is an instruction of the addressed device; it takes effect when the scan master writes it into that device's
instruction register, and the effect the spec gives it is what it selects (R26, R50, R73, R252; log entry 4). -/

namespace Sys2Proof.Machine

/-- `BYPASS_OPCODE`: every device of the chain gets the bypass register; no selection is left (R40, R100). -/
def execBypassOpcode (pos n : Nat) (s : State) : Host.Outcome State Fault Refusal :=
  (writeOpcode .writeIr (bypassBits s.params) none pos n s).deliver fun _ => .none

/-- `OPC[R0][Configuration]`: block R0, select configuration (R100). -/
def execOpcR0Configuration (pos n : Nat) (s : State) : Host.Outcome State Fault Refusal :=
  (select .select .r0 .configuration pos n s).deliver fun _ => .none

/-- `OPC[R0][CoreInputs]`: block R0, select core inputs (R100). -/
def execOpcR0CoreInputs (pos n : Nat) (s : State) : Host.Outcome State Fault Refusal :=
  (select .select .r0 .coreInputs pos n s).deliver fun _ => .none

/-- `OPC[R0][Readback]`: block R0, select readback (R100). -/
def execOpcR0Readback (pos n : Nat) (s : State) : Host.Outcome State Fault Refusal :=
  (select .select .r0 .readback pos n s).deliver fun _ => .none

/-- `OPC[R1][Configuration]`: block R1, select configuration (R100). -/
def execOpcR1Configuration (pos n : Nat) (s : State) : Host.Outcome State Fault Refusal :=
  (select .select .r1 .configuration pos n s).deliver fun _ => .none

/-- `OPC[R1][CoreInputs]`: block R1, select core inputs (R100). -/
def execOpcR1CoreInputs (pos n : Nat) (s : State) : Host.Outcome State Fault Refusal :=
  (select .select .r1 .coreInputs pos n s).deliver fun _ => .none

/-- `OPC[R1][Readback]`: block R1, select readback (R100). -/
def execOpcR1Readback (pos n : Nat) (s : State) : Host.Outcome State Fault Refusal :=
  (select .select .r1 .readback pos n s).deliver fun _ => .none

end Sys2Proof.Machine
end

