-- ==== Sys2Proof/Machine/Reply.lean ====
section
/-! DEFINITION. The meaning of the reply parser's command (45_readback_decoder). -/

namespace Sys2Proof.Machine

/-- Four counters as a result. -/
def countersResult (c : Nat × Nat × Nat × Nat) : Result := .counters c.1 c.2.1 c.2.2.1 c.2.2.2

/-- `PARSE_REPLY reply, blk, pos, N -> (c0, c1, c2, c3)` (R281). -/
def execParseReply (reply : Bits) (blk : Blk) (pos n : Nat) (s : State) : Host.Outcome State Fault Refusal :=
  (parseReply reply blk pos n s).deliver countersResult

end Sys2Proof.Machine
end

