-- ==== Sys2Proof/Machine/Scan.lean ====
section
/-! DEFINITION. The meanings of the scan controller's commands (44_scan_controller). -/

namespace Sys2Proof.Machine

/-- `SELECT blk, sel, pos, N` (R252). -/
def execSelect (blk : Blk) (sel : Sel) (pos n : Nat) (s : State) : Host.Outcome State Fault Refusal :=
  (select .select blk sel pos n s).deliver fun _ => .none

/-- `SHIFT blk, v, pos, N -> reply` (R254). -/
def execShift (blk : Blk) (v : Bits) (pos n : Nat) (s : State) : Host.Outcome State Fault Refusal :=
  (shift .shift blk v pos n s).deliver .bits

/-- `TRANSACT blk, sel, v, pos, N -> reply` (R256). -/
def execTransact (blk : Blk) (sel : Sel) (v : Bits) (pos n : Nat) (s : State) :
    Host.Outcome State Fault Refusal :=
  (transact .transact blk sel v pos n s).deliver .bits

end Sys2Proof.Machine
end

