-- ==== Sys2Proof/Machine/Sweep.lean ====
section
/-! DEFINITION. The meanings of the host's pseudo-commands (46_sweep_sequence): expansions into the commands of the
other files, each run as one step (log entry 18). -/

namespace Sys2Proof.Machine

/-! ### The parts of a sweep -/

/-- `WE_SET` (R304): the core and char write-enables. -/
def weSet : Fields :=
  [(⟨.coreWeHead, none⟩, 1), (⟨.coreWeTail, none⟩, 1)]
  ++ (List.range 4).flatMap fun i => [(⟨.coreWe, some i⟩, 1), (⟨.charWe, some i⟩, 1)]

/-- The voltages in the order of R306: 31 down to -32. -/
def voltages : List Int := (List.range 64).map fun (k : Nat) => 31 - (k : Int)

/-- The phases in the order of R311: 15 down to -16. -/
def phases : List Int := (List.range 32).map fun (k : Nat) => 15 - (k : Int)

/-- `lane_base(blk)` (R314). -/
def laneBase : Blk → Nat
  | .r0 => 0
  | .r1 => 4

/-- The fields of `DIAG(V, b, P)` (R312): the template, overridden for every lane. The first value of a key counts. -/
def diagFields (p : Params) (v : Int) (b : Nat) (ph : Int) : Fields :=
  (List.range 4).flatMap (fun i =>
    [(⟨.phaseOffset, some i⟩, ph), (⟨.bitSelect, some i⟩, (b : Int)), (⟨.voltageOffset, some i⟩, v)])
  ++ p.diagTemplate

/-- The four samples of one parsed reply, in lane order (R313). -/
def samplesOf (blk : Blk) (v : Int) (b : Nat) (ph : Int) (c : Nat × Nat × Nat × Nat) : List SweepSample :=
  [⟨laneBase blk, b, v, ph, c.1⟩, ⟨laneBase blk + 1, b, v, ph, c.2.1⟩, ⟨laneBase blk + 2, b, v, ph, c.2.2.1⟩,
   ⟨laneBase blk + 3, b, v, ph, c.2.2.2⟩]

/-- A `TRANSACT` of an image the host encodes, its reply discarded (R303). -/
def transactImage (blk : Blk) (sel : Sel) (image : Except Refusal Bits) (pos n : Nat) (s : State) : Res Unit :=
  (ofExcept image s).bind fun v s1 =>
  (transact .transact blk sel v pos n s1).bind fun _ s2 => .ok () s2

/-- `CONFIGURE_BLOCK`: the three transactions of R303, in order. -/
def configureBlock (blk : Blk) (coreParams : Fields) (pos n : Nat) (s : State) : Res Unit :=
  (transactImage blk .configuration (encodeCfg []) pos n s).bind fun _ s1 =>
  (transactImage blk .configuration (encodeCfg weSet) pos n s1).bind fun _ s2 =>
  transactImage blk .coreInputs (encodeCore s2.params coreParams) pos n s2

/-- A `SHIFT` of `DIAG(V, b, P)` (R310, R311). -/
def shiftDiag (blk : Blk) (v : Int) (b : Nat) (ph : Int) (pos n : Nat) (s : State) : Res Bits :=
  (ofExcept (encodeChar (diagFields s.params v b ph)) s).bind fun image s1 =>
  shift .shift blk image pos n s1

/-- One readback at one phase: shift, parse, emit (R308, R311, R313). -/
def readPhase (blk : Blk) (v : Int) (b : Nat) (pos n : Nat) (ph : Int) (s : State) : Res Unit :=
  (shiftDiag blk v b ph pos n s).bind fun reply s1 =>
  (parseReply reply blk pos n s1).bind fun c s2 =>
  .ok () (s2.emit (samplesOf blk v b ph c))

/-- One `(V, b)` pair: select, priming read, the phase loop (R308 to R311). -/
def readPair (blk : Blk) (v : Int) (pos n : Nat) (b : Nat) (s : State) : Res Unit :=
  (select .select blk .readback pos n s).bind fun _ s1 =>
  (shiftDiag blk v b 0 pos n s1).bind fun _ s2 =>
  forEach (readPhase blk v b pos n) phases s2

/-- `SWEEP_BLOCK`: voltages, and within each the bit-selects (R306 to R308). -/
def sweepBlock (blk : Blk) (bitNumber pos n : Nat) (s : State) : Res Unit :=
  forEach (fun v => forEach (readPair blk v pos n) (List.range bitNumber)) voltages s

/-- What stands beside a number in a list, if anything. -/
def lookup {α : Type} (members : List (Nat × α)) (number : Nat) : Option α :=
  (members.find? fun kv => decide (kv.1 = number)).map Prod.snd

/-- The lane fields that a test pattern decides, if it is a member of `TESTPATT_SET` (R301): each `laneCtl[i]` ready, or
the test-pattern field of every lane (R305). -/
def patternFields (p : Params) (testPattern : Nat) : Option Fields :=
  match p.testPatterns with
  | .ready members => (lookup members testPattern).map fun l =>
    [(⟨.laneCtl, some 0⟩, (l.lane0.toNat : Int)), (⟨.laneCtl, some 1⟩, (l.lane1.toNat : Int)),
     (⟨.laneCtl, some 2⟩, (l.lane2.toNat : Int)), (⟨.laneCtl, some 3⟩, (l.lane3.toNat : Int))]
  | .byField f members => (lookup members testPattern).map fun v =>
    (List.range 4).map fun i => (⟨.other f, some i⟩, v)

/-- `CORE_PARAMS` for a test pattern (R305), if it is a member of `TESTPATT_SET`. The first value of a key counts, so that
the pattern's own is before the record's (log entry 19). -/
def coreParamsFor (p : Params) (testPattern : Nat) : Option Fields :=
  (patternFields p testPattern).map fun fs => fs ++ p.coreParams

/-- One block of a sweep: configured, then swept (R316). -/
def runBlock (coreParams : Fields) (bitNumber pos n : Nat) (blk : Blk) (s : State) : Res Unit :=
  (configureBlock blk coreParams pos n s).bind fun _ s1 => sweepBlock blk bitNumber pos n s1

/-- `SWEEP params` (R316): validate, bring up, both blocks, close. Where the validation fails while the channel is open, the
raise closes it as R340 says, on ENGINE by the call `close`, though R301 says that a configuration error never touches the
transport: DEDUCED, unsafe (log entry 35). -/
def sweep (p : SweepParams) (s : State) : Res Unit :=
  accept s.latched <|
  if validPosition p.pos p.n then
    match coreParamsFor s.params p.testPattern with
    | none => raise (.configurationError (.pattern p.testPattern)) s
    | some coreParams =>
      (openTransport .openChannel p.connection s).bind fun _ s1 =>
      (tapReset .tapReset s1).bind fun _ s2 =>
      (forEach (runBlock coreParams p.bitNumber p.pos p.n) [.r0, .r1] s2).bind fun _ s3 =>
      closeTransport s3
  else raise (.configurationError (.position p.pos p.n)) s

/-- A sweep's result: the samples it emitted after the first `before` of the sink. -/
def samplesResult (before : Nat) (r : Res Unit) : Res (List SweepSample) :=
  r.bind fun _ s => .ok (s.sink.drop before) s

/-! ### The text form of the output (R318) -/

/-- The decimal digits of `n`; `fuel` bounds their number. -/
def digits : Nat → Nat → List Byte
  | 0, _ => []
  | fuel + 1, n => if n < 10 then [BitVec.ofNat 8 (48 + n)] else digits fuel (n / 10) ++ [BitVec.ofNat 8 (48 + n % 10)]

/-- A decimal integer, negative values with a leading `-` (R318). -/
def decimal (v : Int) : List Byte :=
  (if v < 0 then [0x2d] else []) ++ digits (v.natAbs + 1) v.natAbs

/-- The line of a sample: five fields, tab-separated, one line feed (R318). -/
def SweepSample.line (x : SweepSample) : List Byte :=
  decimal x.lane ++ [0x09] ++ decimal x.bitSelect ++ [0x09] ++ decimal x.voltage ++ [0x09] ++ decimal x.phase
  ++ [0x09] ++ decimal x.counter ++ [0x0a]

/-- The bytes the sink has received, in emission order (R318, R319). -/
def State.sinkText (s : State) : List Byte := s.sink.flatMap SweepSample.line

/-! ### The meanings -/

/-- `CONFIGURE_BLOCK blk, params, pos, N` (R303). -/
def execConfigureBlock (blk : Blk) (coreParams : Fields) (pos n : Nat) (s : State) :
    Host.Outcome State Fault Refusal :=
  (configureBlock blk coreParams pos n s).deliver fun _ => .none

/-- `SWEEP_BLOCK blk, bitNumber, pos, N` (R308). -/
def execSweepBlock (blk : Blk) (bitNumber pos n : Nat) (s : State) : Host.Outcome State Fault Refusal :=
  (samplesResult s.sink.length (accept s.latched (sweepBlock blk bitNumber pos n s))).deliver .samples

/-- `SWEEP params` (R316). -/
def execSweep (p : SweepParams) (s : State) : Host.Outcome State Fault Refusal :=
  (samplesResult s.sink.length (sweep p s)).deliver .samples

end Sys2Proof.Machine
end

