-- ==== Sys2Proof/Machine/Dispatch.lean ====
section
/-! DEFINITION. One arm per instruction, each one call of its meaning. -/

namespace Sys2Proof.Machine

def exec (i : Instr) (s : State) : Host.Outcome State Fault Refusal :=
  match i with
  | .encCfg fields => Sys2Proof.Machine.execEncCfg fields s
  | .encCore fields => Sys2Proof.Machine.execEncCore fields s
  | .encChar fields => Sys2Proof.Machine.execEncChar fields s
  | .decCfg v => Sys2Proof.Machine.execDecCfg v s
  | .decCore v => Sys2Proof.Machine.execDecCore v s
  | .decChar v => Sys2Proof.Machine.execDecChar v s
  | .toWire v => Sys2Proof.Machine.execToWire v s
  | .padIr opcode pos n => Sys2Proof.Machine.execPadIr opcode pos n s
  | .padDr v blk pos n => Sys2Proof.Machine.execPadDr v blk pos n s
  | .tckCycle tms tdi => Sys2Proof.Machine.execTckCycle tms tdi s
  | .tmsWalk seq => Sys2Proof.Machine.execTmsWalk seq s
  | .tapReset => Sys2Proof.Machine.execTapReset s
  | .goIdle => Sys2Proof.Machine.execGoIdle s
  | .changeState name => Sys2Proof.Machine.execChangeState name s
  | .writeIr w => Sys2Proof.Machine.execWriteIr w s
  | .writeDr w => Sys2Proof.Machine.execWriteDr w s
  | .hwReset hw tapr => Sys2Proof.Machine.execHwReset hw tapr s
  | .openChannel connection => Sys2Proof.Machine.execOpenChannel connection s
  | .closeChannel => Sys2Proof.Machine.execCloseChannel s
  | .bbExpand cycles => Sys2Proof.Machine.execBbExpand cycles s
  | .bbXfer bytes => Sys2Proof.Machine.execBbXfer bytes s
  | .bbExtract rd first count => Sys2Proof.Machine.execBbExtract rd first count s
  | .select blk sel pos n => Sys2Proof.Machine.execSelect blk sel pos n s
  | .shift blk v pos n => Sys2Proof.Machine.execShift blk v pos n s
  | .transact blk sel v pos n => Sys2Proof.Machine.execTransact blk sel v pos n s
  | .parseReply reply blk pos n => Sys2Proof.Machine.execParseReply reply blk pos n s
  | .configureBlock blk coreParams pos n => Sys2Proof.Machine.execConfigureBlock blk coreParams pos n s
  | .sweepBlock blk bitNumber pos n => Sys2Proof.Machine.execSweepBlock blk bitNumber pos n s
  | .sweep p => Sys2Proof.Machine.execSweep p s
  | .sample r m o ti c => Sys2Proof.Machine.execSample r m o ti c s
  | .irFrame opcode pos n => Sys2Proof.Machine.execIrFrame opcode pos n s
  | .drFrame v blk pos n => Sys2Proof.Machine.execDrFrame v blk pos n s
  | .cfgImage image => Sys2Proof.Machine.execCfgImage image s
  | .coreImage image => Sys2Proof.Machine.execCoreImage image s
  | .charImage image => Sys2Proof.Machine.execCharImage image s
  | .replyFormat a => Sys2Proof.Machine.execReplyFormat a s
  | .bypassOpcode pos n => Sys2Proof.Machine.execBypassOpcode pos n s
  | .opcR0Configuration pos n => Sys2Proof.Machine.execOpcR0Configuration pos n s
  | .opcR0CoreInputs pos n => Sys2Proof.Machine.execOpcR0CoreInputs pos n s
  | .opcR0Readback pos n => Sys2Proof.Machine.execOpcR0Readback pos n s
  | .opcR1Configuration pos n => Sys2Proof.Machine.execOpcR1Configuration pos n s
  | .opcR1CoreInputs pos n => Sys2Proof.Machine.execOpcR1CoreInputs pos n s
  | .opcR1Readback pos n => Sys2Proof.Machine.execOpcR1Readback pos n s

end Sys2Proof.Machine
end

