-- ==== Sys2Proof/Machine/Step.lean ====
section
/-! DEFINITION. One step: the first command of the host's queue is read and run (R2, R9, R70). -/

namespace Sys2Proof.Machine

/-- One command runs to completion; with nothing queued the scan master waits and nothing changes (log entries 1,
21). The command's bytes leave the queue before it runs. -/
def step (s : State) : Host.Outcome State Fault Refusal :=
  match s.inbox with
  | [] => .next s
  | _ :: _ =>
    match decode s.inbox with
    | .error e => .refused (.undecodable e)
    | .ok (i, rest) => if i.wellFormed then exec i (s.setInbox rest) else .refused .illFormed

/-- `s` with the one command that a table word stands for queued, its operand bytes zero (log entry 2). -/
def State.withFetchWord (s : State) (nbits w : Nat) : State := s.setInbox (tableCommand nbits w)

end Sys2Proof.Machine
end

