-- ==== Sys2Proof/Safety.lean ====
section
/-! DEFINITION. The words claims use: live and consistent states, transports that answer in full, and the state such a
transport leaves. Nothing here is part of the machine. -/

namespace Sys2Proof.Machine

/-- The channel is open and no error is latched: the condition of R174. -/
abbrev State.Live (s : State) : Prop := s.err = .none ∧ s.chan = .opened

/-- Live, on the RAW backend. -/
abbrev State.RawLive (s : State) : Prop := s.Live ∧ s.params.backend = .raw

/-- Live, on the ENGINE backend. -/
abbrev State.EngineLive (s : State) : Prop := s.Live ∧ s.params.backend = .engine

/-- What holds between commands: a closed channel knows no TAP state and no selection (R188, R189), an error has
closed the channel (R340), without one no transaction is in progress (R22), and there is no selection where the TAP is
unknown or in Test-Logic-Reset (R26, R176). -/
abbrev State.Consistent (s : State) : Prop :=
  (s.chan = .closed → s.tap = .unknown ∧ s.curSel = none)
  ∧ (s.err ≠ .none → s.chan = .closed)
  ∧ (s.err = .none → s.phase = .idle)
  ∧ (s.tap = .unknown ∨ s.tap = .testLogicReset → s.curSel = none)

/-- A safe run's states: consistent, and no error latched. -/
abbrev State.Safe (s : State) : Prop := s.Consistent ∧ s.err = .none

/-- One exchange with the transport that goes well: a frame and the bytes read for it, or an engine call and its
answer. -/
inductive Exchange where
  | transfer (bytes : List Byte) (rd : List Byte)
  | call (c : EngineCall) (bits : Bits)
deriving DecidableEq, Repr

/-- The transport answers this exchange so in state `s`: it accepts every byte and returns `rd`, as many bytes as were
written (R58, R59); or the engine answers the call with `bits` (R64). -/
def Exchange.answered (s : State) : Exchange → Prop
  | .transfer bytes rd =>
    s.writeAnswer bytes = .accepted bytes.length
    ∧ rd.length = bytes.length
    ∧ State.readAnswer { s with tx := s.tx ++ bytes.map .byte, env := s.env.afterWrite } bytes.length = .returned rd
  | .call c bits => s.engineAnswer c = .done bits

/-- The histories and the transport's answers after an exchange; nothing else moves. -/
def Exchange.after (s : State) : Exchange → State
  | .transfer bytes rd =>
    { s with tx := s.tx ++ bytes.map .byte, rx := s.rx ++ rd.map .byte, env := s.env.afterWrite.afterRead }
  | .call c bits =>
    { s with tx := s.tx ++ [.call c], rx := s.rx ++ engineReply c bits, env := s.env.afterEngine }

/-- The transport answers these exchanges, one after another. -/
def Answers : State → List Exchange → Prop
  | _, [] => True
  | s, x :: xs => x.answered s ∧ Answers (x.after s) xs

/-- The histories and the transport's answers after these exchanges. -/
def afterAll (s : State) (xs : List Exchange) : State := xs.foldl Exchange.after s

/-- A walk from `t` passes through, or ends in, Test-Logic-Reset. -/
def visitsReset (t : TapState) (seq : Bits) : Bool :=
  (List.range seq.length).any fun k => decide (tapWalk t (seq.take (k + 1)) = .testLogicReset)

/-- The lines after a frame whose last cycle is `(tms, tdi)`: TCK rests high, RST inactive (R174, R224)
or, where there is no reset line, at the level it had (log entry 24). -/
def restingLines (s : State) (tms tdi : Bool) : Lines where
  tck := true
  tms := tms
  tdi := tdi
  rst := if s.params.hasRst then s.params.rstInactive else s.lines.rst

/-- The state after a whole frame that the transport answered in full: histories and answers as after the exchange,
`tap` moved along the walk, the lines at rest (R174). -/
def frameDone (s : State) (cycles : List (Bool × Bool)) (rd : List Byte) : State :=
  { Exchange.after s (.transfer (expandCycles s.params cycles) rd) with
    tap := tapWalk s.tap (cycles.map Prod.fst)
    curSel := if visitsReset s.tap (cycles.map Prod.fst) then none else s.curSel
    lines := restingLines s (cycles.getLastD (false, false)).1 (cycles.getLastD (false, false)).2 }

/-- The bits on TDO during `count` cycles of a frame from cycle `first` on: bit `PIN_TDO` of the read byte paired with
each cycle's TCK-high sample (R60, R232). -/
def tdoBits (p : Params) (rd : List Byte) (first count : Nat) : Bits :=
  (List.range count).map fun k => (rd.getD (2 * (first + k) + 1 + p.rxLag) 0).getLsbD p.pinTdo.val

/-- The lines after a frame that ends in Run-Test/Idle: TMS and TDI low on RAW; not maintained on ENGINE (R23). -/
def idleLines (s : State) : Lines :=
  match s.params.backend with
  | .raw => restingLines s false false
  | .engine => s.lines

/-! ### What the scan controller's commands exchange with the transport -/

/-- The cycles of a register write of `w` after the TMS values `before` of its preamble: TDI = 0 in the preamble and the
postamble `1, 0`, TMS = 1 with the last bit (R181 to R183). -/
def shiftCycles (before : Bits) (w : Bits) : List (Bool × Bool) :=
  before.map (fun tms => (tms, false)) ++ (List.range w.length).map (fun k => (decide (k + 1 = w.length), w.getD k false))
  ++ [(true, false), (false, false)]

/-- The exchange of an IR write of the wire frame `w`; `rd` is what comes back (discarded). -/
def irExchange (p : Params) (w : Bits) (rd : List Byte) (bits : Bits) : Exchange :=
  match p.backend with
  | .raw => .transfer (expandCycles p (shiftCycles [true, true, false, false] w)) rd
  | .engine => .call (.writeInstructionRegister w) bits

/-- The exchange of a DR write of the wire frame `w`. -/
def drExchange (p : Params) (w : Bits) (rd : List Byte) (bits : Bits) : Exchange :=
  match p.backend with
  | .raw => .transfer (expandCycles p (shiftCycles [true, false, false] w)) rd
  | .engine => .call (.writeDataRegister w) bits

/-- The reply a DR write of `count` bits returns from an exchange. -/
def Exchange.reply (p : Params) (count : Nat) : Exchange → Bits
  | .transfer _ rd => tdoBits p rd 3 count
  | .call _ bits => bits

/-- An exchange is a DR write of the wire frame `w`, answered with as many bits (R182). -/
def Exchange.isDr (p : Params) (w : Bits) (x : Exchange) : Prop :=
  ∃ rd bits, x = drExchange p w rd bits ∧ (p.backend = .engine → bits.length = w.length)

/-- An exchange is an IR write of the wire frame `w`. -/
def Exchange.isIr (p : Params) (w : Bits) (x : Exchange) : Prop :=
  ∃ rd bits, x = irExchange p w rd bits

/-- The exchanges are those of `TAP_RESET`: one frame of the cycles with TMS = 1,1,1,1,1,0 on RAW, two calls on ENGINE
(R178, R185). -/
def areTapReset (p : Params) (xs : List Exchange) : Prop :=
  match p.backend with
  | .raw => ∃ rd, xs = [.transfer (expandCycles p
      [(true, false), (true, false), (true, false), (true, false), (true, false), (false, false)]) rd]
  | .engine => ∃ b1 b2, xs = [.call .resetTAP b1, .call .goIdle b2]

/-- The exchanges are those of the four steps of a transaction (R256). -/
def areTransact (p : Params) (blk : Blk) (sel : Sel) (v : Bits) (pos n : Nat) (xs : List Exchange) : Prop :=
  ∃ x1 x2 xs3 x4, xs = x1 :: x2 :: (xs3 ++ [x4])
    ∧ x1.isIr p (irFrameWire p (opcode p blk sel) pos n)
    ∧ x2.isDr p (drFrameWire v blk pos n)
    ∧ areTapReset p xs3
    ∧ x4.isIr p (irFrameWire p (opcode p blk sel) pos n)

/-- The exchanges are those of the three transactions of `CONFIGURE_BLOCK` (R303), with these three images. -/
def areConfigure (p : Params) (blk : Blk) (v1 v2 v3 : Bits) (pos n : Nat) (xs : List Exchange) : Prop :=
  ∃ xs1 xs2 xs3, xs = xs1 ++ xs2 ++ xs3
    ∧ areTransact p blk .configuration v1 pos n xs1
    ∧ areTransact p blk .configuration v2 pos n xs2
    ∧ areTransact p blk .coreInputs v3 pos n xs3

/-- The image `DIAG(V, b, P)` of R312, written out: in every lane `P`, `b` and `V` in their fields, the template in the
others. -/
def diagImage (p : Params) (v : Int) (b : Nat) (ph : Int) : Bits :=
  let t := fun name w (i : Nat) => be w (fieldValue p.diagTemplate ⟨name, some i⟩)
  let lane := fun i => t .testfail 1 i ++ t .ecount 12 i ++ t .esword 8 i ++ t .es 4 i
    ++ be 7 ph ++ be 5 (b : Int) ++ be 6 v
    ++ t .voltageOffsetOverride 1 i ++ t .scanLen 2 i ++ t .scanRun 1 i ++ t .scanDone 1 i
  [false, false] ++ lane 0 ++ lane 1 ++ lane 2 ++ lane 3 ++ [false]

/-- The four samples that a reply at `(V, b, P)` yields, lane by lane, the counters as `PARSE_REPLY` reads them (R313,
R314). -/
def samplesIn (p : Params) (reply : Bits) (blk : Blk) (v : Int) (b : Nat) (ph : Int) (pos n : Nat) :
    List SweepSample :=
  (List.range 4).map fun i =>
    { lane := (if blk = .r0 then 0 else 4) + i, bitSelect := b, voltage := v, phase := ph,
      counter := laneCounter (alignedReply p reply blk pos n) i }

/-- The exchanges are the data shifts of `DIAG(V, b, P)` for these phases, in order, and their replies hold these
samples (R311, R313). -/
def areReads (p : Params) (blk : Blk) (v : Int) (b pos n : Nat) :
    List Int → List Exchange → List SweepSample → Prop
  | [], xs, ss => xs = [] ∧ ss = []
  | ph :: more, xs, ss =>
    ∃ x xs' ss', xs = x :: xs'
      ∧ ss = samplesIn p (x.reply p (drFrameWire (diagImage p v b ph) blk pos n).length) blk v b ph pos n ++ ss'
      ∧ x.isDr p (drFrameWire (diagImage p v b ph) blk pos n) ∧ areReads p blk v b pos n more xs' ss'

/-- The exchanges are those of one `(V, b)` pair: a select, the priming read, one read a phase, from 15 down to -16
(R308, R311). -/
def arePair (p : Params) (blk : Blk) (v : Int) (pos n b : Nat) (xs : List Exchange) (ss : List SweepSample) : Prop :=
  ∃ x y xs', xs = x :: y :: xs' ∧ x.isIr p (irFrameWire p (opcode p blk .readback) pos n)
    ∧ y.isDr p (drFrameWire (diagImage p v b 0) blk pos n) ∧ areReads p blk v b pos n
      ((List.range 32).map fun (k : Nat) => (15 : Int) - k) xs' ss

/-- The exchanges are those of one operation for each element, in order, and the samples those they yield. -/
def areEach {α : Type} (each : α → List Exchange → List SweepSample → Prop) :
    List α → List Exchange → List SweepSample → Prop
  | [], xs, ss => xs = [] ∧ ss = []
  | a :: more, xs, ss =>
    ∃ xs1 xs2 ss1 ss2, xs = xs1 ++ xs2 ∧ ss = ss1 ++ ss2 ∧ each a xs1 ss1 ∧ areEach each more xs2 ss2

/-- The exchanges are those of `SWEEP_BLOCK`, for the voltages from 31 down to -32 and within each for every bit-select,
and these the samples their replies hold (R306 to R308). -/
def areSweepBlock (p : Params) (blk : Blk) (bitNumber pos n : Nat) (xs : List Exchange) (ss : List SweepSample) :
    Prop :=
  areEach (fun v => areEach (fun b => arePair p blk v pos n b) (List.range bitNumber))
    ((List.range 64).map fun (k : Nat) => (31 : Int) - k) xs ss

/-- The image of `WE_SET`, written out: the core and char enables of the head, the lanes and the tail (R304). -/
def weImage : Bits :=
  let lane := [true, false, false, true, false]
  [false, false, true] ++ lane ++ lane ++ lane ++ lane ++ [true, false, false, false]

/-- The exchanges are those of one block of a sweep (R316). -/
def areBlock (p : Params) (coreParams : Fields) (bitNumber pos n : Nat) (blk : Blk) (xs : List Exchange)
    (ss : List SweepSample) : Prop :=
  ∃ v3 xs1 xs2, encodeCore p coreParams = .ok v3 ∧ xs = xs1 ++ xs2
    ∧ areConfigure p blk (List.replicate 27 false) weImage v3 pos n xs1 ∧ areSweepBlock p blk bitNumber pos n xs2 ss

/-- The exchanges of an engine call that only the ENGINE backend makes. -/
def areEngineOnly (p : Params) (c : EngineCall) (xs : List Exchange) : Prop :=
  match p.backend with
  | .raw => xs = []
  | .engine => ∃ bits, xs = [.call c bits]

/-- The exchanges are those of a whole sweep up to its `CLOSE`, and these the samples their replies hold (R316). -/
def areSweep (p : Params) (coreParams : Fields) (q : SweepParams) (xs : List Exchange) (ss : List SweepSample) : Prop :=
  ∃ xs1 xs2 xs3, xs = xs1 ++ xs2 ++ xs3
    ∧ areEngineOnly p (.configure q.connection) xs1
    ∧ areTapReset p xs2
    ∧ areEach (areBlock p coreParams q.bitNumber q.pos q.n) [.r0, .r1] xs3 ss

/-- `CORE_PARAMS` for a test pattern, written out (R305): the four lane numbers that go with the pattern, or its value for
the test-pattern field of every lane, before the rest of the record. -/
def isCoreParams (p : Params) (testPattern : Nat) (fs : Fields) : Prop :=
  match p.testPatterns with
  | .ready members => ∃ l, (testPattern, l) ∈ members
      ∧ fs = [(⟨.laneCtl, some 0⟩, (l.lane0.toNat : Int)), (⟨.laneCtl, some 1⟩, (l.lane1.toNat : Int)),
          (⟨.laneCtl, some 2⟩, (l.lane2.toNat : Int)), (⟨.laneCtl, some 3⟩, (l.lane3.toNat : Int))] ++ p.coreParams
  | .byField f members => ∃ v, (testPattern, v) ∈ members
      ∧ fs = [(⟨.other f, some 0⟩, v), (⟨.other f, some 1⟩, v), (⟨.other f, some 2⟩, v), (⟨.other f, some 3⟩, v)]
          ++ p.coreParams

/-- What a sample says besides its counter (R315). -/
def SweepSample.place (x : SweepSample) : Nat × Nat × Int × Int := (x.lane, x.bitSelect, x.voltage, x.phase)

/-- The places of the samples of a block: voltages from 31 down to -32, bit-selects from 0 up, phases from 15 down to -16,
lanes from the block's first up (R306 to R314). -/
def blockPlaces (blk : Blk) (bitNumber : Nat) : List (Nat × Nat × Int × Int) :=
  ((List.range 64).map fun (k : Nat) => (31 : Int) - k).flatMap fun v =>
    (List.range bitNumber).flatMap fun b =>
      ((List.range 32).map fun (k : Nat) => (15 : Int) - k).flatMap fun ph =>
        (List.range 4).map fun i => ((if blk = .r0 then 0 else 4) + i, b, v, ph)

/-- A sample lies in the ranges of R315 that no operand sets: lane, voltage, phase and counter. -/
def SweepSample.inRange (x : SweepSample) : Prop :=
  x.lane ≤ 7 ∧ -32 ≤ x.voltage ∧ x.voltage ≤ 31 ∧ -16 ≤ x.phase ∧ x.phase ≤ 15 ∧ x.counter ≤ 4095

/-- The replies of a block's data shifts against `Readback` are long enough for `PARSE_REPLY` (R284). -/
def repliesFit (p : Params) (blk : Blk) (pos n : Nat) : Prop :=
  replyLead p blk pos n + windowsEnd ≤ n - 1 + selLength .readback - trim blk

/-! ### Aborts -/

/-- The transport answers the call `close` of a release, well or with a failure (R189, R385). -/
def closeHeard (s : State) : Prop :=
  s.chan = .opened → s.params.backend = .engine → s.engineAnswer .close ≠ .silent

/-- The release of R189: an open channel is closed, nothing is tracked; on ENGINE the call is in the history. -/
def released (s : State) : State :=
  match s.chan, s.params.backend with
  | .closed, _ => s
  | .opened, .raw => { s with chan := .closed, tap := .unknown, curSel := none }
  | .opened, .engine =>
    { s with chan := .closed, tap := .unknown, curSel := none, tx := s.tx ++ [.call .close],
             env := s.env.afterEngine }

/-- The state after an abort with `e`: latched, released, no result (R340, R341). -/
def aborted (s : State) (e : Err) : State := { released s with err := e, result := .none }

/-! ### The data bits of a frame -/

/-- The levels on TDI during `count` cycles of a byte frame from cycle `first` on, as the chain samples them at the
rising edge: bit `PIN_TDI` of each cycle's TCK-high sample (R223). -/
def tdiBits (p : Params) (frame : List TxItem) (first count : Nat) : Bits :=
  (List.range count).map fun k =>
    match frame[2 * (first + k) + 1]? with
    | some (.byte b) => b.getLsbD p.pinTdi.val
    | _ => false

/-! ### Kinds of command -/

/-- The row of the target's opcode table that selects `sel` of `blk` (R100). -/
def opcRow (pos n : Nat) : Blk → Sel → Instr
  | .r0, .configuration => .opcR0Configuration pos n
  | .r0, .coreInputs => .opcR0CoreInputs pos n
  | .r0, .readback => .opcR0Readback pos n
  | .r1, .configuration => .opcR1Configuration pos n
  | .r1, .coreInputs => .opcR1CoreInputs pos n
  | .r1, .readback => .opcR1Readback pos n

/-- The commands accepted while an error is latched: those that touch no state and cannot raise, and `CLOSE` (R342);
among the format rows, those whose commands are (log entry 12). -/
def acceptedAfterError : Instr → Bool
  | .encCfg _ => true
  | .encCore _ => true
  | .encChar _ => true
  | .decCfg _ => true
  | .decCore _ => true
  | .decChar _ => true
  | .toWire _ => true
  | .padIr _ _ _ => false
  | .padDr _ _ _ _ => false
  | .tckCycle _ _ => false
  | .tmsWalk _ => false
  | .tapReset => false
  | .goIdle => false
  | .changeState _ => false
  | .writeIr _ => false
  | .writeDr _ => false
  | .hwReset _ _ => false
  | .openChannel _ => false
  | .closeChannel => true
  | .bbExpand _ => true
  | .bbXfer _ => false
  | .bbExtract _ _ _ => true
  | .select _ _ _ _ => false
  | .shift _ _ _ _ => false
  | .transact _ _ _ _ _ => false
  | .parseReply _ _ _ _ => false
  | .configureBlock _ _ _ _ => false
  | .sweepBlock _ _ _ _ => false
  | .sweep _ => false
  | .sample _ _ _ _ _ => true
  | .irFrame _ _ _ => false
  | .drFrame _ _ _ _ => false
  | .cfgImage _ => true
  | .coreImage _ => true
  | .charImage _ => true
  | .replyFormat _ => false
  | .bypassOpcode _ _ => false
  | .opcR0Configuration _ _ => false
  | .opcR0CoreInputs _ _ => false
  | .opcR0Readback _ _ => false
  | .opcR1Configuration _ _ => false
  | .opcR1CoreInputs _ _ => false
  | .opcR1Readback _ _ => false

/-- The commands of files 42 to 44 but `OPEN` and `CLOSE` (R189), the opcode rows and `CONFIGURE_BLOCK`, which expand
into them. -/
def needsChannel : Instr → Bool
  | .encCfg _ => false
  | .encCore _ => false
  | .encChar _ => false
  | .decCfg _ => false
  | .decCore _ => false
  | .decChar _ => false
  | .toWire _ => false
  | .padIr _ _ _ => false
  | .padDr _ _ _ _ => false
  | .tckCycle _ _ => true
  | .tmsWalk _ => true
  | .tapReset => true
  | .goIdle => true
  | .changeState _ => true
  | .writeIr _ => true
  | .writeDr _ => true
  | .hwReset _ _ => true
  | .openChannel _ => false
  | .closeChannel => false
  | .bbExpand _ => true
  | .bbXfer _ => true
  | .bbExtract _ _ _ => true
  | .select _ _ _ _ => true
  | .shift _ _ _ _ => true
  | .transact _ _ _ _ _ => true
  | .parseReply _ _ _ _ => false
  | .configureBlock _ _ _ _ => true
  | .sweepBlock _ _ _ _ => false
  | .sweep _ => false
  | .sample _ _ _ _ _ => false
  | .irFrame _ _ _ => false
  | .drFrame _ _ _ _ => false
  | .cfgImage _ => false
  | .coreImage _ => false
  | .charImage _ => false
  | .replyFormat _ => false
  | .bypassOpcode _ _ => true
  | .opcR0Configuration _ _ => true
  | .opcR0CoreInputs _ _ => true
  | .opcR0Readback _ _ => true
  | .opcR1Configuration _ _ => true
  | .opcR1CoreInputs _ _ => true
  | .opcR1Readback _ _ => true

/-- The bit-selects a command sweeps over: its samples' are below (R307, R315). A command without an operand `bitNumber`
emits no sample. -/
def bitNumberOf : Instr → Nat
  | .encCfg _ => 0
  | .encCore _ => 0
  | .encChar _ => 0
  | .decCfg _ => 0
  | .decCore _ => 0
  | .decChar _ => 0
  | .toWire _ => 0
  | .padIr _ _ _ => 0
  | .padDr _ _ _ _ => 0
  | .tckCycle _ _ => 0
  | .tmsWalk _ => 0
  | .tapReset => 0
  | .goIdle => 0
  | .changeState _ => 0
  | .writeIr _ => 0
  | .writeDr _ => 0
  | .hwReset _ _ => 0
  | .openChannel _ => 0
  | .closeChannel => 0
  | .bbExpand _ => 0
  | .bbXfer _ => 0
  | .bbExtract _ _ _ => 0
  | .select _ _ _ _ => 0
  | .shift _ _ _ _ => 0
  | .transact _ _ _ _ _ => 0
  | .parseReply _ _ _ _ => 0
  | .configureBlock _ _ _ _ => 0
  | .sweepBlock _ bitNumber _ _ => bitNumber
  | .sweep p => p.bitNumber
  | .sample _ _ _ _ _ => 0
  | .irFrame _ _ _ => 0
  | .drFrame _ _ _ _ => 0
  | .cfgImage _ => 0
  | .coreImage _ => 0
  | .charImage _ => 0
  | .replyFormat _ => 0
  | .bypassOpcode _ _ => 0
  | .opcR0Configuration _ _ => 0
  | .opcR0CoreInputs _ _ => 0
  | .opcR0Readback _ _ => 0
  | .opcR1Configuration _ _ => 0
  | .opcR1CoreInputs _ _ => 0
  | .opcR1Readback _ _ => 0

/-! ### Masking -/

/-- The declared width of a field of an image, or of a name of `LANE_CTL_LAYOUT`. -/
def fieldWidth (p : Params) (layout : List Slot) (key : FieldKey) : Option Nat :=
  match layout.find? (fun s => decide (s.key = key)) with
  | some s => some s.width
  | none =>
    match key.name with
    | .other m => (p.laneLayout.find? fun nw => decide (nw.1 = m)).map Prod.snd
    | _ => none

/-- The field map with every value reduced modulo 2 to its declared width (R121). -/
def reduced (p : Params) (layout : List Slot) (fs : Fields) : Fields :=
  fs.map fun kv =>
    (kv.1, match fieldWidth p layout kv.1 with
      | some w => kv.2 % ((2 ^ w : Nat) : Int)
      | none => kv.2)

end Sys2Proof.Machine
end

