-- ==== Sys2Proof/Certificates/Slice0/Obligations.lean ====
section
/-! DEFINITION. The statements for the provers, in the order of OBLIGATIONS.json. A next state written as a record over
`s` is the instruction's whole frame: every field it does not name is unchanged. -/

open Sys2Proof Sys2Proof.Machine

/-! ### Encoding and the step -/

/-- Every well-formed command is read back from its bytes, whatever follows it in the queue. The byte form is the
model's choice (log entry 1). -/
def Obligations.DecodeEncodeRoundTrip : Prop :=
  ∀ (i : Instr) (rest : List Byte), i.wellFormed = true → decode (encode i ++ rest) = .ok (i, rest)

/-- Words written out from the codes of R108 are read as the commands they stand for; so are a bare SAMPLE byte, whose
pattern is R81's and whose reading as a command is the model's choice (log entry 27), and a BYPASS_OPCODE, whose code
0x90 is the model's (log entry 1). The operand bytes are the model's choice throughout (log entry 1). -/
def Obligations.DecodedWords : Prop :=
  decode [0x32] = .ok (.tapReset, [])
  ∧ decode [0x33, 0x39] = .ok (.goIdle, [0x39])
  ∧ decode [0x30, 1, 0] = .ok (.tckCycle true false, [])
  ∧ decode [0x18, 4, 0, 0, 1, 1] = .ok (.toWire [false, false, true, true], [])
  ∧ decode [0x20, 4, 0, 0, 1, 0, 2, 3] = .ok (.padIr [false, false, true, false] 2 3, [])
  ∧ decode [0x40, 2, 1, 0, 0, 1] = .ok (.bbExpand [(true, false), (false, true)], [])
  ∧ decode [0x50, 0, 2, 1, 2] = .ok (.select .r0 .readback 1 2, [])
  ∧ decode [0x60, 1, 1, 1, 1, 1] = .ok (.parseReply [true] .r1 1 1, [])
  ∧ decode [0x71, 0, 1, 1, 1] = .ok (.sweepBlock .r0 1 1 1, [])
  ∧ decode [0x19] = .ok (.sample true true false false true, [])
  ∧ decode [0x90, 1, 3] = .ok (.bypassOpcode 1 3, [])

/-- A step runs the first command of the queue, in the state that has the rest of the queue; with nothing queued
nothing changes (log entries 1 and 21). -/
def Obligations.StepRunsDecoded : Prop :=
  (∀ (s : State) (i : Instr) (rest : List Byte), decode s.inbox = .ok (i, rest) → i.wellFormed = true →
      step s = exec i { s with inbox := rest })
  ∧ (∀ s : State, s.inbox = [] → step s = .next s)

/-! ### The register codec -/

/-- `ENC_CFG`: the 27 bits, field by field; refused only for an unknown name (R123). -/
def Obligations.EncCfgImage : Prop :=
  ∀ (fs : Fields) (s : State),
    let f := fun name => be 1 (fieldValue fs ⟨name, none⟩)
    let g := fun name (i : Nat) => be 1 (fieldValue fs ⟨name, some i⟩)
    let lane := fun i => g .coreWe i ++ g .tuningWe i ++ g .debugWe i ++ g .charWe i ++ g .unshadowedWe i
    let v := [false, false] ++ f .coreWeHead ++ lane 0 ++ lane 1 ++ lane 2 ++ lane 3
      ++ f .coreWeTail ++ f .tuningWeTail ++ f .debugWeTail ++ [false]
    v.length = 27
    ∧ exec (.encCfg fs) s
      = if namesOnly (fieldKeys cfgLayout) fs then .next { s with result := .bits v } else .refused .unknownField

/-- `ENC_CORE`: the 133 bits, each lane's 26 given ready or composed from the names of `LANE_CTL_LAYOUT` (R124). A lane
given both ways has a free value by the model's choice (log entry 17). -/
def Obligations.EncCoreImage : Prop :=
  ∀ (fs : Fields) (s : State), s.params.wf = true →
    let f := fun name w => be w (fieldValue fs ⟨name, none⟩)
    let lane := fun i =>
      match fieldValue? fs ⟨.laneCtl, some i⟩ with
      | some v =>
        if laneTwice s.params fs i then
          be 26 (Config.laneGivenTwice (BitVec.ofInt 26 v)
            (BitVec.ofNat 26 (ube (laneLayoutBits s.params fs i)))).toNat
        else be 26 v
      | none =>
        if s.params.laneLayout = [] then be 26 0
        else s.params.laneLayout.flatMap fun nw => be nw.2 (fieldValue fs ⟨.other nw.1, some i⟩)
    let v := [false, false] ++ f .enpll 1 ++ f .mpy 8 ++ f .vrange 1 ++ f .endivclk 1 ++ f .lb 2
      ++ lane 0 ++ lane 1 ++ lane 2 ++ lane 3
      ++ f .clkbyp 2 ++ f .sleeppll 1 ++ [false] ++ f .lock 1 ++ f .bsinitclk 1
      ++ f .enbstx 1 ++ f .enbsrx 1 ++ f .enbspt 1 ++ [false]
      ++ f .nearlock 1 ++ f .unlock 1 ++ f .cfgOvr 1 ++ [false]
    v.length = 133
    ∧ exec (.encCore fs) s
      = if namesOnly (coreKeys s.params) fs then .next { s with result := .bits v } else .refused .unknownField

/-- `ENC_CHAR`: the 195 bits, field by field (R125). -/
def Obligations.EncCharImage : Prop :=
  ∀ (fs : Fields) (s : State), namesOnly (fieldKeys charLayout) fs = true →
    let g := fun name w (i : Nat) => be w (fieldValue fs ⟨name, some i⟩)
    let lane := fun i => g .testfail 1 i ++ g .ecount 12 i ++ g .esword 8 i ++ g .es 4 i ++ g .phaseOffset 7 i
      ++ g .bitSelect 5 i ++ g .voltageOffset 6 i ++ g .voltageOffsetOverride 1 i ++ g .scanLen 2 i
      ++ g .scanRun 1 i ++ g .scanDone 1 i
    let v := [false, false] ++ lane 0 ++ lane 1 ++ lane 2 ++ lane 3 ++ [false]
    (∀ i, (lane i).length = 48)
    ∧ v.length = 195
    ∧ exec (.encChar fs) s = .next { s with result := .bits v }

/-- An encoder's image has its variant's length, whatever the fields (R126). -/
def Obligations.FixedLength : Prop :=
  ∀ (fs : Fields) (s t : State),
    (exec (.encCfg fs) s = .next t → ∃ v, t.result = .bits v ∧ v.length = 27)
    ∧ (exec (.encCore fs) s = .next t → ∃ v, t.result = .bits v ∧ v.length = 133)
    ∧ (exec (.encChar fs) s = .next t → ∃ v, t.result = .bits v ∧ v.length = 195)

/-- Encoding a value gives the bits of encoding it modulo 2 to its field's width, in all three images (R121). -/
def Obligations.Masking : Prop :=
  ∀ (fs : Fields) (s : State),
    exec (.encCfg (reduced s.params cfgLayout fs)) s = exec (.encCfg fs) s
    ∧ exec (.encChar (reduced s.params charLayout fs)) s = exec (.encChar fs) s
    ∧ (s.params.wf = true → exec (.encCore (reduced s.params coreLayout fs)) s = exec (.encCore fs) s)

/-- `DEC_CFG`: every field is the bit at its index, the guards reported beside them; another length is refused
(R84, R127). -/
def Obligations.DecCfgFields : Prop :=
  ∀ (v : Bits) (s : State),
    (v.length ≠ 27 → exec (.decCfg v) s = .refused .wrongLength)
    ∧ (v.length = 27 →
      let bit := fun i => bitValue (bitAt v i)
      exec (.decCfg v) s = .next { s with result := .fields (
        [(⟨.guardHead, none⟩, (ube (slice v 0 2) : Int)), (⟨.coreWeHead, none⟩, bit 2)]
        ++ (List.range 4).flatMap (fun i =>
          [(⟨.coreWe, some i⟩, bit (3 + 5 * i)), (⟨.tuningWe, some i⟩, bit (4 + 5 * i)),
           (⟨.debugWe, some i⟩, bit (5 + 5 * i)), (⟨.charWe, some i⟩, bit (6 + 5 * i)),
           (⟨.unshadowedWe, some i⟩, bit (7 + 5 * i))])
        ++ [(⟨.coreWeTail, none⟩, bit 23), (⟨.tuningWeTail, none⟩, bit 24), (⟨.debugWeTail, none⟩, bit 25),
            (⟨.guardTail, none⟩, bit 26)]) })

/-- `DEC_CORE`: every field read at its index; another length is refused (R128). -/
def Obligations.DecCoreFields : Prop :=
  ∀ (v : Bits) (s : State),
    (v.length ≠ 133 → exec (.decCore v) s = .refused .wrongLength)
    ∧ (v.length = 133 →
      let bit := fun i => bitValue (bitAt v i)
      let word := fun i w => (ube (slice v i w) : Int)
      exec (.decCore v) s = .next { s with result := .fields (
        [(⟨.guardHead, none⟩, word 0 2), (⟨.enpll, none⟩, bit 2), (⟨.mpy, none⟩, word 3 8), (⟨.vrange, none⟩, bit 11),
         (⟨.endivclk, none⟩, bit 12), (⟨.lb, none⟩, word 13 2)]
        ++ (List.range 4).map (fun i => (⟨.laneCtl, some i⟩, word (15 + 26 * i) 26))
        ++ [(⟨.clkbyp, none⟩, word 119 2), (⟨.sleeppll, none⟩, bit 121), (⟨.reserved0, none⟩, bit 122),
            (⟨.lock, none⟩, bit 123), (⟨.bsinitclk, none⟩, bit 124), (⟨.enbstx, none⟩, bit 125),
            (⟨.enbsrx, none⟩, bit 126), (⟨.enbspt, none⟩, bit 127), (⟨.reserved1, none⟩, bit 128),
            (⟨.nearlock, none⟩, bit 129), (⟨.unlock, none⟩, bit 130), (⟨.cfgOvr, none⟩, bit 131),
            (⟨.guardTail, none⟩, bit 132)]) })

/-- `DEC_CHAR`: every field of lane `i` read at its index from `2 + 48 i` on; another length is refused (R129). -/
def Obligations.DecCharFields : Prop :=
  ∀ (v : Bits) (s : State),
    (v.length ≠ 195 → exec (.decChar v) s = .refused .wrongLength)
    ∧ (v.length = 195 →
      let bit := fun i => bitValue (bitAt v i)
      let word := fun i w => (ube (slice v i w) : Int)
      exec (.decChar v) s = .next { s with result := .fields (
        [(⟨.guardHead, none⟩, word 0 2)]
        ++ (List.range 4).flatMap (fun i =>
          [(⟨.testfail, some i⟩, bit (2 + 48 * i)), (⟨.ecount, some i⟩, word (3 + 48 * i) 12),
           (⟨.esword, some i⟩, word (15 + 48 * i) 8), (⟨.es, some i⟩, word (23 + 48 * i) 4),
           (⟨.phaseOffset, some i⟩, word (27 + 48 * i) 7), (⟨.bitSelect, some i⟩, word (34 + 48 * i) 5),
           (⟨.voltageOffset, some i⟩, word (39 + 48 * i) 6), (⟨.voltageOffsetOverride, some i⟩, bit (45 + 48 * i)),
           (⟨.scanLen, some i⟩, word (46 + 48 * i) 2), (⟨.scanRun, some i⟩, bit (48 + 48 * i)),
           (⟨.scanDone, some i⟩, bit (49 + 48 * i))])
        ++ [(⟨.guardTail, none⟩, bit 194)]) })

/-- The encoders refuse a field name that their image does not have (R122). -/
def Obligations.UnknownFieldRefused : Prop :=
  ∀ (fs : Fields) (s : State),
    ((∃ kv ∈ fs, kv.1 ∉ fieldKeys cfgLayout) → exec (.encCfg fs) s = .refused .unknownField)
    ∧ ((∃ kv ∈ fs, kv.1 ∉ coreKeys s.params) → exec (.encCore fs) s = .refused .unknownField)
    ∧ ((∃ kv ∈ fs, kv.1 ∉ fieldKeys charLayout) → exec (.encChar fs) s = .refused .unknownField)

/-- `TO_WIRE` reverses, and turns a wire vector back into the natural one (R130). -/
def Obligations.ToWireReverses : Prop :=
  ∀ (v : Bits) (s : State),
    exec (.toWire v) s = .next { s with result := .bits v.reverse }
    ∧ exec (.toWire v.reverse) s = .next { s with result := .bits v }

/-- Decoding an encoded image gives every field modulo 2 to its width, and 0 for the guards and reserved bits; two
reversals in between change nothing (R131). -/
def Obligations.CodecRoundTrip : Prop :=
  ∀ (fs : Fields) (s : State),
    let back := fun (value : FieldKey → Int) (layout : List Slot) =>
      layout.map fun
        | .zero k _ => (k, (0 : Int))
        | .field k w => (k, value k % ((2 ^ w : Nat) : Int))
    let decodes := fun (i : Instr) (dec : Bits → Instr) (out : Fields) =>
      ∀ t, exec i s = .next t → ∃ v, t.result = .bits v
        ∧ exec (dec v) t = .next { t with result := .fields out }
        ∧ exec (dec v.reverse.reverse) t = .next { t with result := .fields out }
    decodes (.encCfg fs) .decCfg (back (fieldValue fs) cfgLayout)
    ∧ decodes (.encCore fs) .decCore (back (coreValue s.params fs) coreLayout)
    ∧ decodes (.encChar fs) .decChar (back (fieldValue fs) charLayout)

/-! ### The formats -/

/-- A word of CFG, CORE or CHAR is the image that the encoder makes of its fields; guards and reserved bits are 0, and
the fields read at their indices are the word's (R84 to R86, R101; the rows as instructions: log entry 3). -/
def Obligations.FormatImages : Prop :=
  (∀ (x : CfgImage) (s : State),
      exec (.cfgImage x) s = .next { s with result := .bits (cfgImageBits x) }
      ∧ exec (.encCfg (cfgImageFields x)) s = exec (.cfgImage x) s
      ∧ (cfgImageBits x).length = 27 ∧ zerosHold cfgLayout (cfgImageBits x) = true
      ∧ cfgImageOf (cfgImageBits x) = x)
  ∧ (∀ (x : CoreImage) (s : State),
      exec (.coreImage x) s = .next { s with result := .bits (coreImageBits x) }
      ∧ exec (.encCore (coreImageFields x)) s = exec (.coreImage x) s
      ∧ (coreImageBits x).length = 133 ∧ zerosHold coreLayout (coreImageBits x) = true
      ∧ coreImageOf (coreImageBits x) = x)
  ∧ (∀ (x : CharImage) (s : State),
      exec (.charImage x) s = .next { s with result := .bits (charImageBits x) }
      ∧ exec (.encChar (charImageFields x)) s = exec (.charImage x) s
      ∧ (charImageBits x).length = 195 ∧ zerosHold charLayout (charImageBits x) = true
      ∧ charImageOf (charImageBits x) = x)

/-- `SAMPLE`: each level stands at its pin, the reset level only where a reset line exists, every other bit is 0 (R81).
Model's choices: the row as an instruction, with the TDO level at its pin (log entry 3), run in every state, on ENGINE, with the channel closed and after
an error (log entry 30). -/
def Obligations.SampleBits : Prop :=
  ∀ (r m o i c : Bool) (s : State), s.params.wf = true →
    ∃ b : Byte, exec (.sample r m o i c) s = .next { s with result := .bytes [b] }
      ∧ ∀ k : Fin 8, b.getLsbD k.val =
        if k = s.params.pinTck then c
        else if k = s.params.pinTms then m
        else if k = s.params.pinTdi then i
        else if k = s.params.pinTdo then o
        else if k = s.params.pinRst then s.params.hasRst && r
        else false

/-! ### The daisy chain -/

/-- `PAD_IR`: the frame, its length, the refusal of another opcode width, the abort on an invalid position (R153). That the
refusal comes first is the model's reading, R335 and D32 against R153's pseudocode (log entry
11), and so is that any opcode of the width is taken (log entry 37). -/
def Obligations.PadIrFrame : Prop :=
  ∀ (op : Bits) (pos n : Nat) (s : State), s.err = .none → closeHeard s →
    let natural := rep (bypassBits s.params) (n - pos) ++ op ++ rep (bypassBits s.params) (pos - 1)
    if op.length ≠ s.params.irLen then exec (.padIr op pos n) s = .refused .wrongOpcodeWidth
    else if n < 1 ∨ pos < 1 ∨ n < pos then
      exec (.padIr op pos n) s = .next (aborted s (.configurationError (.position pos n)))
    else exec (.padIr op pos n) s = .next { s with result := .bits natural.reverse }
      ∧ natural.length = n * s.params.irLen

/-- `PAD_DR`: the frame, its length, the refusal of a vector too short, the abort on an invalid position (R157). Model's
readings: the refusal comes first, R335 and D32 against R157's pseudocode (log entry 11); a 1 of `v` in a guard or reserved
position goes into the frame (log entry 36). -/
def Obligations.PadDrFrame : Prop :=
  ∀ (v : Bits) (blk : Blk) (pos n : Nat) (s : State), s.err = .none → closeHeard s →
    let natural := rep [false] (n - pos) ++ dropLast v (trim blk) ++ rep [false] (pos - 1)
    if v.length ≤ trim blk then exec (.padDr v blk pos n) s = .refused .vectorTooShort
    else if n < 1 ∨ pos < 1 ∨ n < pos then
      exec (.padDr v blk pos n) s = .next (aborted s (.configurationError (.position pos n)))
    else exec (.padDr v blk pos n) s = .next { s with result := .bits natural.reverse }
      ∧ natural.length = n - 1 + v.length - trim blk

/-- The format rows IRFRAME and DRFRAME deliver the frame of their fields: in natural orientation the addressed
device's slot stands after `N - pos` others (R82, R83; the rows as instructions: log entry 3; any opcode of the width and any
vector, guards included: log entries 37 and 36). -/
def Obligations.FrameFormats : Prop :=
  ∀ (op v : Bits) (blk : Blk) (pos n : Nat) (s : State), s.err = .none → 1 ≤ pos → pos ≤ n →
    (op.length = s.params.irLen → ∃ w : Bits,
      exec (.irFrame op pos n) s = .next { s with result := .bits w } ∧ w.length = n * s.params.irLen
      ∧ ∀ k, k < n → slice w.reverse (k * s.params.irLen) s.params.irLen
          = if k = n - pos then op else bypassBits s.params)
    ∧ (trim blk < v.length → ∃ w : Bits,
      exec (.drFrame v blk pos n) s = .next { s with result := .bits w } ∧ w.length = n - 1 + v.length - trim blk
      ∧ slice w.reverse 0 (n - pos) = List.replicate (n - pos) false
      ∧ slice w.reverse (n - pos) (v.length - trim blk) = dropLast v (trim blk)
      ∧ w.reverse.drop (n - pos + (v.length - trim blk)) = List.replicate (pos - 1) false)

/-- An invalid position ends every command that builds a frame for the chain, where it is otherwise accepted, with nothing of
it on the wire; a transaction stops in its first step (R331, R340, R341). That the opcode rows and BYPASS_OPCODE are
instructions with a chain position is the model's choice (log entry 4). Where the command is refused: see PadIrFrame,
PadDrFrame and ScanRefusals. -/
def Obligations.InvalidPositionAborts : Prop :=
  ∀ (blk : Blk) (sel : Sel) (v : Bits) (pos n : Nat) (s : State), s.Live → closeHeard s →
    s.tap = .runTestIdle → ¬ (1 ≤ n ∧ 1 ≤ pos ∧ pos ≤ n) →
    let e := Err.configurationError (.position pos n)
    exec (.select blk sel pos n) s = .next (aborted s e)
    ∧ exec (opcRow pos n blk sel) s = .next (aborted s e)
    ∧ exec (.bypassOpcode pos n) s = .next (aborted s e)
    ∧ (s.curSel = some (blk, sel) → v.length = selLength sel → exec (.shift blk v pos n) s = .next (aborted s e))
    ∧ (s.phase = .idle → v.length = selLength sel →
        exec (.transact blk sel v pos n) s = .next { aborted s e with phase := .selectInstruction })

/-! ### The TAP -/

/-- The table's facts: five or more cycles with TMS = 1 reach Test-Logic-Reset from every known state; the path from
one state to another leads there, and no other sequence as short does (R172, R173, R180). -/
def Obligations.TapTableFacts : Prop :=
  (∀ (t : TapState) (k : Nat), t ≠ .unknown → 5 ≤ k → tapWalk t (List.replicate k true) = .testLogicReset)
  ∧ ∀ s t : TapState, s ≠ .unknown → t ≠ .unknown →
    tapWalk s (tapPath s t) = t
    ∧ ∀ seq : Bits, tapWalk s seq = t → seq.length ≤ (tapPath s t).length → seq = tapPath s t

/-- `TCK_CYCLE` on RAW: two samples and the flush go out, as many bytes come back, the TAP moves once (R174 to R176,
R222 to R225). -/
def Obligations.TckCycleCompletes : Prop :=
  ∀ (tms tdi : Bool) (rd : List Byte) (s : State), s.RawLive → s.params.wf = true →
    let p := s.params
    let bytes := [sampleByte p false tms tdi p.rstInactive, sampleByte p true tms tdi p.rstInactive]
      ++ List.replicate p.rxLag (sampleByte p true tms tdi p.rstInactive)
    (Exchange.transfer bytes rd).answered s →
    exec (.tckCycle tms tdi) s = .next { s with
      tap := tapNext s.tap tms
      curSel := if tapNext s.tap tms = .testLogicReset then none else s.curSel
      lines := restingLines s tms tdi
      tx := s.tx ++ bytes.map .byte
      rx := s.rx ++ rd.map .byte
      env := s.env.afterWrite.afterRead
      result := .bit ((rd.getD (1 + p.rxLag) 0).getLsbD p.pinTdo.val) }

/-- `TMS_WALK` on RAW: a cycle with TDI = 0 for each TMS value; the selection is lost where the walk meets
Test-Logic-Reset; the empty walk does nothing (R176, R177). -/
def Obligations.TmsWalkCompletes : Prop :=
  ∀ (seq : Bits) (rd : List Byte) (s : State), s.RawLive → s.params.wf = true →
    (seq = [] → exec (.tmsWalk seq) s = .next { s with result := .none })
    ∧ (seq ≠ [] → (Exchange.transfer (expandCycles s.params (seq.map fun tms => (tms, false))) rd).answered s →
        exec (.tmsWalk seq) s = .next { s with
          tap := tapWalk s.tap seq
          curSel := if visitsReset s.tap seq then none else s.curSel
          lines := restingLines s (seq.getLastD false) false
          tx := s.tx ++ (expandCycles s.params (seq.map fun tms => (tms, false))).map .byte
          rx := s.rx ++ rd.map .byte
          env := s.env.afterWrite.afterRead
          result := .none })

/-- `TAP_RESET` on both backends, from every state, known or not: the cycles with TMS = 1,1,1,1,1,0 (RAW), or the calls
resetTAP and goIdle (ENGINE); then Run-Test/Idle, nothing selected (R178, R185). -/
def Obligations.TapResetCompletes : Prop :=
  ∀ (rd : List Byte) (b1 b2 : Bits) (s : State), s.Live → s.params.wf = true →
    let low := (false, false)
    let high := (true, false)
    let xs := match s.params.backend with
      | .raw => [Exchange.transfer (expandCycles s.params [high, high, high, high, high, low]) rd]
      | .engine => [.call .resetTAP b1, .call .goIdle b2]
    Answers s xs →
    exec .tapReset s = .next { afterAll s xs with
      tap := .runTestIdle, curSel := none, lines := idleLines s, result := .none }

/-- `GO_IDLE`: on RAW the shortest walk, nothing at all in Run-Test/Idle; on ENGINE the call (R179). The selection is lost
where the shortest walk meets Test-Logic-Reset (R176, R376), on ENGINE too: that is the model's reading (log entry 29). -/
def Obligations.GoIdleCompletes : Prop :=
  ∀ (rd : List Byte) (bits : Bits) (s : State), s.Live → s.params.wf = true → s.tap ≠ .unknown →
    let path := tapPath s.tap .runTestIdle
    let frame := Exchange.transfer (expandCycles s.params (path.map fun tms => (tms, false))) rd
    (s.params.backend = .raw → s.tap = .runTestIdle → exec .goIdle s = .next { s with result := .none })
    ∧ (s.params.backend = .raw → s.tap ≠ .runTestIdle → frame.answered s →
        exec .goIdle s = .next { frame.after s with
          tap := .runTestIdle
          curSel := if visitsReset s.tap path then none else s.curSel
          lines := restingLines s (path.getLastD false) false
          result := .none })
    ∧ (s.params.backend = .engine → (Exchange.call .goIdle bits).answered s →
        exec .goIdle s = .next { (Exchange.call .goIdle bits).after s with
          tap := .runTestIdle
          curSel := if visitsReset s.tap path then none else s.curSel
          result := .none })

/-- `CHANGE_STATE`: on RAW the shortest walk, nothing at all in the state named; on ENGINE the call (R180). The selection
is lost where the shortest walk meets Test-Logic-Reset (R176, R376), on ENGINE too, which is the model's reading (log
entry 29), and on ENGINE whenever that state is the one named (R180). -/
def Obligations.ChangeStateCompletes : Prop :=
  ∀ (name : TapState) (rd : List Byte) (bits : Bits) (s : State), s.Live → s.params.wf = true → s.tap ≠ .unknown →
    name ≠ .unknown →
    let path := tapPath s.tap name
    let frame := Exchange.transfer (expandCycles s.params (path.map fun tms => (tms, false))) rd
    (s.params.backend = .raw → s.tap = name → exec (.changeState name) s = .next { s with result := .none })
    ∧ (s.params.backend = .raw → s.tap ≠ name → frame.answered s →
        exec (.changeState name) s = .next { frame.after s with
          tap := name
          curSel := if visitsReset s.tap path then none else s.curSel
          lines := restingLines s (path.getLastD false) false
          result := .none })
    ∧ (s.params.backend = .engine → (Exchange.call (.changeState name) bits).answered s →
        exec (.changeState name) s = .next { (Exchange.call (.changeState name) bits).after s with
          tap := name
          curSel := if visitsReset s.tap path ∨ name = .testLogicReset then none else s.curSel
          result := .none })

/-- `WRITE_IR` on both backends: the frame goes out whole, the TAP is back in Run-Test/Idle, the selection stands
(R181, R184, R185). That any bits are written, R181 against R102, is the model's reading (log entry 37). -/
def Obligations.WriteIrCompletes : Prop :=
  ∀ (w : Bits) (x : Exchange) (s : State), s.Live → s.params.wf = true → s.tap = .runTestIdle → w ≠ [] →
    x.isIr s.params w → x.answered s →
    exec (.writeIr w) s = .next { x.after s with lines := idleLines s, result := .none }

/-- `WRITE_DR` on both backends: as `WRITE_IR`, and the reply has a bit for each bit written (R182, R184, R185). That any bits are
written, R182 against R101, is the model's reading (log entry 36). -/
def Obligations.WriteDrCompletes : Prop :=
  ∀ (w : Bits) (x : Exchange) (s : State), s.Live → s.params.wf = true → s.tap = .runTestIdle → w ≠ [] →
    x.isDr s.params w → x.answered s →
    (x.reply s.params w.length).length = w.length
    ∧ exec (.writeDr w) s = .next { x.after s with
        lines := idleLines s, result := .bits (x.reply s.params w.length) }

/-- `HW_RESET`: nothing for `0, 0`; refused without a reset line; else on RAW the pulse, `RST_PULSE_SAMPLES` asserted
samples and a released one with the other lines held, the walk of five cycles with TMS = 1, or both, and the flush once at
the end; on ENGINE the call; and on both the same updates of TAP, selection and lines (R186). Model's readings: `0, 0`
and the line's absence on ENGINE (log entry 13), the lines of a walk on ENGINE (log entry 15), and that the walk resolves
an unknown TAP state (log entry 32). -/
def Obligations.HwResetCompletes : Prop :=
  ∀ (hw tapr : Bool) (rd : List Byte) (bits : Bits) (s : State), s.Live → s.params.wf = true →
    let p := s.params
    let held := fun rst => sampleByte p s.lines.tck s.lines.tms s.lines.tdi rst
    let pulse := if hw then List.replicate p.rstPulseSamples (held (!p.rstInactive)) ++ [held p.rstInactive] else []
    let cycle := [sampleByte p false true false p.rstInactive, sampleByte p true true false p.rstInactive]
    let walk := if tapr then cycle ++ cycle ++ cycle ++ cycle ++ cycle else []
    let last := if tapr then sampleByte p true true false p.rstInactive else held p.rstInactive
    let frame := Exchange.transfer (pulse ++ walk ++ List.replicate p.rxLag last) rd
    let call := Exchange.call (.reset hw tapr) bits
    if hw = false ∧ tapr = false then exec (.hwReset hw tapr) s = .next { s with result := .none }
    else if hw = true ∧ s.params.hasRst = false then exec (.hwReset hw tapr) s = .refused .noResetLine
    else
      (s.params.backend = .raw → frame.answered s → exec (.hwReset hw tapr) s = .next { frame.after s with
        tap := if tapr then .testLogicReset else .unknown
        curSel := none
        lines := if tapr then restingLines s true false else { s.lines with rst := s.params.rstInactive }
        result := .none })
      ∧ (s.params.backend = .engine → call.answered s → exec (.hwReset hw tapr) s = .next { call.after s with
        tap := if tapr then .testLogicReset else .unknown
        curSel := none
        lines := if tapr then { s.lines with tck := true, tms := true, tdi := false } else s.lines
        result := .none })

/-- `OPEN`: the channel is taken, nothing is known of the TAP; refused while it is open (R188). That the histories are not
emptied is the model's reading (log entry 9). -/
def Obligations.OpenCompletes : Prop :=
  ∀ (connection : List Byte) (bits : Bits) (s : State),
    let call := Exchange.call (.configure connection) bits
    (s.err = .none → s.chan = .closed → s.params.backend = .raw →
      exec (.openChannel connection) s = .next { s with
        chan := .opened, tap := .unknown, curSel := none, phase := .idle, result := .none })
    ∧ (s.err = .none → s.chan = .closed → s.params.backend = .engine → call.answered s →
      exec (.openChannel connection) s = .next { call.after s with
        chan := .opened, tap := .unknown, curSel := none, phase := .idle, result := .none })
    ∧ (s.err = .none → s.chan = .opened → exec (.openChannel connection) s = .refused .channelAlreadyOpen)

/-- `CLOSE`: in every state, an error latched or not; the latch stays, a failure of the engine's `close` is ignored, a
closed channel is left alone (R189). -/
def Obligations.CloseCompletes : Prop :=
  ∀ s : State, closeHeard s →
    exec .closeChannel s = .next { released s with result := .none }
    ∧ (released s).err = s.err
    ∧ (s.chan = .closed → released s = s)
    ∧ (s.chan = .opened → (released s).chan = .closed ∧ (released s).tap = .unknown ∧ (released s).curSel = none)

/-- What the TAP controller and the line multiplexer refuse in a live state: an unknown TAP state (on ENGINE too: log
entry 14), an empty shift, a write that does not start in Run-Test/Idle, and on ENGINE every cycle-level command and all
three of file 43 (R179, R180, R185, R187, R190, R343, 93 U13). -/
def Obligations.TapRefusals : Prop :=
  ∀ (name : TapState) (w : Bits) (tms tdi : Bool) (seq : Bits) (cycles : List (Bool × Bool)) (bytes : List Byte)
    (first count : Nat) (s : State), s.Live →
    (s.tap = .unknown → exec .goIdle s = .refused .tapUnknown ∧ exec (.changeState name) s = .refused .tapUnknown)
    ∧ (exec (.writeIr []) s = .refused .emptyShift ∧ exec (.writeDr []) s = .refused .emptyShift)
    ∧ (w ≠ [] → s.tap ≠ .runTestIdle →
        exec (.writeIr w) s = .refused .notInIdle ∧ exec (.writeDr w) s = .refused .notInIdle)
    ∧ (s.params.backend = .engine →
        exec (.tckCycle tms tdi) s = .refused .engineHasNoCycles
        ∧ exec (.tmsWalk seq) s = .refused .engineHasNoCycles
        ∧ exec (.bbExpand cycles) s = .refused .engineHasNoCycles
        ∧ exec (.bbXfer bytes) s = .refused .engineHasNoCycles
        ∧ exec (.bbExtract bytes first count) s = .refused .engineHasNoCycles)

/-- With the channel closed every command of files 42 to 44 but `OPEN` and `CLOSE` is refused, and with them the opcode
rows and `CONFIGURE_BLOCK`, which expand into them (R189, R343, 93 U16; which commands these are: log entry 12). -/
def Obligations.ClosedRefuses : Prop :=
  ∀ (i : Instr) (s : State), s.err = .none → s.chan = .closed → needsChannel i = true →
    exec i s = .refused .channelClosed

/-- With an error latched every command is refused but the pure ones that cannot raise and `CLOSE` (R342, R374). -/
def Obligations.LatchedRefuses : Prop :=
  ∀ (i : Instr) (s : State), s.err ≠ .none → acceptedAfterError i = false → exec i s = .refused .errorLatched

/-! ### Bit-bang framing -/

/-- `BB_EXPAND`: `2 c + RX_LAG` bytes; read line by line they are the five waveforms, and the flush repeats the last
sample; the empty list is refused (R223 to R226). It is accepted in a live state and after an error (R189, R342), which
is read in log entry 12. -/
def Obligations.BbExpandWaveforms : Prop :=
  ∀ (cycles : List (Bool × Bool)) (s : State), (s.err = .none → s.chan = .opened) → s.params.backend = .raw →
    s.params.wf = true →
    exec (.bbExpand []) s = .refused .emptyCycleList
    ∧ (cycles ≠ [] → ∃ bs : List Byte,
        exec (.bbExpand cycles) s = .next { s with result := .bytes bs }
        ∧ bs.length = 2 * cycles.length + s.params.rxLag
        ∧ (∀ (j : Nat) (c : Bool × Bool), cycles[j / 2]? = some c → ∃ b, bs[j]? = some b
            ∧ ∀ k : Fin 8, b.getLsbD k.val =
              if k = s.params.pinTck then decide (j % 2 = 1)
              else if k = s.params.pinTms then c.1
              else if k = s.params.pinTdi then c.2
              else if k = s.params.pinRst then s.params.hasRst && s.params.rstInactive
              else false)
        ∧ ∀ j, j < s.params.rxLag → bs[2 * cycles.length + j]? = bs[2 * cycles.length - 1]?)

/-- `BB_XFER` of bytes that the transport takes and answers in full: the histories grow, the lines hold the last byte's
levels; the empty list is refused (R222, R230). Model's readings: without a reset line RST keeps its level (log entry 24);
a last byte at the asserted level leaves the reset line asserted, whatever R224 says of cycles (log entry 33); a byte is
sent as given, its TDO and unused bits too (log entry 34). -/
def Obligations.BbXferCompletes : Prop :=
  ∀ (bytes : List Byte) (last : Byte) (rd : List Byte) (s : State), s.RawLive →
    exec (.bbXfer []) s = .refused .emptyTransfer
    ∧ ((Exchange.transfer (bytes ++ [last]) rd).answered s →
      exec (.bbXfer (bytes ++ [last])) s = .next { s with
        lines := { tck := last.getLsbD s.params.pinTck.val, tms := last.getLsbD s.params.pinTms.val,
                   tdi := last.getLsbD s.params.pinTdi.val,
                   rst := if s.params.hasRst then last.getLsbD s.params.pinRst.val else s.lines.rst }
        tx := s.tx ++ (bytes ++ [last]).map .byte
        rx := s.rx ++ rd.map .byte
        env := s.env.afterWrite.afterRead
        result := .bytes rd })

/-- `BB_EXTRACT`: the TDO bit of each cycle's TCK-high read byte, or a refusal where one lies outside the frame
(R232). It is accepted in a live state and after an error (R189, R342), which is read in log entry 12. -/
def Obligations.BbExtractBits : Prop :=
  ∀ (rd : List Byte) (first count : Nat) (s : State), (s.err = .none → s.chan = .opened) → s.params.backend = .raw →
    ((∀ k, k < count → 2 * (first + k) + 1 + s.params.rxLag < rd.length) →
      exec (.bbExtract rd first count) s = .next { s with result := .bits ((List.range count).map fun k =>
        (rd.getD (2 * (first + k) + 1 + s.params.rxLag) 0).getLsbD s.params.pinTdo.val) })
    ∧ ((∃ k, k < count ∧ rd.length ≤ 2 * (first + k) + 1 + s.params.rxLag) →
      exec (.bbExtract rd first count) s = .refused .indexOutsideFrame)

/-- A `BB_XFER` that the transport does not take or answer in full aborts (R58, R59, R230, R332, R340, R341). The model's
readings: the error records the command, the count asked and the count got, none where a failure is reported (log entry
20); the history and the lines hold every byte handed over, taken or not (log entry 10), RST of the lines at
its old level without a reset line (log entry 24) and at the byte's own level, asserted too, with one (log entry 33), the
bytes as given, their TDO and unused bits too (log entry 34); a reply of another length stands in `rx` (log entry 25). -/
def Obligations.TransferFailureAborts : Prop :=
  ∀ (bytes rd : List Byte) (s : State), s.RawLive → bytes ≠ [] →
    let handed : State := { s with
      tx := s.tx ++ bytes.map .byte, lines := linesAfter s.params s.lines bytes, env := s.env.afterWrite }
    let heard : State := { handed with env := s.env.afterWrite.afterRead }
    let lost := fun (t : State) (got : Option Nat) => Host.Outcome.next (ρ := Refusal) (φ := Fault)
      (aborted t (.transportError .bbXfer (some bytes.length) got))
    (∀ count, s.writeAnswer bytes = .accepted count → count ≠ bytes.length →
        exec (.bbXfer bytes) s = lost handed (some count))
    ∧ (s.writeAnswer bytes = .failed → exec (.bbXfer bytes) s = lost handed none)
    ∧ (s.writeAnswer bytes = .accepted bytes.length → handed.readAnswer bytes.length = .failed →
        exec (.bbXfer bytes) s = lost heard none)
    ∧ (s.writeAnswer bytes = .accepted bytes.length → handed.readAnswer bytes.length = .returned rd →
        rd.length ≠ bytes.length →
        exec (.bbXfer bytes) s = lost { heard with rx := s.rx ++ rd.map .byte } (some rd.length))

/-- A transport that never answers leaves the command waiting (R385): a write or a read of the byte channel, shown at
`BB_XFER`, and each of the engine's calls, from the commands that make it, from an abort's release too. That the wait
is the fault `transportSilent` is the model's choice (log entry 8). -/
def Obligations.SilentTransportSticks : Prop :=
  ∀ (bytes : List Byte) (w op b : Bits) (hw tapr : Bool) (name : TapState) (connection : List Byte) (pos n : Nat)
    (s : State),
    let stuck : Host.Outcome State Fault Refusal := .fault .transportSilent
    (s.RawLive → bytes ≠ [] →
      (s.writeAnswer bytes = .silent → exec (.bbXfer bytes) s = stuck)
      ∧ (s.writeAnswer bytes = .accepted bytes.length →
          State.readAnswer { s with tx := s.tx ++ bytes.map .byte, env := s.env.afterWrite } bytes.length = .silent →
          exec (.bbXfer bytes) s = stuck))
    ∧ (s.EngineLive →
      (s.tap = .runTestIdle → w ≠ [] → s.engineAnswer (.writeInstructionRegister w) = .silent →
        exec (.writeIr w) s = stuck)
      ∧ (s.tap = .runTestIdle → w ≠ [] → s.engineAnswer (.writeDataRegister w) = .silent →
        exec (.writeDr w) s = stuck)
      ∧ (s.engineAnswer .resetTAP = .silent → exec .tapReset s = stuck)
      ∧ ((Exchange.call .resetTAP b).answered s → ((Exchange.call .resetTAP b).after s).engineAnswer .goIdle = .silent →
        exec .tapReset s = stuck)
      ∧ (s.tap ≠ .unknown → s.engineAnswer .goIdle = .silent → exec .goIdle s = stuck)
      ∧ (s.tap ≠ .unknown → s.engineAnswer (.changeState name) = .silent → exec (.changeState name) s = stuck)
      ∧ (hw = true ∨ tapr = true → (hw = true → s.params.hasRst = true) →
        s.engineAnswer (.reset hw tapr) = .silent → exec (.hwReset hw tapr) s = stuck)
      ∧ (s.engineAnswer .close = .silent → exec .closeChannel s = stuck)
      ∧ (s.engineAnswer .close = .silent → op.length = s.params.irLen → ¬ (1 ≤ n ∧ 1 ≤ pos ∧ pos ≤ n) →
        exec (.padIr op pos n) s = stuck))
    ∧ (s.err = .none → s.chan = .closed → s.params.backend = .engine →
      s.engineAnswer (.configure connection) = .silent → exec (.openChannel connection) s = stuck)

/-- Every engine call that fails aborts its command, `close` apart, and so does a reply of another length: the call is in
the history, an open channel is released (R64, R182, R332, R340). The model's readings: the error records the command
and no count, or the two lengths of a reply (log entry 20); that reply stands in `rx` (log entry 25). -/
def Obligations.EngineFailureAborts : Prop :=
  ∀ (w r b : Bits) (hw tapr : Bool) (name : TapState) (connection : List Byte) (blk : Blk) (sel : Sel) (v : Bits)
    (pos n : Nat) (s : State), s.err = .none → s.params.backend = .engine → s.params.wf = true →
    let called := fun (u : State) (c : EngineCall) =>
      ({ u with tx := u.tx ++ [.call c], env := u.env.afterEngine } : State)
    let fails := fun (i : Instr) (cmd : Command) (u : State) (c : EngineCall) =>
      u.engineAnswer c = .failed → closeHeard (called u c) →
        exec i s = .next (aborted (called u c) (.transportError cmd none none))
    (s.chan = .closed → fails (.openChannel connection) .openChannel s (.configure connection))
    ∧ (s.chan = .opened →
      (s.tap = .runTestIdle → w ≠ [] → fails (.writeIr w) .writeIr s (.writeInstructionRegister w))
      ∧ (s.tap = .runTestIdle → w ≠ [] → fails (.writeDr w) .writeDr s (.writeDataRegister w))
      ∧ (s.tap = .runTestIdle → w ≠ [] → s.engineAnswer (.writeDataRegister w) = .done r → r.length ≠ w.length →
        let heard := { called s (.writeDataRegister w) with rx := s.rx ++ [.bits r] }
        closeHeard heard →
        exec (.writeDr w) s = .next (aborted heard (.transportError .writeDr (some w.length) (some r.length))))
      ∧ fails .tapReset .tapReset s .resetTAP
      ∧ ((Exchange.call .resetTAP b).answered s →
        fails .tapReset .tapReset ((Exchange.call .resetTAP b).after s) .goIdle)
      ∧ (s.tap ≠ .unknown → fails .goIdle .goIdle s .goIdle)
      ∧ (s.tap ≠ .unknown → fails (.changeState name) .changeState s (.changeState name))
      ∧ (hw = true ∨ tapr = true → (hw = true → s.params.hasRst = true) →
        fails (.hwReset hw tapr) .hwReset s (.reset hw tapr))
      ∧ (s.tap = .runTestIdle → 1 ≤ pos → pos ≤ n →
        fails (.select blk sel pos n) .select s
          (.writeInstructionRegister (irFrameWire s.params (opcode s.params blk sel) pos n)))
      ∧ (s.tap = .runTestIdle → 1 ≤ pos → pos ≤ n → s.curSel = some (blk, sel) → v.length = selLength sel →
        fails (.shift blk v pos n) .shift s (.writeDataRegister (drFrameWire v blk pos n))))

/-! ### The scan controller -/

/-- `SELECT`, and the six rows of the target's opcode table: the opcode goes to the addressed device, BYPASS to every
other, and the selection is recorded (R100, R153, R252; the rows as instructions: log entry 4). -/
def Obligations.SelectCompletes : Prop :=
  ∀ (blk : Blk) (sel : Sel) (pos n : Nat) (x : Exchange) (s : State) (i : Instr),
    i = .select blk sel pos n ∨ i = opcRow pos n blk sel →
    s.Live → s.params.wf = true → s.tap = .runTestIdle → 1 ≤ pos → pos ≤ n →
    let bypass := bypassBits s.params
    x.isIr s.params (rep bypass (n - pos) ++ opcode s.params blk sel ++ rep bypass (pos - 1)).reverse →
    x.answered s →
    exec i s = .next { x.after s with lines := idleLines s, curSel := some (blk, sel), result := .none }

/-- `BYPASS_OPCODE` as an instruction: every device of the chain gets it, and nothing is selected any more (R40, R100;
log entry 4). -/
def Obligations.BypassOpcodeCompletes : Prop :=
  ∀ (pos n : Nat) (x : Exchange) (s : State), s.Live → s.params.wf = true → s.tap = .runTestIdle → 1 ≤ pos →
    pos ≤ n → x.isIr s.params (rep (bypassBits s.params) n).reverse → x.answered s →
    exec (.bypassOpcode pos n) s = .next { x.after s with lines := idleLines s, curSel := none, result := .none }

/-- `SHIFT`: the padded vector goes out, the reply has a bit for each bit of it, the selection stands (R157, R254).
A 1 of `v` in a guard or reserved position is shifted as given: the model's reading (log entry 36). -/
def Obligations.ShiftCompletes : Prop :=
  ∀ (blk : Blk) (sel : Sel) (v : Bits) (pos n : Nat) (x : Exchange) (s : State), s.Live → s.params.wf = true →
    s.tap = .runTestIdle → 1 ≤ pos → pos ≤ n → s.curSel = some (blk, sel) → v.length = selLength sel →
    let w := (rep [false] (n - pos) ++ dropLast v (trim blk) ++ rep [false] (pos - 1)).reverse
    x.isDr s.params w → x.answered s →
    w.length = n - 1 + selLength sel - trim blk
    ∧ (x.reply s.params w.length).length = w.length
    ∧ exec (.shift blk v pos n) s = .next { x.after s with
        lines := idleLines s, result := .bits (x.reply s.params w.length) }

/-- What the scan controller refuses: `SHIFT` with nothing selected, for another block, or of a vector that is not the
selected register's length; `TRANSACT` while one is in progress or of such a vector; and every register write, of `SELECT`,
the opcode rows (log entry 4), `SHIFT` and `TRANSACT`, that does not start in Run-Test/Idle (R252 to R254, R256, R187, R363).
That it is refused at an invalid position too, instead of raising, and `TRANSACT`'s vector before its first step, is the
model's reading (log entry 11). -/
def Obligations.ScanRefusals : Prop :=
  ∀ (blk b : Blk) (sel : Sel) (v : Bits) (pos n : Nat) (s : State), s.Live →
    (s.curSel = none → exec (.shift blk v pos n) s = .refused .nothingSelected)
    ∧ (s.curSel = some (b, sel) → b ≠ blk → exec (.shift blk v pos n) s = .refused .blockMismatch)
    ∧ (s.curSel = some (blk, sel) → v.length ≠ selLength sel →
        exec (.shift blk v pos n) s = .refused .vectorMismatch)
    ∧ (s.phase ≠ .idle → exec (.transact blk sel v pos n) s = .refused .transactionInProgress)
    ∧ (s.phase = .idle → s.tap = .runTestIdle → v.length ≠ selLength sel →
        exec (.transact blk sel v pos n) s = .refused .vectorMismatch)
    ∧ (s.tap ≠ .runTestIdle →
        exec (.select blk sel pos n) s = .refused .notInIdle
        ∧ exec (opcRow pos n blk sel) s = .refused .notInIdle
        ∧ exec (.bypassOpcode pos n) s = .refused .notInIdle
        ∧ (s.curSel = some (blk, sel) → v.length = selLength sel →
            exec (.shift blk v pos n) s = .refused .notInIdle)
        ∧ (s.phase = .idle → exec (.transact blk sel v pos n) s = .refused .notInIdle))

/-- `TRANSACT` on both backends: four steps, the reply of the second, the register selected again, the sequencer idle
(R256, R257). A 1 of `v` in a guard or reserved position is shifted as given: the model's reading (log entry 36). -/
def Obligations.TransactCompletes : Prop :=
  ∀ (blk : Blk) (sel : Sel) (v : Bits) (pos n : Nat) (xs : List Exchange) (s : State), s.Live → s.params.wf = true →
    s.phase = .idle → s.tap = .runTestIdle → 1 ≤ pos → pos ≤ n → v.length = selLength sel →
    areTransact s.params blk sel v pos n xs → Answers s xs →
    ∃ x2 reply, xs[1]? = some x2 ∧ reply = x2.reply s.params (drFrameWire v blk pos n).length
      ∧ reply.length = n - 1 + selLength sel - trim blk
      ∧ exec (.transact blk sel v pos n) s = .next { afterAll s xs with
          curSel := some (blk, sel), lines := idleLines s, result := .bits reply }

/-- A transaction whose data shift the transport does not take or answer in full stops there, on both backends: the phase
names step 2, the histories hold both frames, the channel is released, nothing is selected (R256, R258, R340, R341). The
model's readings: the error records TRANSACT and the counts (log entry 20), all bytes handed over stand in the history
(log entry 10), a reply of the wrong length in `rx` (log entry 25). -/
def Obligations.TransactStepTwoFails : Prop :=
  ∀ (blk : Blk) (sel : Sel) (v : Bits) (pos n : Nat) (x : Exchange) (count : Nat) (rd : List Byte) (r : Bits)
    (s : State), s.Live → s.params.wf = true → s.phase = .idle → s.tap = .runTestIdle → 1 ≤ pos → pos ≤ n →
    v.length = selLength sel →
    x.isIr s.params (irFrameWire s.params (opcode s.params blk sel) pos n) → x.answered s →
    let w := drFrameWire v blk pos n
    let bytes := expandCycles s.params (shiftCycles [true, false, false] w)
    let t : State := { x.after s with phase := .shiftData, curSel := some (blk, sel), lines := idleLines s }
    let handed : State := { t with tx := t.tx ++ bytes.map .byte, env := t.env.afterWrite }
    let heard : State := { handed with env := handed.env.afterRead }
    let called : State := { t with tx := t.tx ++ [.call (.writeDataRegister w)], env := t.env.afterEngine }
    let lost := fun (u : State) (asked got : Option Nat) =>
      exec (.transact blk sel v pos n) s = .next (aborted u (.transportError .transact asked got))
    (s.params.backend = .raw →
      (t.writeAnswer bytes = .failed → lost handed (some bytes.length) none)
      ∧ (t.writeAnswer bytes = .accepted count → count ≠ bytes.length →
          lost handed (some bytes.length) (some count))
      ∧ (t.writeAnswer bytes = .accepted bytes.length → handed.readAnswer bytes.length = .failed →
          lost heard (some bytes.length) none)
      ∧ (t.writeAnswer bytes = .accepted bytes.length → handed.readAnswer bytes.length = .returned rd →
          rd.length ≠ bytes.length →
          lost { heard with rx := heard.rx ++ rd.map .byte } (some bytes.length) (some rd.length)))
    ∧ (s.params.backend = .engine →
      (t.engineAnswer (.writeDataRegister w) = .failed → closeHeard called → lost called none none)
      ∧ (t.engineAnswer (.writeDataRegister w) = .done r → r.length ≠ w.length →
          closeHeard { called with rx := called.rx ++ [.bits r] } →
          lost { called with rx := called.rx ++ [.bits r] } (some w.length) (some r.length)))

/-! ### The reply parser -/

/-- `PARSE_REPLY`: the four counters, or the abort for an invalid position or a short reply (R281). -/
def Obligations.ParseReplyCounters : Prop :=
  ∀ (reply : Bits) (blk : Blk) (pos n : Nat) (s : State), s.err = .none → closeHeard s →
    let nat := reply.reverse
    let lead := (n - pos) + replyDrop s.params blk
    let c := fun i => ube (slice (nat.drop lead) (2 + 48 * i) 12).reverse
    if n < 1 ∨ pos < 1 ∨ n < pos then
      exec (.parseReply reply blk pos n) s = .next (aborted s (.configurationError (.position pos n)))
    else if nat.length < lead + 158 then
      exec (.parseReply reply blk pos n) s = .next (aborted s (.protocolViolation reply.length (lead + 158)))
    else exec (.parseReply reply blk pos n) s = .next { s with result := .counters (c 0) (c 1) (c 2) (c 3) }
      ∧ ∀ i, c i ≤ 4095

/-- `REPLY`: the counter of lane `i` is the sum of its window's bits at their weights (R87, R285). Model's choices: the row as
an instruction (log entry 3), and that it takes the aligned reply and that fewer than 158 bits are refused (log entry
22). -/
def Obligations.ReplyWindows : Prop :=
  ∀ (a : Bits) (s : State), s.err = .none →
    let c := fun i => ((List.range 12).map fun j => (a.getD (2 + 48 * i + j) false).toNat * 2 ^ j).sum
    if a.length < 158 then exec (.replyFormat a) s = .refused .replyTooShort
    else exec (.replyFormat a) s = .next { s with result := .counters (c 0) (c 1) (c 2) (c 3) }

/-- A reply made for four known counters gives them back, lane by lane, at any position and either block (R288). -/
def Obligations.SyntheticReply : Prop :=
  ∀ (k : Fin 4 → Nat) (nat : Bits) (blk : Blk) (pos n : Nat) (s : State), s.err = .none → 1 ≤ pos → pos ≤ n →
    (∀ i, k i ≤ 4095) →
    let lead := (n - pos) + replyDrop s.params blk
    lead + 158 ≤ nat.length →
    (∀ (i : Fin 4) (j : Nat), j < 12 → nat[lead + 2 + 48 * i.val + j]? = some ((k i).testBit j)) →
    exec (.parseReply nat.reverse blk pos n) s = .next { s with result := .counters (k 0) (k 1) (k 2) (k 3) }

/-! ### The sweep -/

/-- `CONFIGURE_BLOCK`: three transactions, all write-enables clear, then the core and char ones set, then CoreControl
(R303, R304). -/
def Obligations.ConfigureBlockCompletes : Prop :=
  ∀ (blk : Blk) (coreParams : Fields) (v3 : Bits) (pos n : Nat) (xs : List Exchange) (s : State), s.Live →
    s.params.wf = true → s.phase = .idle → s.tap = .runTestIdle → 1 ≤ pos → pos ≤ n →
    encodeCore s.params coreParams = .ok v3 →
    let lane := [true, false, false, true, false]
    areConfigure s.params blk (List.replicate 27 false)
      ([false, false, true] ++ lane ++ lane ++ lane ++ lane ++ [true, false, false, false]) v3 pos n xs →
    Answers s xs →
    exec (.configureBlock blk coreParams pos n) s = .next { afterAll s xs with
      curSel := some (blk, .coreInputs), lines := idleLines s, result := .none }

/-- `SWEEP_BLOCK`: the exchanges of R308 and no others; four samples for each read, their counters the reply's, their
places in the order of R306 to R314, `8192 * bitNumber` of them (R308, R313, R317). Where the chain is such that no reply
can be long enough for `PARSE_REPLY`, the first read after the priming one aborts and no sample is emitted (R284,
R333). -/
def Obligations.SweepBlockCompletes : Prop :=
  ∀ (blk : Blk) (bitNumber pos n : Nat) (s : State), s.Live → s.params.wf = true → s.tap = .runTestIdle → 1 ≤ pos →
    pos ≤ n → namesOnly (fieldKeys charLayout) s.params.diagTemplate = true →
    (repliesFit s.params blk pos n → ∀ (xs : List Exchange) (ss : List SweepSample),
      areSweepBlock s.params blk bitNumber pos n xs ss → Answers s xs →
      ss.map SweepSample.place = blockPlaces blk bitNumber
      ∧ ss.length = 8192 * bitNumber
      ∧ exec (.sweepBlock blk bitNumber pos n) s = .next { afterAll s xs with
          curSel := if bitNumber = 0 then s.curSel else some (blk, .readback)
          lines := if bitNumber = 0 then s.lines else idleLines s
          sink := s.sink ++ ss
          result := .samples ss })
    ∧ (¬ repliesFit s.params blk pos n → 1 ≤ bitNumber → ∀ x y z : Exchange,
      x.isIr s.params (irFrameWire s.params (opcode s.params blk .readback) pos n) →
      y.isDr s.params (drFrameWire (diagImage s.params 31 0 0) blk pos n) →
      z.isDr s.params (drFrameWire (diagImage s.params 31 0 15) blk pos n) →
      Answers s [x, y, z] →
      let t : State := { afterAll s [x, y, z] with curSel := some (blk, .readback), lines := idleLines s }
      closeHeard t →
      exec (.sweepBlock blk bitNumber pos n) s = .next (aborted t (.protocolViolation
        (n - 1 + selLength .readback - trim blk) (n - pos + replyDrop s.params blk + 158))))

/-- `SWEEP`: from a closed channel, through both blocks, back to a closed one, whether the engine's `close` goes well or
fails; `16384 * bitNumber` samples, block R0's before block R1's; CORE_PARAMS is that of the test pattern (R302, R305,
R316, R317). Model's readings: the record's precedence (log entry 19); the inner `OPEN` does not empty `tx` and `rx`, so the
sweep's histories stand behind those already there (log entry 9). Replies too short: see SweepBlockCompletes. -/
def Obligations.SweepCompletes : Prop :=
  ∀ (q : SweepParams) (coreParams : Fields) (xs : List Exchange) (ss : List SweepSample) (s : State), s.err = .none →
    s.chan = .closed → s.params.wf = true → 1 ≤ q.pos → q.pos ≤ q.n →
    isCoreParams s.params q.testPattern coreParams →
    namesOnly (fieldKeys charLayout) s.params.diagTemplate = true →
    (∀ blk, repliesFit s.params blk q.pos q.n) →
    areSweep s.params coreParams q xs ss → Answers s xs →
    let t : State := { afterAll s xs with
      tap := .runTestIdle, phase := .idle, chan := .opened, lines := idleLines s, sink := s.sink ++ ss,
      curSel := some (.r1, if q.bitNumber = 0 then .coreInputs else .readback) }
    closeHeard t →
    ss.map SweepSample.place = blockPlaces .r0 q.bitNumber ++ blockPlaces .r1 q.bitNumber
    ∧ ss.length = 16384 * q.bitNumber
    ∧ exec (.sweep q) s = .next { released t with result := .samples ss }

/-- A sweep with an invalid position, or a pattern that is no member of the set, aborts before anything is sent
(R301, R331). Where the channel is already open the abort closes it (R340), which on ENGINE is a call: that is the model's
reading (log entry 35). -/
def Obligations.SweepValidatesFirst : Prop :=
  ∀ (q : SweepParams) (s : State), s.err = .none →
    let fails := fun (e : Err) =>
      (s.chan = .closed → exec (.sweep q) s = .next { s with err := e, result := .none })
      ∧ (s.chan = .opened → s.params.backend = .raw → exec (.sweep q) s = .next { s with
          chan := .closed, tap := .unknown, curSel := none, err := e, result := .none })
      ∧ (s.chan = .opened → s.params.backend = .engine → s.engineAnswer .close ≠ .silent →
          exec (.sweep q) s = .next { s with
            chan := .closed, tap := .unknown, curSel := none, tx := s.tx ++ [.call .close], env := s.env.afterEngine
            err := e, result := .none })
    (¬ (1 ≤ q.n ∧ 1 ≤ q.pos ∧ q.pos ≤ q.n) → fails (.configurationError (.position q.pos q.n)))
    ∧ (1 ≤ q.n ∧ 1 ≤ q.pos ∧ q.pos ≤ q.n → q.testPattern ∉ s.params.testPatterns.numbers →
      fails (.configurationError (.pattern q.testPattern)))

/-! ### The whole machine -/

/-- Every sample ever emitted is in the ranges of R315: a step keeps lane, voltage, phase and counter there; and a command
adds to the sink only samples in these ranges whose bit-select is below its own `bitNumber`, none where it has no such
operand. -/
def Obligations.SinkInRange : Prop :=
  (∀ s t : State, step s = .next t → (∀ x ∈ s.sink, x.inRange) → ∀ x ∈ t.sink, x.inRange)
  ∧ ∀ (i : Instr) (s t : State), exec i s = .next t →
      ∃ new, t.sink = s.sink ++ new ∧ ∀ x ∈ new, x.inRange ∧ x.bitSelect < bitNumberOf i

/-- The histories and the sink are only appended to, and the parameters never change (R27, R28, R319). That a second
`OPEN` keeps the histories of the first, where R27 says "since OPEN", is the model's reading (log entry 9). -/
def Obligations.HistoriesGrow : Prop :=
  ∀ s t : State, step s = .next t →
    s.tx <+: t.tx ∧ s.rx <+: t.rx ∧ s.sink <+: t.sink ∧ t.params = s.params

/-- What holds between commands holds after every step: a closed channel tracks nothing, an error has closed the
channel, without one no transaction is in progress, nothing is selected where the TAP is unknown or in
Test-Logic-Reset (R22, R26, R176, R188, R340). -/
def Obligations.ConsistentKept : Prop :=
  ∀ s t : State, s.Consistent → step s = .next t → t.Consistent

/-- The reset state of R45 with legal parameters; it is consistent. The values are the spec's own choice; those of
`result`, `sink`, `inbox` and `env` the model's (log entries 1, 5, 7). That the parameters are legal is the model's choice
(log entries 6 and 31): what R10 and the model ask of them holds because other sets are replaced at reset. -/
def Obligations.ResetState : Prop :=
  State.reset.tap = .unknown ∧ State.reset.phase = .idle
  ∧ State.reset.lines = { tck := false, tms := false, tdi := false, rst := State.reset.params.rstInactive }
  ∧ State.reset.err = .none ∧ State.reset.chan = .closed ∧ State.reset.curSel = none
  ∧ State.reset.tx = [] ∧ State.reset.rx = []
  ∧ State.reset.params.wf = true ∧ State.reset.Consistent ∧ (∀ x ∈ State.reset.sink, x.inRange)

/-- An error stays, and a command accepted after it changes nothing but its own result (R24, R342, R361). -/
def Obligations.LatchSticky : Prop :=
  ∀ s t : State, s.Consistent → s.err ≠ .none → step s = .next t →
    t = { s with result := t.result, inbox := t.inbox }

/-- Whatever raises an error leaves the state of R341: the channel closed, the TAP unknown, no selection, no result. -/
def Obligations.AbortReleases : Prop :=
  ∀ (i : Instr) (s t : State), s.Consistent → s.err = .none → exec i s = .next t → t.err ≠ .none →
    t.chan = .closed ∧ t.tap = .unknown ∧ t.curSel = none ∧ t.result = .none

/-- Both backends put the same bits in front of the chain for the same register write, and hand back replies of the
same length (R65). -/
def Obligations.BackendEquivalence : Prop :=
  ∀ (w : Bits) (x y : Exchange) (s e : State), s.RawLive → e.EngineLive → s.params.wf = true →
    e.params = { s.params with backend := .engine } → s.tap = .runTestIdle → e.tap = .runTestIdle → w ≠ [] →
    x.answered s → y.answered e →
    (x.isIr s.params w → y.isIr e.params w →
      ∃ t u, exec (.writeIr w) s = .next t ∧ exec (.writeIr w) e = .next u
        ∧ tdiBits s.params (t.tx.drop s.tx.length) 4 w.length = w
        ∧ u.tx = e.tx ++ [.call (.writeInstructionRegister w)])
    ∧ (x.isDr s.params w → y.isDr e.params w →
      ∃ t u r r', exec (.writeDr w) s = .next t ∧ exec (.writeDr w) e = .next u
        ∧ tdiBits s.params (t.tx.drop s.tx.length) 3 w.length = w
        ∧ u.tx = e.tx ++ [.call (.writeDataRegister w)]
        ∧ t.result = .bits r ∧ u.result = .bits r' ∧ r.length = w.length ∧ r'.length = w.length)
end

