-- ==== Sys2Proof/Laws/State.lean ====
section
/-! SUPPORT. The small lemmas of the state: one per field per update, each true by definition. -/

namespace Sys2Proof.Machine

@[simp] theorem setTap_tap (s : State) (t : TapState) : (s.setTap t).tap = t := rfl
@[simp] theorem setTap_phase (s : State) (t : TapState) : (s.setTap t).phase = s.phase := rfl
@[simp] theorem setTap_lines (s : State) (t : TapState) : (s.setTap t).lines = s.lines := rfl
@[simp] theorem setTap_err (s : State) (t : TapState) : (s.setTap t).err = s.err := rfl
@[simp] theorem setTap_chan (s : State) (t : TapState) : (s.setTap t).chan = s.chan := rfl
@[simp] theorem setTap_curSel (s : State) (t : TapState) : (s.setTap t).curSel = s.curSel := rfl
@[simp] theorem setTap_tx (s : State) (t : TapState) : (s.setTap t).tx = s.tx := rfl
@[simp] theorem setTap_rx (s : State) (t : TapState) : (s.setTap t).rx = s.rx := rfl
@[simp] theorem setTap_result (s : State) (t : TapState) : (s.setTap t).result = s.result := rfl
@[simp] theorem setTap_sink (s : State) (t : TapState) : (s.setTap t).sink = s.sink := rfl
@[simp] theorem setTap_inbox (s : State) (t : TapState) : (s.setTap t).inbox = s.inbox := rfl
@[simp] theorem setTap_env (s : State) (t : TapState) : (s.setTap t).env = s.env := rfl
@[simp] theorem setTap_params (s : State) (t : TapState) : (s.setTap t).params = s.params := rfl

@[simp] theorem setPhase_tap (s : State) (p : Phase) : (s.setPhase p).tap = s.tap := rfl
@[simp] theorem setPhase_phase (s : State) (p : Phase) : (s.setPhase p).phase = p := rfl
@[simp] theorem setPhase_lines (s : State) (p : Phase) : (s.setPhase p).lines = s.lines := rfl
@[simp] theorem setPhase_err (s : State) (p : Phase) : (s.setPhase p).err = s.err := rfl
@[simp] theorem setPhase_chan (s : State) (p : Phase) : (s.setPhase p).chan = s.chan := rfl
@[simp] theorem setPhase_curSel (s : State) (p : Phase) : (s.setPhase p).curSel = s.curSel := rfl
@[simp] theorem setPhase_tx (s : State) (p : Phase) : (s.setPhase p).tx = s.tx := rfl
@[simp] theorem setPhase_rx (s : State) (p : Phase) : (s.setPhase p).rx = s.rx := rfl
@[simp] theorem setPhase_result (s : State) (p : Phase) : (s.setPhase p).result = s.result := rfl
@[simp] theorem setPhase_sink (s : State) (p : Phase) : (s.setPhase p).sink = s.sink := rfl
@[simp] theorem setPhase_inbox (s : State) (p : Phase) : (s.setPhase p).inbox = s.inbox := rfl
@[simp] theorem setPhase_env (s : State) (p : Phase) : (s.setPhase p).env = s.env := rfl
@[simp] theorem setPhase_params (s : State) (p : Phase) : (s.setPhase p).params = s.params := rfl

@[simp] theorem setLines_tap (s : State) (l : Lines) : (s.setLines l).tap = s.tap := rfl
@[simp] theorem setLines_phase (s : State) (l : Lines) : (s.setLines l).phase = s.phase := rfl
@[simp] theorem setLines_lines (s : State) (l : Lines) : (s.setLines l).lines = l := rfl
@[simp] theorem setLines_err (s : State) (l : Lines) : (s.setLines l).err = s.err := rfl
@[simp] theorem setLines_chan (s : State) (l : Lines) : (s.setLines l).chan = s.chan := rfl
@[simp] theorem setLines_curSel (s : State) (l : Lines) : (s.setLines l).curSel = s.curSel := rfl
@[simp] theorem setLines_tx (s : State) (l : Lines) : (s.setLines l).tx = s.tx := rfl
@[simp] theorem setLines_rx (s : State) (l : Lines) : (s.setLines l).rx = s.rx := rfl
@[simp] theorem setLines_result (s : State) (l : Lines) : (s.setLines l).result = s.result := rfl
@[simp] theorem setLines_sink (s : State) (l : Lines) : (s.setLines l).sink = s.sink := rfl
@[simp] theorem setLines_inbox (s : State) (l : Lines) : (s.setLines l).inbox = s.inbox := rfl
@[simp] theorem setLines_env (s : State) (l : Lines) : (s.setLines l).env = s.env := rfl
@[simp] theorem setLines_params (s : State) (l : Lines) : (s.setLines l).params = s.params := rfl

@[simp] theorem setErr_tap (s : State) (e : Err) : (s.setErr e).tap = s.tap := rfl
@[simp] theorem setErr_phase (s : State) (e : Err) : (s.setErr e).phase = s.phase := rfl
@[simp] theorem setErr_lines (s : State) (e : Err) : (s.setErr e).lines = s.lines := rfl
@[simp] theorem setErr_err (s : State) (e : Err) : (s.setErr e).err = e := rfl
@[simp] theorem setErr_chan (s : State) (e : Err) : (s.setErr e).chan = s.chan := rfl
@[simp] theorem setErr_curSel (s : State) (e : Err) : (s.setErr e).curSel = s.curSel := rfl
@[simp] theorem setErr_tx (s : State) (e : Err) : (s.setErr e).tx = s.tx := rfl
@[simp] theorem setErr_rx (s : State) (e : Err) : (s.setErr e).rx = s.rx := rfl
@[simp] theorem setErr_result (s : State) (e : Err) : (s.setErr e).result = s.result := rfl
@[simp] theorem setErr_sink (s : State) (e : Err) : (s.setErr e).sink = s.sink := rfl
@[simp] theorem setErr_inbox (s : State) (e : Err) : (s.setErr e).inbox = s.inbox := rfl
@[simp] theorem setErr_env (s : State) (e : Err) : (s.setErr e).env = s.env := rfl
@[simp] theorem setErr_params (s : State) (e : Err) : (s.setErr e).params = s.params := rfl

@[simp] theorem setChan_tap (s : State) (c : Channel) : (s.setChan c).tap = s.tap := rfl
@[simp] theorem setChan_phase (s : State) (c : Channel) : (s.setChan c).phase = s.phase := rfl
@[simp] theorem setChan_lines (s : State) (c : Channel) : (s.setChan c).lines = s.lines := rfl
@[simp] theorem setChan_err (s : State) (c : Channel) : (s.setChan c).err = s.err := rfl
@[simp] theorem setChan_chan (s : State) (c : Channel) : (s.setChan c).chan = c := rfl
@[simp] theorem setChan_curSel (s : State) (c : Channel) : (s.setChan c).curSel = s.curSel := rfl
@[simp] theorem setChan_tx (s : State) (c : Channel) : (s.setChan c).tx = s.tx := rfl
@[simp] theorem setChan_rx (s : State) (c : Channel) : (s.setChan c).rx = s.rx := rfl
@[simp] theorem setChan_result (s : State) (c : Channel) : (s.setChan c).result = s.result := rfl
@[simp] theorem setChan_sink (s : State) (c : Channel) : (s.setChan c).sink = s.sink := rfl
@[simp] theorem setChan_inbox (s : State) (c : Channel) : (s.setChan c).inbox = s.inbox := rfl
@[simp] theorem setChan_env (s : State) (c : Channel) : (s.setChan c).env = s.env := rfl
@[simp] theorem setChan_params (s : State) (c : Channel) : (s.setChan c).params = s.params := rfl

@[simp] theorem setCurSel_tap (s : State) (x : Option (Blk × Sel)) : (s.setCurSel x).tap = s.tap := rfl
@[simp] theorem setCurSel_phase (s : State) (x : Option (Blk × Sel)) : (s.setCurSel x).phase = s.phase := rfl
@[simp] theorem setCurSel_lines (s : State) (x : Option (Blk × Sel)) : (s.setCurSel x).lines = s.lines := rfl
@[simp] theorem setCurSel_err (s : State) (x : Option (Blk × Sel)) : (s.setCurSel x).err = s.err := rfl
@[simp] theorem setCurSel_chan (s : State) (x : Option (Blk × Sel)) : (s.setCurSel x).chan = s.chan := rfl
@[simp] theorem setCurSel_curSel (s : State) (x : Option (Blk × Sel)) : (s.setCurSel x).curSel = x := rfl
@[simp] theorem setCurSel_tx (s : State) (x : Option (Blk × Sel)) : (s.setCurSel x).tx = s.tx := rfl
@[simp] theorem setCurSel_rx (s : State) (x : Option (Blk × Sel)) : (s.setCurSel x).rx = s.rx := rfl
@[simp] theorem setCurSel_result (s : State) (x : Option (Blk × Sel)) : (s.setCurSel x).result = s.result := rfl
@[simp] theorem setCurSel_sink (s : State) (x : Option (Blk × Sel)) : (s.setCurSel x).sink = s.sink := rfl
@[simp] theorem setCurSel_inbox (s : State) (x : Option (Blk × Sel)) : (s.setCurSel x).inbox = s.inbox := rfl
@[simp] theorem setCurSel_env (s : State) (x : Option (Blk × Sel)) : (s.setCurSel x).env = s.env := rfl
@[simp] theorem setCurSel_params (s : State) (x : Option (Blk × Sel)) : (s.setCurSel x).params = s.params := rfl

@[simp] theorem setResult_tap (s : State) (r : Result) : (s.setResult r).tap = s.tap := rfl
@[simp] theorem setResult_phase (s : State) (r : Result) : (s.setResult r).phase = s.phase := rfl
@[simp] theorem setResult_lines (s : State) (r : Result) : (s.setResult r).lines = s.lines := rfl
@[simp] theorem setResult_err (s : State) (r : Result) : (s.setResult r).err = s.err := rfl
@[simp] theorem setResult_chan (s : State) (r : Result) : (s.setResult r).chan = s.chan := rfl
@[simp] theorem setResult_curSel (s : State) (r : Result) : (s.setResult r).curSel = s.curSel := rfl
@[simp] theorem setResult_tx (s : State) (r : Result) : (s.setResult r).tx = s.tx := rfl
@[simp] theorem setResult_rx (s : State) (r : Result) : (s.setResult r).rx = s.rx := rfl
@[simp] theorem setResult_result (s : State) (r : Result) : (s.setResult r).result = r := rfl
@[simp] theorem setResult_sink (s : State) (r : Result) : (s.setResult r).sink = s.sink := rfl
@[simp] theorem setResult_inbox (s : State) (r : Result) : (s.setResult r).inbox = s.inbox := rfl
@[simp] theorem setResult_env (s : State) (r : Result) : (s.setResult r).env = s.env := rfl
@[simp] theorem setResult_params (s : State) (r : Result) : (s.setResult r).params = s.params := rfl

@[simp] theorem setInbox_tap (s : State) (bs : List Byte) : (s.setInbox bs).tap = s.tap := rfl
@[simp] theorem setInbox_phase (s : State) (bs : List Byte) : (s.setInbox bs).phase = s.phase := rfl
@[simp] theorem setInbox_lines (s : State) (bs : List Byte) : (s.setInbox bs).lines = s.lines := rfl
@[simp] theorem setInbox_err (s : State) (bs : List Byte) : (s.setInbox bs).err = s.err := rfl
@[simp] theorem setInbox_chan (s : State) (bs : List Byte) : (s.setInbox bs).chan = s.chan := rfl
@[simp] theorem setInbox_curSel (s : State) (bs : List Byte) : (s.setInbox bs).curSel = s.curSel := rfl
@[simp] theorem setInbox_tx (s : State) (bs : List Byte) : (s.setInbox bs).tx = s.tx := rfl
@[simp] theorem setInbox_rx (s : State) (bs : List Byte) : (s.setInbox bs).rx = s.rx := rfl
@[simp] theorem setInbox_result (s : State) (bs : List Byte) : (s.setInbox bs).result = s.result := rfl
@[simp] theorem setInbox_sink (s : State) (bs : List Byte) : (s.setInbox bs).sink = s.sink := rfl
@[simp] theorem setInbox_inbox (s : State) (bs : List Byte) : (s.setInbox bs).inbox = bs := rfl
@[simp] theorem setInbox_env (s : State) (bs : List Byte) : (s.setInbox bs).env = s.env := rfl
@[simp] theorem setInbox_params (s : State) (bs : List Byte) : (s.setInbox bs).params = s.params := rfl

@[simp] theorem setEnv_tap (s : State) (e : Env) : (s.setEnv e).tap = s.tap := rfl
@[simp] theorem setEnv_phase (s : State) (e : Env) : (s.setEnv e).phase = s.phase := rfl
@[simp] theorem setEnv_lines (s : State) (e : Env) : (s.setEnv e).lines = s.lines := rfl
@[simp] theorem setEnv_err (s : State) (e : Env) : (s.setEnv e).err = s.err := rfl
@[simp] theorem setEnv_chan (s : State) (e : Env) : (s.setEnv e).chan = s.chan := rfl
@[simp] theorem setEnv_curSel (s : State) (e : Env) : (s.setEnv e).curSel = s.curSel := rfl
@[simp] theorem setEnv_tx (s : State) (e : Env) : (s.setEnv e).tx = s.tx := rfl
@[simp] theorem setEnv_rx (s : State) (e : Env) : (s.setEnv e).rx = s.rx := rfl
@[simp] theorem setEnv_result (s : State) (e : Env) : (s.setEnv e).result = s.result := rfl
@[simp] theorem setEnv_sink (s : State) (e : Env) : (s.setEnv e).sink = s.sink := rfl
@[simp] theorem setEnv_inbox (s : State) (e : Env) : (s.setEnv e).inbox = s.inbox := rfl
@[simp] theorem setEnv_env (s : State) (e : Env) : (s.setEnv e).env = e := rfl
@[simp] theorem setEnv_params (s : State) (e : Env) : (s.setEnv e).params = s.params := rfl

@[simp] theorem send_tap (s : State) (items : List TxItem) : (s.send items).tap = s.tap := rfl
@[simp] theorem send_phase (s : State) (items : List TxItem) : (s.send items).phase = s.phase := rfl
@[simp] theorem send_lines (s : State) (items : List TxItem) : (s.send items).lines = s.lines := rfl
@[simp] theorem send_err (s : State) (items : List TxItem) : (s.send items).err = s.err := rfl
@[simp] theorem send_chan (s : State) (items : List TxItem) : (s.send items).chan = s.chan := rfl
@[simp] theorem send_curSel (s : State) (items : List TxItem) : (s.send items).curSel = s.curSel := rfl
@[simp] theorem send_tx (s : State) (items : List TxItem) : (s.send items).tx = s.tx ++ items := rfl
@[simp] theorem send_rx (s : State) (items : List TxItem) : (s.send items).rx = s.rx := rfl
@[simp] theorem send_result (s : State) (items : List TxItem) : (s.send items).result = s.result := rfl
@[simp] theorem send_sink (s : State) (items : List TxItem) : (s.send items).sink = s.sink := rfl
@[simp] theorem send_inbox (s : State) (items : List TxItem) : (s.send items).inbox = s.inbox := rfl
@[simp] theorem send_env (s : State) (items : List TxItem) : (s.send items).env = s.env := rfl
@[simp] theorem send_params (s : State) (items : List TxItem) : (s.send items).params = s.params := rfl

@[simp] theorem receive_tap (s : State) (items : List RxItem) : (s.receive items).tap = s.tap := rfl
@[simp] theorem receive_phase (s : State) (items : List RxItem) : (s.receive items).phase = s.phase := rfl
@[simp] theorem receive_lines (s : State) (items : List RxItem) : (s.receive items).lines = s.lines := rfl
@[simp] theorem receive_err (s : State) (items : List RxItem) : (s.receive items).err = s.err := rfl
@[simp] theorem receive_chan (s : State) (items : List RxItem) : (s.receive items).chan = s.chan := rfl
@[simp] theorem receive_curSel (s : State) (items : List RxItem) : (s.receive items).curSel = s.curSel := rfl
@[simp] theorem receive_tx (s : State) (items : List RxItem) : (s.receive items).tx = s.tx := rfl
@[simp] theorem receive_rx (s : State) (items : List RxItem) : (s.receive items).rx = s.rx ++ items := rfl
@[simp] theorem receive_result (s : State) (items : List RxItem) : (s.receive items).result = s.result := rfl
@[simp] theorem receive_sink (s : State) (items : List RxItem) : (s.receive items).sink = s.sink := rfl
@[simp] theorem receive_inbox (s : State) (items : List RxItem) : (s.receive items).inbox = s.inbox := rfl
@[simp] theorem receive_env (s : State) (items : List RxItem) : (s.receive items).env = s.env := rfl
@[simp] theorem receive_params (s : State) (items : List RxItem) : (s.receive items).params = s.params := rfl

@[simp] theorem emit_tap (s : State) (xs : List SweepSample) : (s.emit xs).tap = s.tap := rfl
@[simp] theorem emit_phase (s : State) (xs : List SweepSample) : (s.emit xs).phase = s.phase := rfl
@[simp] theorem emit_lines (s : State) (xs : List SweepSample) : (s.emit xs).lines = s.lines := rfl
@[simp] theorem emit_err (s : State) (xs : List SweepSample) : (s.emit xs).err = s.err := rfl
@[simp] theorem emit_chan (s : State) (xs : List SweepSample) : (s.emit xs).chan = s.chan := rfl
@[simp] theorem emit_curSel (s : State) (xs : List SweepSample) : (s.emit xs).curSel = s.curSel := rfl
@[simp] theorem emit_tx (s : State) (xs : List SweepSample) : (s.emit xs).tx = s.tx := rfl
@[simp] theorem emit_rx (s : State) (xs : List SweepSample) : (s.emit xs).rx = s.rx := rfl
@[simp] theorem emit_result (s : State) (xs : List SweepSample) : (s.emit xs).result = s.result := rfl
@[simp] theorem emit_sink (s : State) (xs : List SweepSample) : (s.emit xs).sink = s.sink ++ xs := rfl
@[simp] theorem emit_inbox (s : State) (xs : List SweepSample) : (s.emit xs).inbox = s.inbox := rfl
@[simp] theorem emit_env (s : State) (xs : List SweepSample) : (s.emit xs).env = s.env := rfl
@[simp] theorem emit_params (s : State) (xs : List SweepSample) : (s.emit xs).params = s.params := rfl

@[simp] theorem afterWrite_writes (e : Env) : e.afterWrite.writes = e.writes.tail := rfl
@[simp] theorem afterWrite_reads (e : Env) : e.afterWrite.reads = e.reads := rfl
@[simp] theorem afterWrite_engine (e : Env) : e.afterWrite.engine = e.engine := rfl
@[simp] theorem afterWrite_asked (e : Env) : e.afterWrite.asked = e.asked + 1 := rfl
@[simp] theorem afterRead_writes (e : Env) : e.afterRead.writes = e.writes := rfl
@[simp] theorem afterRead_reads (e : Env) : e.afterRead.reads = e.reads.tail := rfl
@[simp] theorem afterRead_engine (e : Env) : e.afterRead.engine = e.engine := rfl
@[simp] theorem afterRead_asked (e : Env) : e.afterRead.asked = e.asked + 1 := rfl
@[simp] theorem afterEngine_writes (e : Env) : e.afterEngine.writes = e.writes := rfl
@[simp] theorem afterEngine_reads (e : Env) : e.afterEngine.reads = e.reads := rfl
@[simp] theorem afterEngine_engine (e : Env) : e.afterEngine.engine = e.engine.tail := rfl
@[simp] theorem afterEngine_asked (e : Env) : e.afterEngine.asked = e.asked + 1 := rfl

/-! The spec's elements of the reset state (R45). -/

@[simp] theorem reset_tap : State.reset.tap = .unknown := rfl
@[simp] theorem reset_phase : State.reset.phase = .idle := rfl
@[simp] theorem reset_err : State.reset.err = .none := rfl
@[simp] theorem reset_chan : State.reset.chan = .closed := rfl
@[simp] theorem reset_curSel : State.reset.curSel = none := rfl
@[simp] theorem reset_tx : State.reset.tx = [] := rfl
@[simp] theorem reset_rx : State.reset.rx = [] := rfl
@[simp] theorem reset_params : State.reset.params = Config.params := rfl

end Sys2Proof.Machine
end

