-- ==== Sys2Proof/Laws/Ops.lean ====
section
/-! SUPPORT. What each shared operation can do, said once: its equations, and its effect on the invariant parts of
the state. Later proofs cite these and do not unfold the operations. -/

namespace Sys2Proof.Machine

/-! ### Answers -/

@[simp] theorem bind_ok {α β : Type} (a : α) (s : State) (f : α → State → Res β) :
    (Res.ok a s).bind f = f a s := rfl
@[simp] theorem bind_raised {α β : Type} (s : State) (f : α → State → Res β) :
    (Res.raised s : Res α).bind f = .raised s := rfl
@[simp] theorem bind_refused {α β : Type} (r : Refusal) (f : α → State → Res β) :
    (Res.refused r : Res α).bind f = .refused r := rfl
@[simp] theorem bind_stuck {α β : Type} (x : Fault) (f : α → State → Res β) :
    (Res.stuck x : Res α).bind f = .stuck x := rfl

theorem bind_assoc {α β γ : Type} (r : Res α) (f : α → State → Res β) (g : β → State → Res γ) :
    (r.bind f).bind g = r.bind fun a s => (f a s).bind g := by
  cases r <;> rfl

@[simp] theorem deliver_ok {α : Type} (a : α) (s : State) (f : α → Result) :
    (Res.ok a s).deliver f = .next (s.setResult (f a)) := rfl
@[simp] theorem deliver_raised {α : Type} (s : State) (f : α → Result) :
    (Res.raised s : Res α).deliver f = .next (s.setResult .none) := rfl
@[simp] theorem deliver_refused {α : Type} (r : Refusal) (f : α → Result) :
    (Res.refused r : Res α).deliver f = .refused r := rfl
@[simp] theorem deliver_stuck {α : Type} (x : Fault) (f : α → Result) :
    (Res.stuck x : Res α).deliver f = .fault x := rfl

@[simp] theorem ofExcept_ok {α : Type} (a : α) (s : State) : ofExcept (.ok a) s = .ok a s := rfl
@[simp] theorem ofExcept_error {α : Type} (r : Refusal) (s : State) :
    (ofExcept (.error r) s : Res α) = .refused r := rfl

@[simp] theorem accept_none {α : Type} (k : Res α) : accept none k = k := rfl
@[simp] theorem accept_some {α : Type} (r : Refusal) (k : Res α) : accept (some r) k = .refused r := rfl

@[simp] theorem forEach_nil {α : Type} (f : α → State → Res Unit) (s : State) : forEach f [] s = .ok () s := rfl
@[simp] theorem forEach_cons {α : Type} (f : α → State → Res Unit) (x : α) (xs : List α) (s : State) :
    forEach f (x :: xs) s = (f x s).bind fun _ s' => forEach f xs s' := rfl

/-- If an answer is a value, `P` holds of it and its state; if it is an abort, `Q` holds of the state left. -/
def Res.sat {α : Type} (r : Res α) (P : α → State → Prop) (Q : State → Prop) : Prop :=
  match r with
  | .ok a s => P a s
  | .raised s => Q s
  | .refused _ => True
  | .stuck _ => True

@[simp] theorem sat_ok {α : Type} (a : α) (s : State) (P : α → State → Prop) (Q : State → Prop) :
    (Res.ok a s).sat P Q ↔ P a s := Iff.rfl
@[simp] theorem sat_raised {α : Type} (s : State) (P : α → State → Prop) (Q : State → Prop) :
    (Res.raised s : Res α).sat P Q ↔ Q s := Iff.rfl
@[simp] theorem sat_refused {α : Type} (r : Refusal) (P : α → State → Prop) (Q : State → Prop) :
    (Res.refused r : Res α).sat P Q ↔ True := Iff.rfl
@[simp] theorem sat_stuck {α : Type} (x : Fault) (P : α → State → Prop) (Q : State → Prop) :
    (Res.stuck x : Res α).sat P Q ↔ True := Iff.rfl

/-- A sequence satisfies what its second part satisfies from wherever the first one leads. -/
theorem sat_bind {α β : Type} {r : Res α} {f : α → State → Res β} {P : α → State → Prop} {Q : State → Prop}
    {P' : β → State → Prop} {Q' : State → Prop} (h : r.sat P Q) (hq : ∀ s, Q s → Q' s)
    (hf : ∀ a s, P a s → (f a s).sat P' Q') : (r.bind f).sat P' Q' := by
  cases r with
  | ok a s => exact hf a s h
  | raised s => exact hq s h
  | refused _ => trivial
  | stuck _ => trivial

theorem sat_mono {α : Type} {r : Res α} {P P' : α → State → Prop} {Q Q' : State → Prop} (h : r.sat P Q)
    (hp : ∀ a s, P a s → P' a s) (hq : ∀ s, Q s → Q' s) : r.sat P' Q' := by
  cases r with
  | ok a s => exact hp a s h
  | raised s => exact hq s h
  | refused _ => trivial
  | stuck _ => trivial

/-- What a delivered answer can be: the value's state with the result set, or the abort's state without one. -/
theorem deliver_next {α : Type} {r : Res α} {f : α → Result} {t : State} (h : r.deliver f = .next t) :
    (∃ a s, r = .ok a s ∧ t = s.setResult (f a)) ∨ (∃ s, r = .raised s ∧ t = s.setResult .none) := by
  cases r with
  | ok a s => left; exact ⟨a, s, rfl, by simpa using h.symm⟩
  | raised s => right; exact ⟨s, rfl, by simpa using h.symm⟩
  | refused r => simp at h
  | stuck x => simp at h

/-! ### Acceptance -/

@[simp] theorem notLive_of_live {s : State} (h : s.Live) : s.notLive = none := by
  simp [State.notLive, h.1, h.2]

theorem live_of_notLive {s : State} (h : s.notLive = none) : s.Live := by
  unfold State.notLive at h
  split at h
  · split at h
    · exact ⟨‹_›, ‹_›⟩
    · simp at h
  · simp at h

@[simp] theorem latched_of_none {s : State} (h : s.err = .none) : s.latched = none := by
  simp [State.latched, h]

theorem none_of_latched {s : State} (h : s.latched = none) : s.err = .none := by
  unfold State.latched at h
  split at h
  · assumption
  · simp at h

/-- An accepted command was live. -/
theorem sat_accept_live {α : Type} {s : State} {k : Res α} {P : α → State → Prop} {Q : State → Prop}
    (h : s.Live → k.sat P Q) : (accept s.notLive k).sat P Q := by
  cases hn : s.notLive with
  | none => exact h (live_of_notLive hn)
  | some r => trivial

theorem sat_accept {α : Type} {no : Option Refusal} {k : Res α} {P : α → State → Prop} {Q : State → Prop}
    (h : no = none → k.sat P Q) : (accept no k).sat P Q := by
  cases no with
  | none => exact h rfl
  | some r => trivial

/-! ### What every operation keeps -/

/-- What no operation of the scan master touches, and the histories it only appends to (R27). -/
structure Grows (s t : State) : Prop where
  params : t.params = s.params
  inbox : t.inbox = s.inbox
  result : t.result = s.result
  tx : s.tx <+: t.tx
  rx : s.rx <+: t.rx
  sink : s.sink <+: t.sink

theorem Grows.rfl' (s : State) : Grows s s :=
  ⟨rfl, rfl, rfl, List.prefix_refl _, List.prefix_refl _, List.prefix_refl _⟩

theorem Grows.trans {s t u : State} (h : Grows s t) (h' : Grows t u) : Grows s u :=
  ⟨h'.params.trans h.params, h'.inbox.trans h.inbox, h'.result.trans h.result,
    h.tx.trans h'.tx, h.rx.trans h'.rx, h.sink.trans h'.sink⟩

/-- A state between the operations of one command: live, and without a selection where the TAP is unknown or in
Test-Logic-Reset. -/
def Running (s : State) : Prop :=
  s.Live ∧ (s.tap = .unknown ∨ s.tap = .testLogicReset → s.curSel = none)

/-- What an abort leaves (R340, R341). -/
def Aborted (s : State) : Prop :=
  s.err ≠ .none ∧ s.chan = .closed ∧ s.tap = .unknown ∧ s.curSel = none

/-- An operation that runs inside a live command: it ends running, in the phase it began in, or aborts. -/
def RunsOn {α : Type} (s : State) (r : Res α) : Prop :=
  r.sat (fun _ t => Running t ∧ t.phase = s.phase ∧ Grows s t) (fun t => Aborted t ∧ Grows s t)

theorem runsOn_ok {α : Type} {s : State} (h : Running s) (a : α) : RunsOn s (Res.ok a s) :=
  ⟨h, rfl, Grows.rfl' s⟩

theorem RunsOn.bind {α β : Type} {s : State} {r : Res α} {f : α → State → Res β} (h : RunsOn s r)
    (hf : ∀ a t, Running t → t.phase = s.phase → Grows s t → RunsOn t (f a t)) : RunsOn s (r.bind f) := by
  refine sat_bind h (fun t ht => ht) fun a t ht => ?_
  refine sat_mono (hf a t ht.1 ht.2.1 ht.2.2) (fun b u hu => ?_) (fun u hu => ?_)
  · exact ⟨hu.1, hu.2.1.trans ht.2.1, ht.2.2.trans hu.2.2⟩
  · exact ⟨hu.1, ht.2.2.trans hu.2⟩

/-- One engine call moves nothing but the histories and the answers (R64). -/
theorem engineCall_sat (c : EngineCall) (s : State) :
    (engineCall c s).sat
      (fun _ t => Grows s t ∧ t.tap = s.tap ∧ t.phase = s.phase ∧ t.lines = s.lines ∧ t.err = s.err
        ∧ t.chan = s.chan ∧ t.curSel = s.curSel ∧ t.sink = s.sink) (fun _ => False) := by
  unfold engineCall
  cases s.engineAnswer c with
  | done bits =>
    refine ⟨⟨rfl, rfl, rfl, ?_, ?_, List.prefix_refl _⟩, rfl, rfl, rfl, rfl, rfl, rfl, rfl⟩
    · simp
    · simp
  | failed =>
    refine ⟨⟨rfl, rfl, rfl, ?_, List.prefix_refl _, List.prefix_refl _⟩, rfl, rfl, rfl, rfl, rfl, rfl, rfl⟩
    simp
  | silent => trivial

/-- The release leaves a closed channel and nothing tracked; a closed channel it leaves alone (R189). -/
theorem closeTransport_sat (s : State) :
    (closeTransport s).sat
      (fun _ t => Grows s t ∧ t.err = s.err ∧ t.phase = s.phase ∧ t.lines = s.lines ∧ t.sink = s.sink
        ∧ t.chan = .closed ∧ (s.chan = .closed → t = s) ∧ (s.chan = .opened → t.tap = .unknown ∧ t.curSel = none))
      (fun _ => False) := by
  unfold closeTransport
  cases hc : s.chan with
  | closed => exact ⟨Grows.rfl' s, rfl, rfl, rfl, rfl, hc, fun _ => rfl, fun h => by simp at h⟩
  | opened =>
    cases s.params.backend with
    | raw =>
      exact ⟨⟨rfl, rfl, rfl, List.prefix_refl _, List.prefix_refl _, List.prefix_refl _⟩, rfl, rfl, rfl, rfl, rfl,
        fun h => by simp at h, fun _ => ⟨rfl, rfl⟩⟩
    | engine =>
      refine sat_bind (engineCall_sat .close s) (fun _ h => h) fun a t h => ?_
      obtain ⟨hg, -, hp, hl, he, -, -, hs⟩ := h
      exact ⟨⟨hg.params, hg.inbox, hg.result, hg.tx, hg.rx, hg.sink⟩, he, hp, hl, hs, rfl,
        fun h => by simp at h, fun _ => ⟨rfl, rfl⟩⟩

/-- Every abort from a state whose channel is open, or closed with nothing tracked, leaves what R341 says. -/
theorem raise_sat {α : Type} (e : Err) (s : State) (he : e ≠ .none)
    (hs : s.chan = .closed → s.tap = .unknown ∧ s.curSel = none) (P : α → State → Prop) :
    (raise e s : Res α).sat P
      (fun t => Aborted t ∧ t.err = e ∧ t.phase = s.phase ∧ t.lines = s.lines ∧ Grows s t ∧ t.sink = s.sink) := by
  unfold raise
  refine sat_bind (closeTransport_sat (s.setErr e)) (fun _ h => h.elim) fun a t h => ?_
  obtain ⟨hg, h1, h2, h3, h4, h5, h6, h7⟩ := h
  have hg' : Grows s t := ⟨hg.params, hg.inbox, hg.result, hg.tx, hg.rx, hg.sink⟩
  have h1' : t.err = e := h1
  refine ⟨⟨by rw [h1']; exact he, h5, ?_, ?_⟩, h1', h2, h3, hg', h4⟩
  · cases hc : s.chan with
    | closed =>
      have ht := h6 hc
      subst ht
      exact (hs hc).1
    | opened => exact (h7 hc).1
  · cases hc : s.chan with
    | closed =>
      have ht := h6 hc
      subst ht
      exact (hs hc).2
    | opened => exact (h7 hc).2

theorem raise_runsOn {α : Type} {e : Err} {s : State} (he : e ≠ .none) (h : s.chan = .opened) :
    RunsOn s (raise e s : Res α) :=
  sat_mono (raise_sat e s he (fun hc => by simp [h] at hc) _) (fun _ _ h => h)
    (fun _ ht => ⟨ht.1, ht.2.2.2.2.1⟩)

/-- Moving the histories, lines and answers keeps a state running. -/
theorem Running.of_same {s t : State} (h : Running s) (he : t.err = s.err) (hc : t.chan = s.chan)
    (ht : t.tap = s.tap) (hx : t.curSel = s.curSel) : Running t := by
  obtain ⟨⟨h1, h2⟩, h3⟩ := h
  exact ⟨⟨he.trans h1, hc.trans h2⟩, by rw [ht, hx]; exact h3⟩

theorem engineDo_runsOn (cmd : Command) (c : EngineCall) {s : State} (h : Running s) :
    RunsOn s (engineDo cmd c s) := by
  unfold engineDo
  refine sat_bind (engineCall_sat c s) (fun _ h => h.elim) fun a t ht => ?_
  obtain ⟨hg, h1, h2, h3, h4, h5, h6, h7⟩ := ht
  have hr : Running t := h.of_same h4 h5 h1 h6
  cases a with
  | some bits => exact ⟨hr, h2, hg⟩
  | none =>
    exact sat_mono (raise_runsOn (by simp) hr.1.2) (fun _ _ hu => ⟨hu.1, hu.2.1.trans h2, hg.trans hu.2.2⟩)
      (fun _ hu => ⟨hu.1, hg.trans hu.2⟩)

theorem bbXfer_runsOn (cmd : Command) (bytes : List Byte) {s : State} (h : Running s) :
    RunsOn s (bbXfer cmd bytes s) := by
  have hw : (txWrite bytes s).sat (fun _ t => Running t ∧ t.phase = s.phase ∧ Grows s t) (fun _ => False) := by
    have hg : Grows s (((s.send (bytes.map .byte)).setLines (linesAfter s.params s.lines bytes)).setEnv
        s.env.afterWrite) := ⟨rfl, rfl, rfl, by simp, List.prefix_refl _, List.prefix_refl _⟩
    unfold txWrite
    cases s.writeAnswer bytes with
    | accepted n => exact ⟨h.of_same rfl rfl rfl rfl, rfl, hg⟩
    | failed => exact ⟨h.of_same rfl rfl rfl rfl, rfl, hg⟩
    | silent => trivial
  have hr : ∀ (n : Nat) (t : State), Running t →
      (rxRead n t).sat (fun _ u => Running u ∧ u.phase = t.phase ∧ Grows t u) (fun _ => False) := by
    intro n t ht
    unfold rxRead
    cases t.readAnswer n with
    | returned bs =>
      exact ⟨ht.of_same rfl rfl rfl rfl, rfl, ⟨rfl, rfl, rfl, List.prefix_refl _, by simp, List.prefix_refl _⟩⟩
    | failed =>
      exact ⟨ht.of_same rfl rfl rfl rfl, rfl,
        ⟨rfl, rfl, rfl, List.prefix_refl _, List.prefix_refl _, List.prefix_refl _⟩⟩
    | silent => trivial
  unfold bbXfer
  refine RunsOn.bind (sat_mono hw (fun _ _ h => h) (fun _ h => h.elim)) fun count t ht _ _ => ?_
  split
  · refine RunsOn.bind (sat_mono (hr _ t ht) (fun _ _ h => h) (fun _ h => h.elim)) fun rd u hu _ _ => ?_
    cases rd with
    | none => exact raise_runsOn (by simp) hu.1.2
    | some bs =>
      dsimp only
      split
      · exact runsOn_ok hu bs
      · exact raise_runsOn (by simp) hu.1.2
  · exact raise_runsOn (by simp) ht.1.2

/-! ### Cycles -/

@[simp] theorem clockTap_tap (s : State) (tms : Bool) : (clockTap s tms).tap = tapNext s.tap tms := by
  unfold clockTap; dsimp only; split <;> rfl
@[simp] theorem clockTap_phase (s : State) (tms : Bool) : (clockTap s tms).phase = s.phase := by
  unfold clockTap; dsimp only; split <;> rfl
@[simp] theorem clockTap_lines (s : State) (tms : Bool) : (clockTap s tms).lines = s.lines := by
  unfold clockTap; dsimp only; split <;> rfl
@[simp] theorem clockTap_err (s : State) (tms : Bool) : (clockTap s tms).err = s.err := by
  unfold clockTap; dsimp only; split <;> rfl
@[simp] theorem clockTap_chan (s : State) (tms : Bool) : (clockTap s tms).chan = s.chan := by
  unfold clockTap; dsimp only; split <;> rfl
@[simp] theorem clockTap_curSel (s : State) (tms : Bool) :
    (clockTap s tms).curSel = if tapNext s.tap tms = .testLogicReset then none else s.curSel := by
  unfold clockTap; dsimp only; split <;> rfl
theorem clockTap_grows (s : State) (tms : Bool) : Grows s (clockTap s tms) := by
  unfold clockTap; dsimp only
  split <;> exact ⟨rfl, rfl, rfl, List.prefix_refl _, List.prefix_refl _, List.prefix_refl _⟩

theorem tapNext_unknown_iff (t : TapState) (tms : Bool) : tapNext t tms = .unknown ↔ t = .unknown := by
  cases t <;> cases tms <;> simp [tapNext]

theorem clockTap_running {s : State} (h : Running s) (tms : Bool) : Running (clockTap s tms) := by
  obtain ⟨⟨h1, h2⟩, h3⟩ := h
  refine ⟨⟨by simpa using h1, by simpa using h2⟩, ?_⟩
  simp only [clockTap_tap, clockTap_curSel, tapNext_unknown_iff]
  intro h
  split
  · rfl
  · rcases h with h | h
    · exact h3 (.inl h)
    · contradiction

/-- A list of cycles is one call of `clockTap` after another; `clockAll_spec` says what that does. -/
theorem clockAll_spec (cycles : List (Bool × Bool)) {s : State} (h : Running s) :
    Running (clockAll cycles s) ∧ (clockAll cycles s).phase = s.phase ∧ Grows s (clockAll cycles s) := by
  induction cycles generalizing s with
  | nil => exact ⟨h, rfl, Grows.rfl' s⟩
  | cons c cs ih =>
    obtain ⟨h1, h2, h3⟩ := ih (clockTap_running h c.1)
    exact ⟨h1, h2.trans (by simp), (clockTap_grows s c.1).trans h3⟩

theorem runCycles_runsOn (cmd : Command) (cycles : List (Bool × Bool)) {s : State} (h : Running s) :
    RunsOn s (runCycles cmd cycles s) := by
  unfold runCycles
  refine sat_accept_live fun _ => ?_
  split
  · exact runsOn_ok h _
  · refine RunsOn.bind (bbXfer_runsOn cmd _ h) fun rd t ht _ _ => ?_
    split
    · trivial
    · obtain ⟨h1, h2, h3⟩ := clockAll_spec cycles ht
      exact ⟨h1.of_same rfl rfl rfl rfl, h2, ⟨h3.params, h3.inbox, h3.result, h3.tx, h3.rx, h3.sink⟩⟩

theorem walk_runsOn (cmd : Command) (seq : Bits) {s : State} (h : Running s) : RunsOn s (walk cmd seq s) :=
  RunsOn.bind (runCycles_runsOn cmd _ h) fun _ _ ht _ _ => runsOn_ok ht ()

/-! ### The commands of the TAP controller and the scan controller -/

theorem tapReset_runsOn (cmd : Command) {s : State} (h : Running s) : RunsOn s (tapReset cmd s) := by
  have last : ∀ (t : State), Running t → RunsOn t (Res.ok () ((t.setTap .runTestIdle).setCurSel none)) :=
    fun t ht => ⟨⟨ht.1, fun _ => rfl⟩, rfl,
      ⟨rfl, rfl, rfl, List.prefix_refl _, List.prefix_refl _, List.prefix_refl _⟩⟩
  unfold tapReset
  refine sat_accept_live fun _ => ?_
  split
  · refine RunsOn.bind (runCycles_runsOn cmd _ h) fun _ t ht _ _ => ?_
    split
    · exact last t ht
    · exact ⟨⟨ht.1, fun _ => rfl⟩, rfl,
        ⟨rfl, rfl, rfl, List.prefix_refl _, List.prefix_refl _, List.prefix_refl _⟩⟩
  · exact RunsOn.bind (engineDo_runsOn cmd _ h) fun _ t ht _ _ =>
      RunsOn.bind (engineDo_runsOn cmd _ ht) fun _ u hu _ _ => last u hu

/-- Setting the tracked TAP state to one that is neither unknown nor Test-Logic-Reset keeps a state running. -/
theorem setTap_runsOn {s : State} (h : Running s) {t : TapState} (h1 : t ≠ .unknown) (h2 : t ≠ .testLogicReset) :
    RunsOn s (Res.ok () (s.setTap t)) :=
  ⟨⟨h.1, fun ht => by rcases ht with ht | ht <;> simp at ht <;> contradiction⟩, rfl,
    ⟨rfl, rfl, rfl, List.prefix_refl _, List.prefix_refl _, List.prefix_refl _⟩⟩

/-- `trackTo` moves `tap` to `name`, may lose the selection, and does nothing else. -/
theorem trackTo_runsOn {s : State} (h : Running s) {name : TapState} (hn : name ≠ .unknown) :
    RunsOn s (Res.ok () (trackTo name s)) := by
  obtain ⟨h1, h2, h3⟩ := clockAll_spec (walkCycles (tapPath s.tap name)) h
  unfold trackTo
  dsimp only
  split
  · exact ⟨⟨h1.1, fun _ => rfl⟩, h2, ⟨h3.params, h3.inbox, h3.result, h3.tx, h3.rx, h3.sink⟩⟩
  · exact ⟨(setTap_runsOn h1 hn ‹_›).1, h2, ⟨h3.params, h3.inbox, h3.result, h3.tx, h3.rx, h3.sink⟩⟩

theorem goIdle_runsOn (cmd : Command) {s : State} (h : Running s) : RunsOn s (goIdle cmd s) := by
  unfold goIdle
  refine sat_accept_live fun _ => ?_
  split
  · trivial
  · split
    · exact walk_runsOn cmd _ h
    · exact RunsOn.bind (engineDo_runsOn cmd _ h) fun _ t ht _ _ => trackTo_runsOn ht (by simp)

theorem changeState_runsOn (cmd : Command) (name : TapState) (hn : name ≠ .unknown) {s : State} (h : Running s) :
    RunsOn s (changeState cmd name s) := by
  unfold changeState
  refine sat_accept_live fun _ => ?_
  split
  · trivial
  · split
    · exact walk_runsOn cmd _ h
    · exact RunsOn.bind (engineDo_runsOn cmd _ h) fun _ t ht _ _ => trackTo_runsOn ht hn

theorem writeIr_runsOn (cmd : Command) (w : Bits) {s : State} (h : Running s) : RunsOn s (writeIr cmd w s) := by
  unfold writeIr
  refine sat_accept_live fun _ => sat_accept fun _ => ?_
  split
  · exact RunsOn.bind (runCycles_runsOn cmd _ h) fun _ t ht _ _ => runsOn_ok ht ()
  · exact RunsOn.bind (engineDo_runsOn cmd _ h) fun _ t ht _ _ => setTap_runsOn ht (by simp) (by simp)

theorem writeDr_runsOn (cmd : Command) (w : Bits) {s : State} (h : Running s) : RunsOn s (writeDr cmd w s) := by
  unfold writeDr
  refine sat_accept_live fun _ => sat_accept fun _ => ?_
  split
  · exact RunsOn.bind (runCycles_runsOn cmd _ h) fun tdos t ht _ _ => runsOn_ok ht _
  · refine RunsOn.bind (engineDo_runsOn cmd _ h) fun r t ht _ _ => ?_
    split
    · exact ⟨(setTap_runsOn ht (t := .runTestIdle) (by simp) (by simp)).1, rfl,
        ⟨rfl, rfl, rfl, List.prefix_refl _, List.prefix_refl _, List.prefix_refl _⟩⟩
    · exact raise_runsOn (by simp) ht.1.2

theorem afterHwReset_spec (hw tapr : Bool) {s : State} (h : Running s) :
    Running (afterHwReset hw tapr s) ∧ (afterHwReset hw tapr s).phase = s.phase
      ∧ Grows s (afterHwReset hw tapr s) := by
  obtain ⟨h1, h2⟩ := h
  have hg : Grows s (afterHwReset hw tapr s) := by
    cases hw <;> cases tapr <;>
      exact ⟨rfl, rfl, rfl, List.prefix_refl _, List.prefix_refl _, List.prefix_refl _⟩
  refine ⟨?_, ?_, hg⟩ <;> cases hw <;> cases tapr <;>
    first | rfl | exact ⟨h1, h2⟩ | exact ⟨h1, fun _ => rfl⟩

theorem hwReset_runsOn (cmd : Command) (hw tapr : Bool) {s : State} (h : Running s) :
    RunsOn s (hwReset cmd hw tapr s) := by
  unfold hwReset
  refine sat_accept_live fun _ => ?_
  split
  · exact runsOn_ok h ()
  · split
    · trivial
    · split
      · exact RunsOn.bind (bbXfer_runsOn cmd _ h) fun _ t ht _ _ => afterHwReset_spec hw tapr ht
      · exact RunsOn.bind (engineDo_runsOn cmd _ h) fun _ t ht _ _ => afterHwReset_spec hw tapr ht

theorem padIr_runsOn (op : Bits) (pos n : Nat) {s : State} (h : Running s) : RunsOn s (padIr op pos n s) := by
  unfold padIr
  split
  · split
    · exact runsOn_ok h _
    · exact raise_runsOn (by simp) h.1.2
  · trivial

theorem padDr_runsOn (v : Bits) (blk : Blk) (pos n : Nat) {s : State} (h : Running s) :
    RunsOn s (padDr v blk pos n s) := by
  unfold padDr
  split
  · split
    · exact runsOn_ok h _
    · exact raise_runsOn (by simp) h.1.2
  · trivial

/-- A register write that succeeds ends in Run-Test/Idle on the ENGINE backend, and on RAW where its cycles lead. An
IR write that succeeds leaves the TAP where a selection may stand. -/
theorem tapWalk_unknown (seq : Bits) : tapWalk .unknown seq = .unknown := by
  induction seq with
  | nil => rfl
  | cons b bs ih => cases b <;> exact ih

@[simp] theorem tapWalk_nil (t : TapState) : tapWalk t [] = t := rfl
@[simp] theorem tapWalk_cons (t : TapState) (b : Bool) (bs : Bits) :
    tapWalk t (b :: bs) = tapWalk (tapNext t b) bs := rfl
theorem tapWalk_append (t : TapState) (a b : Bits) : tapWalk t (a ++ b) = tapWalk (tapWalk t a) b := by
  simp [tapWalk]

@[simp] theorem clockAll_nil (s : State) : clockAll [] s = s := rfl
@[simp] theorem clockAll_cons (c : Bool × Bool) (cs : List (Bool × Bool)) (s : State) :
    clockAll (c :: cs) s = clockAll cs (clockTap s c.1) := rfl

theorem clockAll_tap (cycles : List (Bool × Bool)) (s : State) :
    (clockAll cycles s).tap = tapWalk s.tap (cycles.map Prod.fst) := by
  induction cycles generalizing s with
  | nil => rfl
  | cons c cs ih => rw [clockAll_cons, ih, List.map_cons, tapWalk_cons, clockTap_tap]

/-- The data cycles of a shift leave Shift-DR, or Shift-IR, for Exit1 with the last bit (R378). -/
theorem tapWalk_dataCycles (w : Bits) (hw : w ≠ []) :
    tapWalk .shiftIR ((dataCycles w).map Prod.fst) = .exit1IR
    ∧ tapWalk .shiftDR ((dataCycles w).map Prod.fst) = .exit1DR := by
  induction w with
  | nil => contradiction
  | cons b bs ih =>
    cases bs with
    | nil => exact ⟨rfl, rfl⟩
    | cons c cs =>
      obtain ⟨h1, h2⟩ := ih (by simp)
      exact ⟨h1, h2⟩

theorem map_walkCycles (seq : Bits) : (walkCycles seq).map Prod.fst = seq := by
  simp [walkCycles, Function.comp_def]

/-- From Run-Test/Idle a register write's cycles lead back to Run-Test/Idle (R184). -/
theorem tapWalk_writeIr (w : Bits) (hw : w ≠ []) :
    tapWalk .runTestIdle ((writeIrCycles w).map Prod.fst) = .runTestIdle := by
  simp only [writeIrCycles, List.map_append, map_walkCycles, tapWalk_append]
  have h : tapWalk .runTestIdle preIr = .shiftIR := rfl
  rw [h, (tapWalk_dataCycles w hw).1]
  rfl

theorem tapWalk_writeDr (w : Bits) (hw : w ≠ []) :
    tapWalk .runTestIdle ((writeDrCycles w).map Prod.fst) = .runTestIdle := by
  simp only [writeDrCycles, List.map_append, map_walkCycles, tapWalk_append]
  have h : tapWalk .runTestIdle preDr = .shiftDR := rfl
  rw [h, (tapWalk_dataCycles w hw).2]
  rfl

end Sys2Proof.Machine
end

