-- ==== Sys2Proof/Laws/Frames.lean ====
section
/-! SUPPORT. What a transfer and a frame do when the transport answers in full: equations, one per shared operation. -/

namespace Sys2Proof.Machine

/-! ### Samples -/

theorem pinBit_getLsbD (a b : Fin 8) (x : Bool) : (pinBit a x).getLsbD b.val = (x && decide (a = b)) := by
  revert a b x; decide

/-- The pins are distinct in a legal set of parameters (R10). -/
theorem wf_pins {p : Params} (h : p.wf = true) : [p.pinTck, p.pinTdi, p.pinTdo, p.pinTms, p.pinRst].Nodup := by
  simp only [Params.wf, Bool.and_eq_true, decide_eq_true_eq] at h
  exact h.1.1.1.1.1.1.1.1.2

/-- Each level of a sample stands at its pin and nowhere else (R222). -/
theorem sampleByte_levels {p : Params} (h : p.wf = true) (tck tms tdi rst : Bool) :
    (sampleByte p tck tms tdi rst).getLsbD p.pinTck.val = tck
    ∧ (sampleByte p tck tms tdi rst).getLsbD p.pinTms.val = tms
    ∧ (sampleByte p tck tms tdi rst).getLsbD p.pinTdi.val = tdi
    ∧ (sampleByte p tck tms tdi rst).getLsbD p.pinTdo.val = false
    ∧ (sampleByte p tck tms tdi rst).getLsbD p.pinRst.val = (p.hasRst && rst) := by
  have hp := wf_pins h
  simp only [List.nodup_cons, List.mem_cons, List.not_mem_nil, not_or, or_false] at hp
  obtain ⟨⟨h1, h2, h3, h4⟩, ⟨h5, h6, h7⟩, ⟨h8, h9⟩, h10, -⟩ := hp
  have hr : ∀ b : Fin 8, (if p.hasRst = true then pinBit p.pinRst rst else 0#8).getLsbD b.val
      = (p.hasRst && rst && decide (p.pinRst = b)) := by
    intro b; cases p.hasRst <;> simp only [if_true, Bool.false_eq_true, if_false, pinBit_getLsbD, Bool.true_and,
      Bool.false_and, BitVec.getLsbD_zero]
  refine ⟨?_, ?_, ?_, ?_, ?_⟩ <;>
    simp only [sampleByte, BitVec.getLsbD_or, pinBit_getLsbD, hr, h1, h2, h3, h4, h5, h6, h7, h10,
      Ne.symm h1, Ne.symm h3, Ne.symm h4, Ne.symm h6, Ne.symm h7, Ne.symm h8, Ne.symm h9,
      Ne.symm h10, decide_true, decide_false, Bool.and_true, Bool.and_false, Bool.or_false, Bool.false_or]

theorem sampleLevels_sampleByte {p : Params} (h : p.wf = true) (old : Lines) (tck tms tdi rst : Bool) :
    sampleLevels p old (sampleByte p tck tms tdi rst)
      = { tck := tck, tms := tms, tdi := tdi, rst := if p.hasRst then rst else old.rst } := by
  obtain ⟨h1, h2, h3, -, h5⟩ := sampleByte_levels h tck tms tdi rst
  simp only [sampleLevels, h1, h2, h3, h5]
  cases p.hasRst <;> simp

/-! ### Cycles as bytes -/

@[simp] theorem length_cycleBytes (p : Params) (c : Bool × Bool) : (cycleBytes p c).length = 2 := rfl

theorem length_flatMap_cycleBytes (p : Params) (cs : List (Bool × Bool)) :
    (cs.flatMap (cycleBytes p)).length = 2 * cs.length := by
  induction cs with
  | nil => rfl
  | cons c cs ih => simp [ih]; omega

theorem getLast?_flatMap_cycleBytes (p : Params) (cs : List (Bool × Bool)) :
    (cs.flatMap (cycleBytes p)).getLast? = cs.getLast?.map fun c => sampleByte p true c.1 c.2 p.rstInactive := by
  induction cs with
  | nil => rfl
  | cons c cs ih =>
    cases cs with
    | nil => rfl
    | cons d ds =>
      rw [List.flatMap_cons, List.getLast?_append, ih, List.getLast?_cons_cons,
        List.getLast?_eq_some_getLast (List.cons_ne_nil d ds)]
      rfl

/-- A frame of `c` cycles is `2 c + RX_LAG` bytes (R225). -/
theorem length_expandCycles (p : Params) {cs : List (Bool × Bool)} (h : cs ≠ []) :
    (expandCycles p cs).length = 2 * cs.length + p.rxLag := by
  have hl := getLast?_flatMap_cycleBytes p cs
  rw [List.getLast?_eq_some_getLast h] at hl
  simp only [expandCycles, flush, hl, Option.map_some, List.length_append, length_flatMap_cycleBytes,
    List.length_replicate]

theorem getLast?_expandCycles (p : Params) {cs : List (Bool × Bool)} (h : cs ≠ []) :
    (expandCycles p cs).getLast? = some (sampleByte p true (cs.getLast h).1 (cs.getLast h).2 p.rstInactive) := by
  have hl := getLast?_flatMap_cycleBytes p cs
  rw [List.getLast?_eq_some_getLast h] at hl
  simp only [expandCycles, flush, hl, Option.map_some, List.getLast?_append, List.getLast?_replicate]
  split <;> simp

theorem expandCycles_ne_nil (p : Params) {cs : List (Bool × Bool)} (h : cs ≠ []) : expandCycles p cs ≠ [] := by
  intro hn
  have hl := length_expandCycles p h
  rw [hn, List.length_nil] at hl
  exact h (List.length_eq_zero_iff.mp (by omega))

/-! ### TDO -/

theorem tdoBits_zero (p : Params) (rd : List Byte) (first : Nat) : tdoBits p rd first 0 = [] := rfl

theorem tdoBits_succ (p : Params) (rd : List Byte) (first n : Nat) :
    tdoBits p rd first (n + 1)
      = (rd.getD (2 * first + 1 + p.rxLag) 0).getLsbD p.pinTdo.val :: tdoBits p rd (first + 1) n := by
  simp only [tdoBits, List.range_succ_eq_map, List.map_cons, List.map_map, Nat.add_zero]
  congr 1
  refine List.map_congr_left fun k _ => ?_
  simp only [Function.comp_apply, Nat.succ_eq_add_one]
  congr 3
  omega

@[simp] theorem length_tdoBits (p : Params) (rd : List Byte) (first n : Nat) :
    (tdoBits p rd first n).length = n := by simp [tdoBits]

/-- `BB_EXTRACT` of cycles that lie inside the frame (R232). -/
theorem extractTdo_eq (p : Params) (rd : List Byte) (first n : Nat)
    (h : 2 * (first + n) + p.rxLag ≤ rd.length + (if n = 0 then 2 * first + p.rxLag else 0)) :
    extractTdo p rd first n = some (tdoBits p rd first n) := by
  induction n generalizing first with
  | zero => rfl
  | succ n ih =>
    have hlt : 2 * first + 1 + p.rxLag < rd.length := by simp at h; omega
    have hx : tdoOfCycle p rd first = some ((rd.getD (2 * first + 1 + p.rxLag) 0).getLsbD p.pinTdo.val) := by
      simp [tdoOfCycle, hlt, List.getD_eq_getElem?_getD]
    rw [extractTdo, hx, tdoBits_succ]
    dsimp only
    rw [ih (first + 1)]
    · rfl
    · simp at h
      split <;> omega

/-! ### Tracking -/

theorem visitsReset_nil (t : TapState) : visitsReset t [] = false := rfl

theorem visitsReset_cons (t : TapState) (b : Bool) (bs : Bits) :
    visitsReset t (b :: bs) = (decide (tapNext t b = .testLogicReset) || visitsReset (tapNext t b) bs) := by
  simp only [visitsReset, List.length_cons, List.range_succ_eq_map, List.any_cons, List.any_map,
    List.take_succ_cons, tapWalk_cons, List.take_zero, tapWalk_nil]
  rfl

theorem clockAll_curSel (cycles : List (Bool × Bool)) (s : State) :
    (clockAll cycles s).curSel
      = if visitsReset s.tap (cycles.map Prod.fst) then none else s.curSel := by
  induction cycles generalizing s with
  | nil => rfl
  | cons c cs ih =>
    rw [clockAll_cons, ih, List.map_cons, visitsReset_cons, clockTap_tap, clockTap_curSel]
    by_cases h1 : tapNext s.tap c.1 = .testLogicReset <;>
      cases h2 : visitsReset (tapNext s.tap c.1) (cs.map Prod.fst) <;> simp [h1]

/-- A list of cycles moves `tap` along the walk and loses the selection in Test-Logic-Reset; nothing else. -/
theorem clockAll_eq (cycles : List (Bool × Bool)) (s : State) :
    clockAll cycles s = { s with
      tap := tapWalk s.tap (cycles.map Prod.fst)
      curSel := if visitsReset s.tap (cycles.map Prod.fst) then none else s.curSel } := by
  have h : ∀ (cs : List (Bool × Bool)) (u : State),
      clockAll cs u = { u with tap := (clockAll cs u).tap, curSel := (clockAll cs u).curSel } := by
    intro cs
    induction cs with
    | nil => intro u; rfl
    | cons c cs ih =>
      intro u
      rw [clockAll_cons, ih]
      simp only [clockTap]
      split <;> rfl
  rw [h, clockAll_tap, clockAll_curSel]

/-- What `trackTo` does: `tap` is `name`; the selection is lost where the shortest walk meets Test-Logic-Reset or the name
is that state; nothing else moves. -/
theorem trackTo_eq (name : TapState) (s : State) :
    trackTo name s = { s with
      tap := name
      curSel := if visitsReset s.tap (tapPath s.tap name) ∨ name = .testLogicReset then none else s.curSel } := by
  unfold trackTo
  simp only [clockAll_eq, map_walkCycles]
  by_cases h : name = .testLogicReset <;> simp [h, State.setTap, State.setCurSel]

/-! ### Transfers that go well -/

/-- `BB_XFER` of bytes the transport answers in full (R230). -/
theorem bbXfer_eq (cmd : Command) {bytes rd : List Byte} {s : State}
    (h : (Exchange.transfer bytes rd).answered s) :
    bbXfer cmd bytes s = .ok rd { Exchange.after s (.transfer bytes rd) with
      lines := linesAfter s.params s.lines bytes } := by
  obtain ⟨h1, h2, h3⟩ := h
  have hw : txWrite bytes s = .ok (some bytes.length)
      (((s.send (bytes.map .byte)).setLines (linesAfter s.params s.lines bytes)).setEnv s.env.afterWrite) := by
    simp only [txWrite, h1]
  have hr : State.readAnswer
      (((s.send (bytes.map .byte)).setLines (linesAfter s.params s.lines bytes)).setEnv s.env.afterWrite)
      bytes.length = .returned rd := h3
  simp only [bbXfer, hw, bind_ok, if_true, rxRead, hr, h2]
  rfl

/-- `RunCycles` of a frame the transport answers in full (R174). -/
theorem runCycles_eq (cmd : Command) {cycles : List (Bool × Bool)} {rd : List Byte} {s : State} (hs : s.Live)
    (hp : s.params.wf = true) (hc : cycles ≠ [])
    (h : (Exchange.transfer (expandCycles s.params cycles) rd).answered s) :
    runCycles cmd cycles s = .ok (tdoBits s.params rd 0 cycles.length) (frameDone s cycles rd) := by
  have hlen : rd.length = 2 * cycles.length + s.params.rxLag := h.2.1.trans (length_expandCycles _ hc)
  have hx : extractTdo s.params rd 0 cycles.length = some (tdoBits s.params rd 0 cycles.length) := by
    refine extractTdo_eq _ _ _ _ ?_
    simp [hlen]
  have hx' : extractTdo (Exchange.after s (.transfer (expandCycles s.params cycles) rd)).params rd 0 cycles.length
      = some (tdoBits s.params rd 0 cycles.length) := hx
  rw [runCycles, notLive_of_live hs, accept_none, if_neg hc, bbXfer_eq cmd h, bind_ok]
  simp only [hx']
  congr 1
  have hl := List.getLast?_eq_some_getLast hc
  have hd : cycles.getLastD (false, false) = cycles.getLast hc := by
    rw [List.getLastD_eq_getLast?, hl]; rfl
  simp only [afterCycles, clockAll_eq, frameDone, State.setLines, linesAfterCycles, hl, linesAfter,
    getLast?_expandCycles s.params hc, sampleLevels_sampleByte hp, restingLines, hd]
  rfl

/-- A walk the transport answers in full (R177). -/
theorem walk_eq (cmd : Command) {seq : Bits} {rd : List Byte} {s : State} (hs : s.Live) (hp : s.params.wf = true)
    (hc : seq ≠ []) (h : (Exchange.transfer (expandCycles s.params (walkCycles seq)) rd).answered s) :
    walk cmd seq s = .ok () (frameDone s (walkCycles seq) rd) := by
  have hne : walkCycles seq ≠ [] := by simpa [walkCycles] using hc
  rw [walk, runCycles_eq cmd hs hp hne h, bind_ok]

theorem walk_nil (cmd : Command) {s : State} (hs : s.Live) : walk cmd [] s = .ok () s := by
  simp [walk, runCycles, walkCycles, notLive_of_live hs]

/-- An engine call that is answered (R64). -/
theorem engineDo_eq (cmd : Command) {c : EngineCall} {bits : Bits} {s : State}
    (h : (Exchange.call c bits).answered s) :
    engineDo cmd c s = .ok bits (Exchange.after s (.call c bits)) := by
  have h' : s.engineAnswer c = .done bits := h
  simp only [engineDo, engineCall, h', bind_ok]
  rfl

end Sys2Proof.Machine
end

