-- ==== Sys2Proof/Laws/Scan.lean ====
section
/-! SUPPORT. What the register writes, TAP_RESET and the scan controller's commands do when the transport answers in
full, on both backends: equations. -/

namespace Sys2Proof.Machine

/-! ### Exchanges -/

@[simp] theorem after_tap (x : Exchange) (s : State) : (x.after s).tap = s.tap := by cases x <;> rfl
@[simp] theorem after_phase (x : Exchange) (s : State) : (x.after s).phase = s.phase := by cases x <;> rfl
@[simp] theorem after_lines (x : Exchange) (s : State) : (x.after s).lines = s.lines := by cases x <;> rfl
@[simp] theorem after_err (x : Exchange) (s : State) : (x.after s).err = s.err := by cases x <;> rfl
@[simp] theorem after_chan (x : Exchange) (s : State) : (x.after s).chan = s.chan := by cases x <;> rfl
@[simp] theorem after_curSel (x : Exchange) (s : State) : (x.after s).curSel = s.curSel := by cases x <;> rfl
@[simp] theorem after_result (x : Exchange) (s : State) : (x.after s).result = s.result := by cases x <;> rfl
@[simp] theorem after_sink (x : Exchange) (s : State) : (x.after s).sink = s.sink := by cases x <;> rfl
@[simp] theorem after_inbox (x : Exchange) (s : State) : (x.after s).inbox = s.inbox := by cases x <;> rfl
@[simp] theorem after_params (x : Exchange) (s : State) : (x.after s).params = s.params := by cases x <;> rfl

@[simp] theorem afterAll_nil (s : State) : afterAll s [] = s := rfl
@[simp] theorem afterAll_cons (s : State) (x : Exchange) (xs : List Exchange) :
    afterAll s (x :: xs) = afterAll (x.after s) xs := rfl
theorem afterAll_append (s : State) (xs ys : List Exchange) :
    afterAll s (xs ++ ys) = afterAll (afterAll s xs) ys := by simp [afterAll]

theorem answers_append (s : State) (xs ys : List Exchange) :
    Answers s (xs ++ ys) ↔ Answers s xs ∧ Answers (afterAll s xs) ys := by
  induction xs generalizing s with
  | nil => simp [Answers]
  | cons x xs ih => simp [Answers, ih, and_assoc]

/-- Everything but the histories and the answers is as it was. -/
theorem afterAll_same (s : State) (xs : List Exchange) :
    (afterAll s xs).tap = s.tap ∧ (afterAll s xs).phase = s.phase ∧ (afterAll s xs).lines = s.lines
    ∧ (afterAll s xs).err = s.err ∧ (afterAll s xs).chan = s.chan ∧ (afterAll s xs).curSel = s.curSel
    ∧ (afterAll s xs).result = s.result ∧ (afterAll s xs).sink = s.sink ∧ (afterAll s xs).inbox = s.inbox
    ∧ (afterAll s xs).params = s.params := by
  induction xs generalizing s with
  | nil => simp
  | cons x xs ih => simpa using ih (x.after s)

@[simp] theorem afterAll_tap (s : State) (xs : List Exchange) : (afterAll s xs).tap = s.tap :=
  (afterAll_same s xs).1
@[simp] theorem afterAll_phase (s : State) (xs : List Exchange) : (afterAll s xs).phase = s.phase :=
  (afterAll_same s xs).2.1
@[simp] theorem afterAll_lines (s : State) (xs : List Exchange) : (afterAll s xs).lines = s.lines :=
  (afterAll_same s xs).2.2.1
@[simp] theorem afterAll_err (s : State) (xs : List Exchange) : (afterAll s xs).err = s.err :=
  (afterAll_same s xs).2.2.2.1
@[simp] theorem afterAll_chan (s : State) (xs : List Exchange) : (afterAll s xs).chan = s.chan :=
  (afterAll_same s xs).2.2.2.2.1
@[simp] theorem afterAll_curSel (s : State) (xs : List Exchange) : (afterAll s xs).curSel = s.curSel :=
  (afterAll_same s xs).2.2.2.2.2.1
@[simp] theorem afterAll_result (s : State) (xs : List Exchange) : (afterAll s xs).result = s.result :=
  (afterAll_same s xs).2.2.2.2.2.2.1
@[simp] theorem afterAll_sink (s : State) (xs : List Exchange) : (afterAll s xs).sink = s.sink :=
  (afterAll_same s xs).2.2.2.2.2.2.2.1
@[simp] theorem afterAll_inbox (s : State) (xs : List Exchange) : (afterAll s xs).inbox = s.inbox :=
  (afterAll_same s xs).2.2.2.2.2.2.2.2.1
@[simp] theorem afterAll_params (s : State) (xs : List Exchange) : (afterAll s xs).params = s.params :=
  (afterAll_same s xs).2.2.2.2.2.2.2.2.2

/-- The parts of a state that decide how the transport answers: the answers it has lined up and what it was sent. -/
def SameTalk (s t : State) : Prop := t.env = s.env ∧ t.tx = s.tx

theorem answered_congr {s t : State} (h : SameTalk s t) (x : Exchange) : x.answered t ↔ x.answered s := by
  obtain ⟨h1, h2⟩ := h
  cases x <;>
    simp only [Exchange.answered, State.writeAnswer, State.readAnswer, State.engineAnswer, h1, h2]

theorem SameTalk.after {s t : State} (h : SameTalk s t) (x : Exchange) : SameTalk (x.after s) (x.after t) := by
  obtain ⟨h1, h2⟩ := h
  cases x <;> exact ⟨by simp [Exchange.after, h1], by simp [Exchange.after, h2]⟩

theorem answers_congr {s t : State} (h : SameTalk s t) (xs : List Exchange) : Answers t xs ↔ Answers s xs := by
  induction xs generalizing s t with
  | nil => rfl
  | cons x xs ih => simp only [Answers, answered_congr h, ih (h.after x)]

/-- The fields an operation sets between exchanges go through the exchanges untouched. -/
theorem after_with (s : State) (x : Exchange) (tap : TapState) (phase : Phase) (lines : Lines)
    (curSel : Option (Blk × Sel)) (sink : List SweepSample) :
    x.after { s with tap := tap, phase := phase, lines := lines, curSel := curSel, sink := sink }
      = { x.after s with tap := tap, phase := phase, lines := lines, curSel := curSel, sink := sink } := by
  cases x <;> rfl

theorem afterAll_with (s : State) (xs : List Exchange) (tap : TapState) (phase : Phase) (lines : Lines)
    (curSel : Option (Blk × Sel)) (sink : List SweepSample) :
    afterAll { s with tap := tap, phase := phase, lines := lines, curSel := curSel, sink := sink } xs
      = { afterAll s xs with tap := tap, phase := phase, lines := lines, curSel := curSel, sink := sink } := by
  induction xs generalizing s with
  | nil => rfl
  | cons x xs ih => rw [afterAll_cons, after_with, ih, afterAll_cons]

/-- `t` is `s` after these exchanges, but for the fields that operations set between exchanges. -/
def Follows (s : State) (xs : List Exchange) (t : State) : Prop :=
  t = { afterAll s xs with tap := t.tap, phase := t.phase, lines := t.lines, curSel := t.curSel, sink := t.sink }

theorem Follows.trans {s t u : State} {xs ys : List Exchange} (h : Follows s xs t) (h' : Follows t ys u) :
    Follows s (xs ++ ys) u := by
  unfold Follows at h h' ⊢
  rw [h, afterAll_with, ← afterAll_append] at h'
  exact h'

theorem Follows.params {s t : State} {xs : List Exchange} (h : Follows s xs t) : t.params = s.params := by
  rw [h]; exact afterAll_params s xs

theorem Follows.live {s t : State} {xs : List Exchange} (h : Follows s xs t) (hs : s.Live) : t.Live := by
  rw [h]; exact ⟨(afterAll_err s xs).trans hs.1, (afterAll_chan s xs).trans hs.2⟩

theorem Follows.talk {s t : State} {xs : List Exchange} (h : Follows s xs t) : SameTalk (afterAll s xs) t := by
  constructor <;> rw [h]

theorem Follows.answers {s t : State} {xs ys : List Exchange} (h : Follows s xs t) (ha : Answers s (xs ++ ys)) :
    Answers t ys := (answers_congr h.talk ys).2 ((answers_append s xs ys).1 ha).2

theorem Follows.eq {s t : State} {xs : List Exchange} (h : Follows s xs t) : t =
    { afterAll s xs with tap := t.tap, phase := t.phase, lines := t.lines, curSel := t.curSel, sink := t.sink } := h

/-! ### Register writes -/

theorem dataCycles_getLast (w : Bits) (hw : w ≠ []) : ∃ b, (dataCycles w).getLast? = some (true, b) := by
  induction w with
  | nil => contradiction
  | cons b bs ih =>
    cases bs with
    | nil => exact ⟨b, rfl⟩
    | cons c cs =>
      obtain ⟨x, hx⟩ := ih (by simp)
      exact ⟨x, by
        change ((false, b) :: dataCycles (c :: cs)).getLast? = _
        rw [List.getLast?_cons, hx]; rfl⟩

@[simp] theorem length_dataCycles (w : Bits) : (dataCycles w).length = w.length := by
  induction w with
  | nil => rfl
  | cons b bs ih =>
    cases bs with
    | nil => rfl
    | cons c cs => simpa [dataCycles] using ih

@[simp] theorem length_writeIrCycles (w : Bits) : (writeIrCycles w).length = w.length + 6 := by
  simp [writeIrCycles, walkCycles, preIr, post]

@[simp] theorem length_writeDrCycles (w : Bits) : (writeDrCycles w).length = w.length + 5 := by
  simp [writeDrCycles, walkCycles, preDr, post]

theorem dataCycles_eq (w : Bits) :
    dataCycles w = (List.range w.length).map fun k => (decide (k + 1 = w.length), w.getD k false) := by
  induction w with
  | nil => rfl
  | cons b bs ih =>
    cases bs with
    | nil => rfl
    | cons c cs =>
      change (false, b) :: dataCycles (c :: cs) = _
      rw [ih, List.length_cons (a := b), List.range_succ_eq_map, List.map_cons, List.map_map]
      simp [Function.comp_def]

/-- The cycles written out for the statements are those of the machine (R181, R182). -/
@[simp] theorem shiftCycles_ir (w : Bits) : shiftCycles [true, true, false, false] w = writeIrCycles w := by
  rw [shiftCycles, ← dataCycles_eq]; rfl
@[simp] theorem shiftCycles_dr (w : Bits) : shiftCycles [true, false, false] w = writeDrCycles w := by
  rw [shiftCycles, ← dataCycles_eq]; rfl

theorem getLastD_writeIr (w : Bits) : (writeIrCycles w).getLastD (false, false) = (false, false) := by
  simp [writeIrCycles, walkCycles, post, List.getLastD_eq_getLast?]

theorem getLastD_writeDr (w : Bits) : (writeDrCycles w).getLastD (false, false) = (false, false) := by
  simp [writeDrCycles, walkCycles, post, List.getLastD_eq_getLast?]

theorem visitsReset_append (t : TapState) (a b : Bits) :
    visitsReset t (a ++ b) = (visitsReset t a || visitsReset (tapWalk t a) b) := by
  induction a generalizing t with
  | nil => rfl
  | cons x xs ih => simp only [List.cons_append, visitsReset_cons, ih, tapWalk_cons, Bool.or_assoc]

theorem visitsReset_dataCycles (w : Bits) :
    visitsReset .shiftIR ((dataCycles w).map Prod.fst) = false
    ∧ visitsReset .shiftDR ((dataCycles w).map Prod.fst) = false := by
  induction w with
  | nil => exact ⟨rfl, rfl⟩
  | cons b bs ih =>
    cases bs with
    | nil => exact ⟨rfl, rfl⟩
    | cons c cs =>
      obtain ⟨h1, h2⟩ := ih
      constructor
      · change visitsReset .shiftIR (false :: (dataCycles (c :: cs)).map Prod.fst) = false
        rw [visitsReset_cons]; exact h1
      · change visitsReset .shiftDR (false :: (dataCycles (c :: cs)).map Prod.fst) = false
        rw [visitsReset_cons]; exact h2

/-- Neither register write passes through Test-Logic-Reset (R184). -/
theorem visitsReset_writeIr (w : Bits) (hw : w ≠ []) :
    visitsReset .runTestIdle ((writeIrCycles w).map Prod.fst) = false := by
  simp only [writeIrCycles, List.map_append, map_walkCycles, visitsReset_append, tapWalk_append]
  have h : tapWalk .runTestIdle preIr = .shiftIR := rfl
  rw [h, (visitsReset_dataCycles w).1, (tapWalk_dataCycles w hw).1]
  rfl

theorem visitsReset_writeDr (w : Bits) (hw : w ≠ []) :
    visitsReset .runTestIdle ((writeDrCycles w).map Prod.fst) = false := by
  simp only [writeDrCycles, List.map_append, map_walkCycles, visitsReset_append, tapWalk_append]
  have h : tapWalk .runTestIdle preDr = .shiftDR := rfl
  rw [h, (visitsReset_dataCycles w).2, (tapWalk_dataCycles w hw).2]
  rfl

theorem offIdle_of_idle {s : State} (ht : s.tap = .runTestIdle) : s.offIdle = none := by
  simp [State.offIdle, ht]

theorem noTransact_of_idle {s : State} {sel : Sel} {v : Bits} (hph : s.phase = .idle) (ht : s.tap = .runTestIdle)
    (hl : v.length = selLength sel) : s.noTransact sel v = none := by
  simp [State.noTransact, hph, ht, hl]

theorem noWrite_of_idle {s : State} {w : Bits} (ht : s.tap = .runTestIdle) (hw : w ≠ []) : s.noWrite w = none := by
  simp [State.noWrite, hw, offIdle_of_idle ht]

theorem slice_tdoBits (p : Params) (rd : List Byte) (n k : Nat) :
    slice (tdoBits p rd 0 (n + k + 3)) 3 n = tdoBits p rd 3 n := by
  simp only [slice, tdoBits, ← List.map_drop, ← List.map_take]
  apply List.ext_getElem
  · simp
  · intro i h1 h2
    simp [Nat.add_comm]

/-- `WRITE_IR` answered in full: the histories grow, the lines come to rest, nothing else moves (R181, R184). -/
theorem writeIr_eq (cmd : Command) {w : Bits} {x : Exchange} {s : State} (hs : s.Live) (hp : s.params.wf = true)
    (ht : s.tap = .runTestIdle) (hw : w ≠ []) (hx : x.isIr s.params w) (ha : x.answered s) :
    writeIr cmd w s = .ok () { x.after s with lines := idleLines s } := by
  obtain ⟨rd, bits, rfl⟩ := hx
  rw [writeIr, notLive_of_live hs, accept_none, noWrite_of_idle ht hw, accept_none]
  cases hb : s.params.backend with
  | raw =>
    simp only [irExchange, hb, shiftCycles_ir] at ha ⊢
    rw [runCycles_eq cmd hs hp (by simp [writeIrCycles, walkCycles, preIr]) ha, bind_ok]
    simp only [frameDone, ht, tapWalk_writeIr w hw, visitsReset_writeIr w hw, getLastD_writeIr, idleLines, hb]
    simp [Exchange.after, ht]
  | engine =>
    simp only [irExchange, hb] at ha ⊢
    rw [engineDo_eq cmd ha, bind_ok]
    simp only [idleLines, hb, State.setTap]
    simp [Exchange.after, ht]

/-- `WRITE_DR` answered in full (R182, R184). -/
theorem writeDr_eq (cmd : Command) {w : Bits} {x : Exchange} {s : State} (hs : s.Live) (hp : s.params.wf = true)
    (ht : s.tap = .runTestIdle) (hw : w ≠ []) (hx : x.isDr s.params w) (ha : x.answered s) :
    writeDr cmd w s = .ok (x.reply s.params w.length) { x.after s with lines := idleLines s } := by
  obtain ⟨rd, bits, rfl, hlen⟩ := hx
  rw [writeDr, notLive_of_live hs, accept_none, noWrite_of_idle ht hw, accept_none]
  cases hb : s.params.backend with
  | raw =>
    simp only [drExchange, hb, shiftCycles_dr] at ha ⊢
    rw [runCycles_eq cmd hs hp (by simp [writeDrCycles, walkCycles, preDr]) ha, bind_ok, length_writeDrCycles]
    have h := slice_tdoBits s.params rd w.length 2
    rw [h]
    simp only [frameDone, ht, tapWalk_writeDr w hw, visitsReset_writeDr w hw, getLastD_writeDr, idleLines, hb,
      Exchange.reply]
    simp [Exchange.after, ht]
  | engine =>
    simp only [drExchange, hb] at ha ⊢
    rw [engineDo_eq cmd ha, bind_ok, if_pos (hlen hb)]
    simp only [idleLines, hb, State.setTap, Exchange.reply]
    simp [Exchange.after, ht]

theorem isDr_reply_length {p : Params} {w : Bits} {x : Exchange} (h : x.isDr p w) :
    (x.reply p w.length).length = w.length := by
  obtain ⟨rd, bits, rfl, hlen⟩ := h
  cases hb : p.backend with
  | raw => simp [drExchange, hb, Exchange.reply]
  | engine => simpa [drExchange, hb, Exchange.reply] using hlen hb

/-- `TAP_RESET` answered in full, from any tracked state: Run-Test/Idle, nothing selected (R178, R185). -/
theorem tapReset_eq (cmd : Command) {xs : List Exchange} {s : State} (hs : s.Live) (hp : s.params.wf = true)
    (hx : areTapReset s.params xs) (ha : Answers s xs) :
    tapReset cmd s
      = .ok () { afterAll s xs with tap := .runTestIdle, curSel := none, lines := idleLines s } := by
  rw [tapReset, notLive_of_live hs, accept_none]
  cases hb : s.params.backend with
  | raw =>
    simp only [areTapReset, hb] at hx
    obtain ⟨rd, rfl⟩ := hx
    have hne : tapResetCycles ≠ [] := by simp [tapResetCycles, walkCycles]
    simp only
    rw [runCycles_eq cmd (cycles := tapResetCycles) hs hp hne ha.1, bind_ok]
    have hw : (if s.tap = .unknown then
          (frameDone s tapResetCycles rd).setTap .runTestIdle else frameDone s tapResetCycles rd).tap = .runTestIdle := by
      cases h : s.tap <;> simp [frameDone, h] <;> rfl
    have hl : (frameDone s tapResetCycles rd).lines = idleLines s := by
      simp only [frameDone, idleLines, hb]; rfl
    congr 1
    split at hw <;> rename_i h
    · simp only [if_pos h, frameDone, State.setTap, State.setCurSel, idleLines, hb]
      rfl
    · simp only [if_neg h, State.setCurSel]
      rw [← hl, ← hw]
      rfl
  | engine =>
    simp only [areTapReset, hb] at hx
    obtain ⟨b1, b2, rfl⟩ := hx
    simp only
    rw [engineDo_eq cmd ha.1, bind_ok, engineDo_eq cmd ha.2.1, bind_ok]
    simp only [idleLines, hb]
    rfl

/-! ### Frames and the scan controller -/

@[simp] theorem length_be (w : Nat) (v : Int) : (be w v).length = w := by simp [be]

@[simp] theorem length_opcode (p : Params) (blk : Blk) (sel : Sel) : (opcode p blk sel).length = p.irLen := by
  simp [opcode, opcodeBits]

@[simp] theorem length_rep (x : Bits) (n : Nat) : (rep x n).length = n * x.length := by
  simp [rep]

theorem irLen_pos {p : Params} (h : p.wf = true) : 1 ≤ p.irLen := by
  simp only [Params.wf, Bool.and_eq_true, decide_eq_true_eq] at h
  exact h.1.1.1.1.1.1.1.1.1

/-- An IR frame is `N * IRLEN` bits (R153, R159). -/
theorem length_irFrameWire {p : Params} {op : Bits} {pos n : Nat} (hv : validPosition pos n = true)
    (hop : op.length = p.irLen) : (irFrameWire p op pos n).length = n * p.irLen := by
  simp only [validPosition, Bool.and_eq_true, decide_eq_true_eq] at hv
  obtain ⟨⟨h1, h2⟩, h3⟩ := hv
  simp only [irFrameWire, irFrameNatural, bypassBits, opcodeBits, List.length_reverse, List.length_append,
    length_rep, length_be, hop]
  have : n = (n - pos) + 1 + (pos - 1) := by omega
  calc (n - pos) * p.irLen + p.irLen + (pos - 1) * p.irLen
      = ((n - pos) + 1 + (pos - 1)) * p.irLen := by ring
    _ = n * p.irLen := by rw [← this]

theorem irFrameWire_ne_nil {p : Params} {op : Bits} {pos n : Nat} (hp : p.wf = true)
    (hv : validPosition pos n = true) (hop : op.length = p.irLen) : irFrameWire p op pos n ≠ [] := by
  intro h
  have hl := length_irFrameWire hv hop
  rw [h, List.length_nil] at hl
  simp only [validPosition, Bool.and_eq_true, decide_eq_true_eq] at hv
  have := Nat.mul_pos (Nat.lt_of_lt_of_le Nat.one_pos hv.1.1) (Nat.lt_of_lt_of_le Nat.one_pos (irLen_pos hp))
  omega

@[simp] theorem length_dropLast (b : Bits) (n : Nat) : (dropLast b n).length = b.length - n := by
  simp [dropLast]

/-- A DR frame is `N - 1 + len(v) - TRIM[blk]` bits (R157, R159). -/
theorem length_drFrameWire {v : Bits} {blk : Blk} {pos n : Nat} (hv : validPosition pos n = true)
    (hl : trim blk < v.length) : (drFrameWire v blk pos n).length = n - 1 + v.length - trim blk := by
  simp only [validPosition, Bool.and_eq_true, decide_eq_true_eq] at hv
  simp [drFrameWire, drFrameNatural]
  omega

theorem trim_le (blk : Blk) : trim blk ≤ 1 := by cases blk <;> simp [trim]

theorem drFrameWire_ne_nil {v : Bits} {blk : Blk} {pos n : Nat} (hv : validPosition pos n = true)
    (hl : trim blk < v.length) : drFrameWire v blk pos n ≠ [] := by
  intro h
  have h' := length_drFrameWire hv hl
  rw [h, List.length_nil] at h'
  omega

theorem padIr_eq {op : Bits} {pos n : Nat} {s : State} (hv : validPosition pos n = true)
    (hop : op.length = s.params.irLen) : padIr op pos n s = .ok (irFrameWire s.params op pos n) s := by
  simp [padIr, hv, hop]

theorem padDr_eq {v : Bits} {blk : Blk} {pos n : Nat} {s : State} (hv : validPosition pos n = true)
    (hl : trim blk < v.length) : padDr v blk pos n s = .ok (drFrameWire v blk pos n) s := by
  simp [padDr, hv, hl]

theorem writeOpcode_eq (cmd : Command) {op : Bits} {selects : Option (Blk × Sel)} {pos n : Nat} {x : Exchange}
    {s : State} (hs : s.Live) (hp : s.params.wf = true) (ht : s.tap = .runTestIdle)
    (hv : validPosition pos n = true) (hop : op.length = s.params.irLen)
    (hx : x.isIr s.params (irFrameWire s.params op pos n)) (ha : x.answered s) :
    writeOpcode cmd op selects pos n s = .ok () { x.after s with lines := idleLines s, curSel := selects } := by
  rw [writeOpcode, notLive_of_live hs, accept_none, offIdle_of_idle ht, accept_none, padIr_eq hv hop, bind_ok,
    writeIr_eq cmd hs hp ht (irFrameWire_ne_nil hp hv hop) hx ha, bind_ok]
  rfl

/-- `SELECT` answered in full (R252). -/
theorem select_eq (cmd : Command) {blk : Blk} {sel : Sel} {pos n : Nat} {x : Exchange} {s : State} (hs : s.Live)
    (hp : s.params.wf = true) (ht : s.tap = .runTestIdle) (hv : validPosition pos n = true)
    (hx : x.isIr s.params (irFrameWire s.params (opcode s.params blk sel) pos n)) (ha : x.answered s) :
    select cmd blk sel pos n s
      = .ok () { x.after s with lines := idleLines s, curSel := some (blk, sel) } :=
  writeOpcode_eq cmd hs hp ht hv (by simp) hx ha

theorem trim_lt_selLength (blk : Blk) (sel : Sel) : trim blk < selLength sel := by
  cases blk <;> cases sel <;> decide

/-- `SHIFT` answered in full (R254). -/
theorem shift_eq (cmd : Command) {blk : Blk} {sel : Sel} {v : Bits} {pos n : Nat} {x : Exchange} {s : State}
    (hs : s.Live) (hp : s.params.wf = true) (ht : s.tap = .runTestIdle) (hv : validPosition pos n = true)
    (hc : s.curSel = some (blk, sel)) (hl : v.length = selLength sel)
    (hx : x.isDr s.params (drFrameWire v blk pos n)) (ha : x.answered s) :
    shift cmd blk v pos n s
      = .ok (x.reply s.params (drFrameWire v blk pos n).length) { x.after s with lines := idleLines s } := by
  have hn : s.noShift blk v = none := by simp [State.noShift, hc, hl]
  have htr : trim blk < v.length := hl ▸ trim_lt_selLength blk sel
  rw [shift, notLive_of_live hs, accept_none, hn, accept_none, offIdle_of_idle ht, accept_none,
    padDr_eq hv htr, bind_ok,
    writeDr_eq cmd hs hp ht (drFrameWire_ne_nil hv htr) hx ha]

theorem idleLines_of {s t : State} (hp : t.params = s.params) (hl : t.lines = idleLines s) :
    idleLines t = idleLines s := by
  cases hb : s.params.backend with
  | raw => simp only [idleLines, hp, hb, hl, restingLines]; split <;> rfl
  | engine => simp only [idleLines, hp, hb, hl]

theorem idleLines_congr {s t : State} (hp : t.params = s.params) (hl : t.lines = s.lines) :
    idleLines t = idleLines s := by
  simp only [idleLines, hp, hl, restingLines]

/-- `TRANSACT` answered in full: the reply of step 2, and the block's register selected again (R256, R257). -/
theorem transact_eq (cmd : Command) {blk : Blk} {sel : Sel} {v : Bits} {pos n : Nat} {xs : List Exchange}
    {s : State} (hs : s.Live) (hp : s.params.wf = true) (hph : s.phase = .idle) (ht : s.tap = .runTestIdle)
    (hv : validPosition pos n = true) (hl : v.length = selLength sel)
    (hx : areTransact s.params blk sel v pos n xs) (ha : Answers s xs) :
    ∃ reply, transact cmd blk sel v pos n s
        = .ok reply { afterAll s xs with curSel := some (blk, sel), lines := idleLines s }
      ∧ reply.length = n - 1 + selLength sel - trim blk
      ∧ ∃ x2, xs[1]? = some x2 ∧ reply = x2.reply s.params (drFrameWire v blk pos n).length := by
  obtain ⟨x1, x2, xs3, x4, rfl, h1, h2, h3, h4⟩ := hx
  have htr : trim blk < v.length := hl ▸ trim_lt_selLength blk sel
  refine ⟨x2.reply s.params (drFrameWire v blk pos n).length, ?_, ?_, x2, rfl, rfl⟩
  · have f1 : Follows s [] (s.setPhase .selectInstruction) := rfl
    have e1 := select_eq cmd (sel := sel) (f1.live hs) (f1.params ▸ hp) (s := s.setPhase .selectInstruction) ht hv h1
      (f1.answers ha).1
    obtain ⟨t1, ht1⟩ : ∃ t1, t1 = State.setPhase ({ x1.after (s.setPhase .selectInstruction) with
      lines := idleLines (s.setPhase .selectInstruction), curSel := some (blk, sel) } : State) .shiftData := ⟨_, rfl⟩
    have f2 : Follows s [x1] t1 := by subst ht1; exact f1.trans (ys := [x1]) rfl
    have p2 : t1.tap = .runTestIdle ∧ t1.curSel = some (blk, sel) ∧ t1.lines = idleLines s
        ∧ t1.sink = s.sink := by
      subst ht1; exact ⟨(after_tap x1 _).trans ht, rfl, rfl, after_sink x1 _⟩
    have e2 := shift_eq cmd (sel := sel) (f2.live hs) (f2.params ▸ hp) p2.1 hv p2.2.1 hl (f2.params ▸ h2)
      (f2.answers ha).1
    obtain ⟨t2, ht2⟩ : ∃ t2, t2 = State.setPhase ({ x2.after t1 with lines := idleLines t1 } : State) .resetTAP :=
      ⟨_, rfl⟩
    have f3 : Follows s [x1, x2] t2 := by subst ht2; exact f2.trans (ys := [x2]) rfl
    have p3 : t2.lines = idleLines s ∧ t2.sink = s.sink := by
      subst ht2; exact ⟨idleLines_of f2.params p2.2.2.1, (after_sink x2 _).trans p2.2.2.2⟩
    have a3 : Answers t2 (xs3 ++ [x4]) := f3.answers ha
    have e3 := tapReset_eq cmd (f3.live hs) (f3.params ▸ hp) (f3.params ▸ h3) ((answers_append _ _ _).1 a3).1
    obtain ⟨t3, ht3⟩ : ∃ t3, t3 = State.setPhase ({ afterAll t2 xs3 with
      tap := .runTestIdle, curSel := none, lines := idleLines t2 } : State) .selectData := ⟨_, rfl⟩
    have f4 : Follows s ([x1, x2] ++ xs3) t3 := by subst ht3; exact f3.trans (ys := xs3) rfl
    have p4 : t3.tap = .runTestIdle ∧ t3.lines = idleLines s ∧ t3.sink = s.sink := by
      subst ht3; exact ⟨rfl, idleLines_of f3.params p3.1, (afterAll_sink t2 xs3).trans p3.2⟩
    have e4 := select_eq cmd (sel := sel) (f4.live hs) (f4.params ▸ hp) p4.1 hv (f4.params ▸ h4)
      (f4.answers (ys := [x4]) (by simpa using ha)).1
    have f5 : Follows s ([x1, x2] ++ xs3 ++ [x4]) (({ x4.after t3 with
      lines := idleLines t3, curSel := some (blk, sel) } : State).setPhase .idle) := f4.trans (ys := [x4]) rfl
    rw [transact, notLive_of_live hs, accept_none, noTransact_of_idle hph ht hl, accept_none, e1, bind_ok, ← ht1, e2, bind_ok, ← ht2, e3, bind_ok,
      ← ht3, e4, bind_ok, f2.params, f5.eq]
    congr 1
    have hxs : [x1, x2] ++ xs3 ++ [x4] = x1 :: x2 :: (xs3 ++ [x4]) := by simp
    have htap : (x4.after t3).tap = (afterAll s (x1 :: x2 :: (xs3 ++ [x4]))).tap := by simp [p4.1, ht]
    have hphase : Phase.idle = (afterAll s (x1 :: x2 :: (xs3 ++ [x4]))).phase := by simp [hph]
    have hsink : (x4.after t3).sink = (afterAll s (x1 :: x2 :: (xs3 ++ [x4]))).sink := by simp [p4.2.2]
    simp only [State.setPhase, hxs, htap, hphase, hsink, idleLines_of f4.params p4.2.1]
  · rw [isDr_reply_length h2, length_drFrameWire hv htr, hl]

end Sys2Proof.Machine
end

