-- ==== Sys2Proof/Laws/Sweep.lean ====
section
/-! SUPPORT. What the host's pseudo-commands do when the transport answers in full: equations, one per part. -/

namespace Sys2Proof.Machine

/-! ### Releases and aborts -/

/-- The release of a channel whose engine answers (R189). -/
theorem closeTransport_eq {s : State} (h : closeHeard s) : closeTransport s = .ok () (released s) := by
  unfold closeTransport released
  cases hc : s.chan with
  | closed => rfl
  | opened =>
    cases hb : s.params.backend with
    | raw => rfl
    | engine =>
      have hs := h hc hb
      simp only [engineCall]
      cases ha : s.engineAnswer .close with
      | done bits => simp [engineReply, State.receive, State.setChan, State.setTap, State.setCurSel, State.send,
          State.setEnv]
      | failed => rfl
      | silent => exact absurd ha hs

/-- An abort of a channel whose engine answers (R340); the result is left to the command's delivery. -/
theorem raise_eq {α : Type} (e : Err) {s : State} (h : closeHeard s) :
    (raise e s : Res α) = .raised { released s with err := e } := by
  have h' : closeHeard (s.setErr e) := h
  rw [raise, closeTransport_eq h', bind_ok]
  congr 1
  unfold released
  cases hc : s.chan <;> cases hb : s.params.backend <;> simp [hc, hb, State.setErr]

/-! ### The scan state between the operations of a sweep -/

/-- Ready for a register write: live, legal parameters, the TAP in Run-Test/Idle. -/
structure Ready (s : State) : Prop where
  live : s.Live
  wf : s.params.wf = true
  idle : s.tap = .runTestIdle

theorem Follows.ready {s t : State} {xs : List Exchange} (h : Follows s xs t) (hs : Ready s)
    (ht : t.tap = .runTestIdle) : Ready t :=
  ⟨h.live hs.live, h.params ▸ hs.wf, ht⟩

theorem Follows.refl (s : State) : Follows s [] s := rfl

/-! ### Configuring a block -/

theorem encodeCfg_length {fs : Fields} {v : Bits} (h : encodeCfg fs = .ok v) : v.length = 27 := by
  unfold encodeCfg at h
  split at h
  · simp only [Except.ok.injEq] at h
    subst h
    simp [encodeLayout, cfgLayout, cfgLaneSlots, Slot.bits, guardHeadSlot, guardTailSlot, globalSlot, laneSlot]
  · simp at h

theorem encodeCore_length {p : Params} {fs : Fields} {v : Bits} (h : encodeCore p fs = .ok v) : v.length = 133 := by
  unfold encodeCore at h
  split at h
  · simp only [Except.ok.injEq] at h
    subst h
    simp [encodeLayout, coreLayout, Slot.bits, guardHeadSlot, guardTailSlot, globalSlot, laneSlot]
  · simp at h

theorem encodeChar_length {fs : Fields} {v : Bits} (h : encodeChar fs = .ok v) : v.length = 195 := by
  unfold encodeChar at h
  split at h
  · simp only [Except.ok.injEq] at h
    subst h
    simp [encodeLayout, charLayout, charLaneSlots, Slot.bits, guardHeadSlot, guardTailSlot, laneSlot]
  · simp at h

/-- One transaction of an image (R303). -/
theorem transactImage_eq {blk : Blk} {sel : Sel} {image : Except Refusal Bits} {v : Bits} {pos n : Nat}
    {xs : List Exchange} {s : State} (hs : Ready s) (hph : s.phase = .idle) (hv : validPosition pos n = true)
    (hi : image = .ok v) (hl : v.length = selLength sel) (hx : areTransact s.params blk sel v pos n xs)
    (ha : Answers s xs) :
    transactImage blk sel image pos n s
      = .ok () { afterAll s xs with curSel := some (blk, sel), lines := idleLines s } := by
  subst hi
  obtain ⟨reply, he, -, -⟩ := transact_eq .transact (sel := sel) hs.live hs.wf hph hs.idle hv hl hx ha
  rw [transactImage, ofExcept_ok, bind_ok, he, bind_ok]

/-- `CONFIGURE_BLOCK` answered in full (R303). -/
theorem configureBlock_eq {blk : Blk} {coreParams : Fields} {v1 v2 v3 : Bits} {pos n : Nat} {xs : List Exchange}
    {s : State} (hs : Ready s) (hph : s.phase = .idle) (hv : validPosition pos n = true)
    (h1 : encodeCfg [] = .ok v1) (h2 : encodeCfg weSet = .ok v2) (h3 : encodeCore s.params coreParams = .ok v3)
    (hx : areConfigure s.params blk v1 v2 v3 pos n xs) (ha : Answers s xs) :
    configureBlock blk coreParams pos n s
      = .ok () { afterAll s xs with curSel := some (blk, .coreInputs), lines := idleLines s } := by
  obtain ⟨xs1, xs2, xs3, rfl, x1, x2, x3⟩ := hx
  have ha1 := ((answers_append _ _ _).1 ((answers_append _ _ _).1 ha).1).1
  have e1 := transactImage_eq (sel := .configuration) hs hph hv h1 (encodeCfg_length h1) x1 ha1
  obtain ⟨t1, ht1⟩ : ∃ t1, t1 = ({ afterAll s xs1 with
    curSel := some (blk, .configuration), lines := idleLines s } : State) := ⟨_, rfl⟩
  have f1 : Follows s xs1 t1 := by subst ht1; rfl
  have r1 : Ready t1 := f1.ready hs (by subst ht1; exact (afterAll_tap s xs1).trans hs.idle)
  have p1 : t1.phase = .idle ∧ t1.lines = idleLines s ∧ t1.sink = s.sink := by
    subst ht1; exact ⟨(afterAll_phase s xs1).trans hph, rfl, afterAll_sink s xs1⟩
  have ha2 := ((answers_append t1 xs2 xs3).1 (f1.answers (by simpa using ha))).1
  have e2 := transactImage_eq (sel := .configuration) r1 p1.1 hv h2 (encodeCfg_length h2) (f1.params ▸ x2) ha2
  obtain ⟨t2, ht2⟩ : ∃ t2, t2 = ({ afterAll t1 xs2 with
    curSel := some (blk, .configuration), lines := idleLines t1 } : State) := ⟨_, rfl⟩
  have f2 : Follows s (xs1 ++ xs2) t2 := by subst ht2; exact f1.trans rfl
  have r2 : Ready t2 := f2.ready hs (by subst ht2; exact (afterAll_tap t1 xs2).trans r1.idle)
  have p2 : t2.phase = .idle ∧ t2.lines = idleLines s ∧ t2.sink = s.sink := by
    subst ht2
    exact ⟨(afterAll_phase t1 xs2).trans p1.1, idleLines_of f1.params p1.2.1, (afterAll_sink t1 xs2).trans p1.2.2⟩
  have e3 := transactImage_eq (sel := .coreInputs) r2 p2.1 hv (f2.params ▸ h3) (encodeCore_length h3) (f2.params ▸ x3) (f2.answers ha)
  have f3 : Follows s (xs1 ++ xs2 ++ xs3) ({ afterAll t2 xs3 with
    curSel := some (blk, .coreInputs), lines := idleLines t2 } : State) := f2.trans rfl
  rw [configureBlock, e1, bind_ok, ← ht1, e2, bind_ok, ← ht2, e3, f3.eq]
  congr 1
  have htap : (afterAll t2 xs3).tap = (afterAll s (xs1 ++ xs2 ++ xs3)).tap := by simp [r2.idle, hs.idle]
  have hphase : (afterAll t2 xs3).phase = (afterAll s (xs1 ++ xs2 ++ xs3)).phase := by simp [p2.1, hph]
  have hsink : (afterAll t2 xs3).sink = (afterAll s (xs1 ++ xs2 ++ xs3)).sink := by simp [p2.2.2]
  simp only [htap, hphase, hsink, idleLines_of f2.params p2.2.1]

/-! ### Sweeping a block -/

/-- `t` is where the operations of a sweep lead from `s`, with these exchanges and these samples, the selection
`sel` in force if there were any. -/
structure Ran (s : State) (sel : Blk × Sel) (xs : List Exchange) (ss : List SweepSample) (t : State) : Prop where
  follows : Follows s xs t
  tap : t.tap = s.tap
  phase : t.phase = s.phase
  lines : t.lines = if xs = [] then s.lines else idleLines s
  curSel : t.curSel = if xs = [] then s.curSel else some sel
  sink : t.sink = s.sink ++ ss

theorem Ran.refl (s : State) (sel : Blk × Sel) : Ran s sel [] [] s :=
  ⟨rfl, rfl, rfl, rfl, rfl, by simp⟩

theorem Ran.idleLines {s t : State} {sel : Blk × Sel} {xs : List Exchange} {ss : List SweepSample}
    (h : Ran s sel xs ss t) : Machine.idleLines t = Machine.idleLines s := by
  have hl := h.lines
  split at hl
  · exact idleLines_congr h.follows.params hl
  · exact idleLines_of h.follows.params hl

theorem Ran.trans {s t u : State} {sel : Blk × Sel} {xs ys : List Exchange} {ss zs : List SweepSample}
    (h : Ran s sel xs ss t) (h' : Ran t sel ys zs u) : Ran s sel (xs ++ ys) (ss ++ zs) u := by
  refine ⟨h.follows.trans h'.follows, h'.tap.trans h.tap, h'.phase.trans h.phase, ?_, ?_, ?_⟩
  · rw [h'.lines, h.lines, h.idleLines]
    by_cases hx : xs = [] <;> by_cases hy : ys = [] <;> simp [hx, hy]
  · rw [h'.curSel, h.curSel]
    by_cases hx : xs = [] <;> by_cases hy : ys = [] <;> simp [hx, hy]
  · rw [h'.sink, h.sink, List.append_assoc]

theorem Ran.ready {s t : State} {sel : Blk × Sel} {xs : List Exchange} {ss : List SweepSample}
    (h : Ran s sel xs ss t) (hs : Ready s) : Ready t :=
  h.follows.ready hs (h.tap.trans hs.idle)

/-- The image written out for the statements is the one the machine encodes: the iterated fields win, the template gives
the others (R312). -/
theorem diagImage_eq (p : Params) (v : Int) (b : Nat) (ph : Int) :
    diagImage p v b ph = encodeLayout (fieldValue (diagFields p v b ph)) charLayout := by
  have h : ∀ name, name ≠ FieldName.phaseOffset → name ≠ .bitSelect → name ≠ .voltageOffset → ∀ i,
      fieldValue (diagFields p v b ph) ⟨name, some i⟩ = fieldValue p.diagTemplate ⟨name, some i⟩ := by
    intro name h1 h2 h3 i
    simp only [fieldValue, fieldValue?, diagFields, List.range_succ, List.range_zero, List.nil_append,
      List.flatMap_cons, List.flatMap_nil, List.append_nil, List.cons_append, List.find?_cons, FieldKey.mk.injEq,
      Ne.symm h1, Ne.symm h2, Ne.symm h3, false_and, decide_false]
  simp (disch := decide) only [diagImage, encodeLayout, charLayout, charLaneSlots, laneSlot, guardHeadSlot,
    guardTailSlot, List.flatMap_cons, List.flatMap_nil, List.append_nil, Slot.bits, List.cons_append, List.nil_append, h]
  simp only [List.append_assoc]
  rfl

/-- The fields of `DIAG(V, b, P)` are known where the template's are (R312). -/
theorem encodeChar_diag {p : Params} (h : namesOnly (fieldKeys charLayout) p.diagTemplate = true) (v : Int) (b : Nat)
    (ph : Int) : encodeChar (diagFields p v b ph) = .ok (diagImage p v b ph) := by
  have hn : namesOnly (fieldKeys charLayout) (diagFields p v b ph) = true := by
    unfold namesOnly at h ⊢
    rw [diagFields, List.all_append, h, Bool.and_true]
    rfl
  rw [encodeChar, if_pos hn, diagImage_eq]

theorem shiftDiag_eq {blk : Blk} {v : Int} {b pos n : Nat} {ph : Int} {x : Exchange} {s : State} (hs : Ready s)
    (ht : namesOnly (fieldKeys charLayout) s.params.diagTemplate = true) (hv : validPosition pos n = true)
    (hc : s.curSel = some (blk, .readback))
    (hx : x.isDr s.params (drFrameWire (diagImage s.params v b ph) blk pos n)) (ha : x.answered s) :
    shiftDiag blk v b ph pos n s
      = .ok (x.reply s.params (drFrameWire (diagImage s.params v b ph) blk pos n).length)
          { x.after s with lines := idleLines s } := by
  have hd := encodeChar_diag ht v b ph
  rw [shiftDiag, hd, ofExcept_ok, bind_ok,
    shift_eq .shift (sel := .readback) hs.live hs.wf hs.idle hv hc (encodeChar_length hd) hx ha]

/-- One readback: the shift, the counters of its reply, four samples (R311, R313). -/
theorem readPhase_ran {blk : Blk} {v : Int} {b pos n : Nat} {ph : Int} {x : Exchange} {s : State} (hs : Ready s)
    (ht : namesOnly (fieldKeys charLayout) s.params.diagTemplate = true) (hv : validPosition pos n = true)
    (hf : repliesFit s.params blk pos n) (hc : s.curSel = some (blk, .readback))
    (hx : x.isDr s.params (drFrameWire (diagImage s.params v b ph) blk pos n)) (ha : x.answered s) :
    ∃ t, readPhase blk v b pos n ph s = .ok () t
      ∧ Ran s (blk, .readback) [x] (samplesIn s.params
          (x.reply s.params (drFrameWire (diagImage s.params v b ph) blk pos n).length) blk v b ph pos n) t := by
  obtain ⟨reply, hreply⟩ : ∃ reply, reply
    = x.reply s.params (drFrameWire (diagImage s.params v b ph) blk pos n).length := ⟨_, rfl⟩
  have hlen : reply.length = n - 1 + selLength .readback - trim blk := by
    have hl : (diagImage s.params v b ph).length = selLength .readback := encodeChar_length (encodeChar_diag ht v b ph)
    rw [hreply, isDr_reply_length hx, length_drFrameWire hv (hl ▸ trim_lt_selLength blk .readback), hl]
  obtain ⟨t, htt⟩ : ∃ t, t = ({ x.after s with lines := Machine.idleLines s } : State) := ⟨_, rfl⟩
  have hp : t.params = s.params := by subst htt; exact after_params x s
  obtain ⟨c, hc'⟩ : ∃ c, c = fun i => laneCounter (alignedReply s.params reply blk pos n) i := ⟨_, rfl⟩
  have hpar : parseReply reply blk pos n t = .ok (c 0, c 1, c 2, c 3) t := by
    have he : t.err = .none := by subst htt; exact (after_err x s).trans hs.live.1
    have hnot : ¬ reply.length < replyLead t.params blk pos n + windowsEnd := by
      rw [hlen, hp]; exact Nat.not_lt.mpr hf
    rw [parseReply, latched_of_none he, accept_none, if_pos hv, countersOf, if_neg hnot, hp, hc']
    rfl
  have hss : samplesOf blk v b ph (c 0, c 1, c 2, c 3) = samplesIn s.params reply blk v b ph pos n := by
    subst hc'; cases blk <;> rfl
  refine ⟨t.emit (samplesIn s.params reply blk v b ph pos n), ?_, ?_⟩
  · rw [readPhase, shiftDiag_eq hs ht hv hc hx ha, bind_ok, ← hreply, ← htt, hpar, bind_ok, hss]
  · rw [← hreply]
    subst htt
    exact ⟨rfl, after_tap x s, after_phase x s, rfl, (after_curSel x s).trans hc,
      congrArg (· ++ _) (after_sink x s)⟩

/-- The phase loop of a pair (R311). -/
theorem reads_ran {blk : Blk} {v : Int} {b pos n : Nat} (hv : validPosition pos n = true) (phs : List Int)
    {xs : List Exchange} {ss : List SweepSample} {s : State} (hs : Ready s)
    (ht : namesOnly (fieldKeys charLayout) s.params.diagTemplate = true) (hf : repliesFit s.params blk pos n)
    (hc : s.curSel = some (blk, .readback)) (hx : areReads s.params blk v b pos n phs xs ss) (ha : Answers s xs) :
    ∃ t, forEach (readPhase blk v b pos n) phs s = .ok () t ∧ Ran s (blk, .readback) xs ss t := by
  induction phs generalizing s xs ss with
  | nil =>
    obtain ⟨rfl, rfl⟩ := hx
    exact ⟨s, rfl, Ran.refl s _⟩
  | cons ph more ih =>
    obtain ⟨x, xs', ss', rfl, rfl, hd, hr⟩ := hx
    obtain ⟨t, e, r⟩ := readPhase_ran hs ht hv hf hc hd ha.1
    have hp := r.follows.params
    obtain ⟨u, e', r'⟩ := ih (r.ready hs) (hp ▸ ht) (hp ▸ hf) r.curSel (hp ▸ hr)
      (r.follows.answers (by simpa using ha))
    exact ⟨u, by rw [forEach_cons, e, bind_ok, e'], r.trans r'⟩

/-- One `(V, b)` pair (R308 to R311). -/
theorem readPair_ran {blk : Blk} {v : Int} {b pos n : Nat} (hv : validPosition pos n = true)
    {xs : List Exchange} {ss : List SweepSample} {s : State} (hs : Ready s)
    (ht : namesOnly (fieldKeys charLayout) s.params.diagTemplate = true) (hf : repliesFit s.params blk pos n)
    (hx : arePair s.params blk v pos n b xs ss) (ha : Answers s xs) :
    ∃ t, readPair blk v pos n b s = .ok () t ∧ Ran s (blk, .readback) xs ss t := by
  obtain ⟨x, y, xs', rfl, hxi, hyd, hr⟩ := hx
  have e1 := select_eq .select (sel := .readback) hs.live hs.wf hs.idle hv hxi ha.1
  obtain ⟨t1, ht1⟩ : ∃ t1, t1 = ({ x.after s with
    lines := Machine.idleLines s, curSel := some (blk, .readback) } : State) := ⟨_, rfl⟩
  have r1 : Ran s (blk, .readback) [x] [] t1 := by
    subst ht1
    exact ⟨rfl, after_tap x s, after_phase x s, rfl, rfl, by rw [List.append_nil]; exact after_sink x s⟩
  have p1 := r1.follows.params
  have a1 : Answers t1 (y :: xs') := r1.follows.answers (by simpa using ha)
  have e2 := shiftDiag_eq (r1.ready hs) (p1 ▸ ht) hv r1.curSel (p1 ▸ hyd) a1.1
  obtain ⟨t2, ht2⟩ : ∃ t2, t2 = ({ y.after t1 with lines := Machine.idleLines t1 } : State) := ⟨_, rfl⟩
  have r2 : Ran t1 (blk, .readback) [y] [] t2 := by
    subst ht2
    exact ⟨rfl, after_tap y t1, after_phase y t1, rfl, (after_curSel y t1).trans r1.curSel,
      by rw [List.append_nil]; exact after_sink y t1⟩
  have r12 : Ran s (blk, .readback) ([x] ++ [y]) ([] ++ []) t2 := r1.trans r2
  have p2 := r12.follows.params
  obtain ⟨u, e3, r3⟩ := reads_ran hv phases (r12.ready hs) (p2 ▸ ht) (p2 ▸ hf) r12.curSel (p2 ▸ hr)
    (r12.follows.answers (by simpa using ha))
  exact ⟨u, by rw [readPair, e1, bind_ok, ← ht1, e2, bind_ok, ← ht2, e3], by simpa using r12.trans r3⟩

/-- One operation for each element of a loop that runs so (R306, R307). -/
theorem forEach_ran {α : Type} {f : α → State → Res Unit} {each : α → List Exchange → List SweepSample → Prop}
    {p : Params} {sel : Blk × Sel}
    (hf : ∀ a (s : State) xs ss, Ready s → s.params = p → each a xs ss → Answers s xs →
      ∃ t, f a s = .ok () t ∧ Ran s sel xs ss t)
    (as : List α) {xs : List Exchange} {ss : List SweepSample} {s : State} (hs : Ready s) (hp : s.params = p)
    (hx : areEach each as xs ss) (ha : Answers s xs) :
    ∃ t, forEach f as s = .ok () t ∧ Ran s sel xs ss t := by
  induction as generalizing s xs ss with
  | nil =>
    obtain ⟨rfl, rfl⟩ := hx
    exact ⟨s, rfl, Ran.refl s _⟩
  | cons a more ih =>
    obtain ⟨xs1, xs2, ss1, ss2, rfl, rfl, h1, h2⟩ := hx
    obtain ⟨t, e, r⟩ := hf a s xs1 ss1 hs hp h1 ((answers_append _ _ _).1 ha).1
    obtain ⟨u, e', r'⟩ := ih (r.ready hs) (r.follows.params.trans hp) h2 (r.follows.answers ha)
    exact ⟨u, by rw [forEach_cons, e, bind_ok, e'], r.trans r'⟩

/-- The record for a member of `TESTPATT_SET` is the one written out for the statements (R305). -/
theorem lookup_of_mem {α : Type} {members : List (Nat × α)} {m : Nat} {a : α}
    (hn : (members.map Prod.fst).Nodup) (h : (m, a) ∈ members) : lookup members m = some a := by
  induction members with
  | nil => cases h
  | cons x xs ih =>
    rw [List.map_cons, List.nodup_cons] at hn
    rcases List.mem_cons.1 h with rfl | h
    · simp [lookup]
    · have hne : x.1 ≠ m := fun he => hn.1 (he ▸ List.mem_map_of_mem (f := Prod.fst) h)
      simpa [lookup, hne] using ih hn.2 h

theorem lookup_eq_none {α : Type} {members : List (Nat × α)} {m : Nat} (h : m ∉ members.map Prod.fst) :
    lookup members m = none := by
  rw [lookup, Option.map_eq_none_iff, List.find?_eq_none]
  intro x hx hm
  exact h (of_decide_eq_true hm ▸ List.mem_map_of_mem (f := Prod.fst) hx)

theorem wf_patterns {p : Params} (h : p.wf = true) : p.testPatterns.numbers.Nodup := by
  simp only [Params.wf, Bool.and_eq_true, decide_eq_true_eq] at h
  exact h.1.1.1.1.1.2

theorem coreParamsFor_of_is {p : Params} {m : Nat} {fs : Fields} (hp : p.wf = true) (h : isCoreParams p m fs) :
    coreParamsFor p m = some fs := by
  have hn := wf_patterns hp
  unfold isCoreParams at h
  unfold coreParamsFor patternFields
  cases ht : p.testPatterns with
  | ready members =>
    rw [ht] at hn
    simp only [ht] at h
    obtain ⟨l, hl, rfl⟩ := h
    simp only [lookup_of_mem hn hl]
    rfl
  | byField f members =>
    rw [ht] at hn
    simp only [ht] at h
    obtain ⟨v, hv, rfl⟩ := h
    simp only [lookup_of_mem hn hv]
    rfl

theorem coreParamsFor_eq_none {p : Params} {m : Nat} (h : m ∉ p.testPatterns.numbers) : coreParamsFor p m = none := by
  unfold coreParamsFor patternFields
  cases ht : p.testPatterns with
  | ready members => rw [ht] at h; simp only [lookup_eq_none h]; rfl
  | byField f members => rw [ht] at h; simp only [lookup_eq_none h]; rfl

/-- `SWEEP_BLOCK` answered in full (R308). -/
theorem sweepBlock_ran {blk : Blk} {bitNumber pos n : Nat} (hv : validPosition pos n = true)
    {xs : List Exchange} {ss : List SweepSample} {s : State} (hs : Ready s)
    (ht : namesOnly (fieldKeys charLayout) s.params.diagTemplate = true) (hf : repliesFit s.params blk pos n)
    (hx : areSweepBlock s.params blk bitNumber pos n xs ss) (ha : Answers s xs) :
    ∃ t, sweepBlock blk bitNumber pos n s = .ok () t ∧ Ran s (blk, .readback) xs ss t :=
  forEach_ran (p := s.params) (fun _ _ _ _ ht' hp hy hay =>
    forEach_ran (p := s.params) (fun _ _ _ _ hu hp' hy' hay' =>
      readPair_ran hv hu (hp' ▸ ht) (hp' ▸ hf) (hp' ▸ hy') hay') _ ht' hp hy hay) _ hs rfl hx ha

end Sys2Proof.Machine
end

