-- ==== Sys2Proof/Laws/Codec.lean ====
section
/-! SUPPORT. Integers as bits and back (R14), fields into an image and back (R88, R127). -/

namespace Sys2Proof.Machine

/-! ### Integers as bits -/

/-- `be` on a natural number: its low `w` bits, most significant first. -/
def beNat (w m : Nat) : Bits := (List.range w).map fun i => m.testBit (w - 1 - i)

theorem be_eq_beNat (w : Nat) (v : Int) : be w v = beNat w (v % ((2 ^ w : Nat) : Int)).toNat := rfl

theorem beNat_succ (w m : Nat) : beNat (w + 1) m = beNat w (m / 2) ++ [m.testBit 0] := by
  rw [beNat, List.range_succ, List.map_append, beNat]
  congr 1
  · refine List.map_congr_left fun i hi => ?_
    have hi' := List.mem_range.mp hi
    rw [← Nat.testBit_succ]
    congr 1
    omega
  · simp

theorem ube_nil : ube [] = 0 := rfl

theorem ube_concat (a : Bits) (b : Bool) : ube (a ++ [b]) = 2 * ube a + b.toNat := by
  simp [ube, List.foldl_append]

theorem ube_beNat (w m : Nat) : ube (beNat w m) = m % 2 ^ w := by
  induction w generalizing m with
  | zero => simp [beNat, ube, Nat.mod_one]
  | succ w ih =>
    rw [beNat_succ, ube_concat, ih, Nat.pow_succ, Nat.mul_comm (2 ^ w) 2, Nat.mod_mul]
    have : (m.testBit 0).toNat = m % 2 := by
      rw [Nat.testBit_zero]
      rcases Nat.mod_two_eq_zero_or_one m with h | h <;> simp [h]
    omega

theorem beNat_ube (v : Bits) : beNat v.length (ube v) = v := by
  induction v using List.reverseRecOn with
  | nil => rfl
  | append_singleton a b ih =>
    rw [List.length_append, List.length_singleton, beNat_succ, ube_concat]
    have h1 : (2 * ube a + b.toNat) / 2 = ube a := by cases b <;> (simp; try omega)
    have h2 : (2 * ube a + b.toNat).testBit 0 = b := by
      rw [Nat.testBit_zero]; cases b <;> simp
    rw [h1, h2, ih]

theorem ube_lt (v : Bits) : ube v < 2 ^ v.length := by
  have h := ube_beNat v.length (ube v)
  rw [beNat_ube] at h
  rw [h]
  exact Nat.mod_lt _ (Nat.two_pow_pos _)

/-- Reading what `be` wrote gives the value modulo 2 to the width (R14). -/
theorem ube_be (w : Nat) (v : Int) : (ube (be w v) : Int) = v % ((2 ^ w : Nat) : Int) := by
  have hpos : (0 : Int) < ((2 ^ w : Nat) : Int) := by exact_mod_cast Nat.two_pow_pos w
  have h0 := Int.emod_nonneg v (ne_of_gt hpos)
  have h1 := Int.emod_lt_of_pos v hpos
  rw [be_eq_beNat, ube_beNat, Nat.mod_eq_of_lt (by omega), Int.toNat_of_nonneg h0]

/-- Writing what `ube` read gives the bits. -/
theorem be_ube {w : Nat} {v : Bits} (h : v.length = w) : be w (ube v : Int) = v := by
  subst h
  have hlt := ube_lt v
  rw [be_eq_beNat, Int.emod_eq_of_lt (by omega) (by omega), Int.toNat_natCast, beNat_ube]

/-- Masking (R121): a value and its residue have the same bits. -/
theorem be_emod (w : Nat) (v : Int) : be w (v % ((2 ^ w : Nat) : Int)) = be w v := by
  simp only [be_eq_beNat, Int.emod_emod]

@[simp] theorem be_bitValue (b : Bool) : be 1 (bitValue b) = [b] := by cases b <;> rfl

theorem be_zero (w : Nat) : be w 0 = List.replicate w false := by
  simp [be, List.map_const']

@[simp] theorem ube_bit (b : Bool) : ube [b] = b.toNat := by simp [ube]

theorem length_laneLayoutBits (p : Params) (fs : Fields) (i : Nat) :
    (laneLayoutBits p fs i).length = (p.laneLayout.map Prod.snd).sum := by
  unfold laneLayoutBits
  induction p.laneLayout with
  | nil => rfl
  | cons nw more ih => simp [ih]

theorem wf_lanes {p : Params} (h : p.wf = true) :
    p.laneLayout = [] ∨ ((p.laneLayout.map Prod.snd).sum = 26 ∧ (p.laneLayout.map Prod.fst).Nodup) := by
  simp only [Params.wf, Bool.and_eq_true, decide_eq_true_eq, Bool.or_eq_true, List.isEmpty_iff] at h
  exact h.1.1.1.1.1.1.2

/-! ### Images -/

theorem length_slot_bits (value : FieldKey → Int) (s : Slot) : (Slot.bits value s).length = s.width := by
  cases s <;> simp [Slot.bits, Slot.width]

theorem length_encodeLayout (value : FieldKey → Int) (layout : List Slot) :
    (encodeLayout value layout).length = (layout.map Slot.width).sum := by
  induction layout with
  | nil => rfl
  | cons s rest ih => simp [encodeLayout, length_slot_bits] at ih ⊢

theorem encodeLayout_cons (value : FieldKey → Int) (s : Slot) (rest : List Slot) :
    encodeLayout value (s :: rest) = Slot.bits value s ++ encodeLayout value rest := rfl

theorem take_slot (value : FieldKey → Int) (s : Slot) (tail : Bits) :
    (Slot.bits value s ++ tail).take s.width = Slot.bits value s := by
  rw [← length_slot_bits value s, List.take_left]

theorem drop_slot (value : FieldKey → Int) (s : Slot) (tail : Bits) :
    (Slot.bits value s ++ tail).drop s.width = tail := by
  rw [← length_slot_bits value s, List.drop_left]

/-- The round trip of R131, for every layout and so for every variant. -/
theorem decodeLayout_encodeLayout (value : FieldKey → Int) (layout : List Slot) :
    decodeLayout layout (encodeLayout value layout) = layout.map (readBack value) := by
  induction layout with
  | nil => rfl
  | cons s rest ih =>
    rw [encodeLayout_cons, decodeLayout, take_slot, drop_slot, ih, List.map_cons]
    congr 1
    cases s with
    | zero k w => simp only [Slot.bits, readBack, Slot.key, ← be_zero, ube_be, Int.zero_emod]
    | field k w => simp only [Slot.bits, readBack, Slot.key, ube_be]

theorem zerosHold_encodeLayout (value : FieldKey → Int) (layout : List Slot) :
    zerosHold layout (encodeLayout value layout) = true := by
  induction layout with
  | nil => rfl
  | cons s rest ih =>
    have ht := take_slot value s (encodeLayout value rest)
    have hd := drop_slot value s (encodeLayout value rest)
    cases s with
    | zero k w =>
      simp only [Slot.width] at ht hd
      rw [encodeLayout_cons, zerosHold, ht, hd, ih]
      simp [Slot.bits]
    | field k w =>
      simp only [Slot.width] at hd
      simp only [encodeLayout_cons, zerosHold, hd, ih]

/-! ### Fields read at an index -/

theorem ube_slice_one (v : Bits) (i : Nat) : ube (slice v i 1) = (bitAt v i).toNat := by
  unfold slice bitAt
  by_cases h : i < v.length
  · rw [List.drop_eq_getElem_cons h, List.getD_eq_getElem?_getD, List.getElem?_eq_getElem h, List.take_succ_cons,
      List.take_zero, ube_bit]
    rfl
  · rw [List.drop_eq_nil_of_le (by omega), List.getD_eq_getElem?_getD, List.getElem?_eq_none (by omega)]
    rfl

theorem take_drop_slice (v : Bits) (i w : Nat) : (v.drop i).take w = slice v i w := rfl

/-- The fields of an image are what stands at the running index of its layout (R88). -/
theorem decodeLayout_at (layout : List Slot) (v : Bits) (i : Nat) :
    decodeLayout layout (v.drop i) =
      match layout with
      | [] => []
      | s :: rest => (s.key, (ube (slice v i s.width) : Int)) :: decodeLayout rest (v.drop (i + s.width)) := by
  cases layout with
  | nil => rfl
  | cons s rest => simp only [decodeLayout, take_drop_slice, List.drop_drop]

/-- The field with number `k` of a layout stands, in an image, behind the widths before it (R88). -/
theorem slice_encodeLayout (value : FieldKey → Int) {layout : List Slot} {k i w : Nat} {key : FieldKey}
    (h : layout[k]? = some (.field key w)) (hi : ((layout.take k).map Slot.width).sum = i) :
    slice (encodeLayout value layout) i w = be w (value key) := by
  induction layout generalizing k i with
  | nil => simp at h
  | cons s rest ih =>
    cases k with
    | zero =>
      simp only [List.getElem?_cons_zero, Option.some.injEq] at h
      subst h
      simp only [List.take_zero, List.map_nil, List.sum_nil] at hi
      subst hi
      exact take_slot value (.field key w) _
    | succ k =>
      rw [List.getElem?_cons_succ] at h
      rw [List.take_succ_cons, List.map_cons, List.sum_cons] at hi
      subst hi
      rw [encodeLayout_cons, slice, ← List.drop_drop, drop_slot]
      exact ih h rfl

/-- A word field read back from an image. -/
theorem wordAt_encodeLayout (value : FieldKey → Int) {layout : List Slot} {i w : Nat} {key : FieldKey}
    (x : BitVec w) (k : Nat) (h : layout[k]? = some (.field key w)) (hi : ((layout.take k).map Slot.width).sum = i)
    (hv : value key = wordValue x) : wordAt (encodeLayout value layout) i w = x := by
  have hlt := x.isLt
  have h1 := ube_be w (wordValue x)
  have h2 : wordValue x % ((2 ^ w : Nat) : Int) = (x.toNat : Int) := by
    unfold wordValue
    exact Int.emod_eq_of_lt (by omega) (by exact_mod_cast hlt)
  have h3 : ube (be w (wordValue x)) = x.toNat := by exact_mod_cast h1.trans h2
  rw [wordAt, slice_encodeLayout value h hi, hv, h3]
  simp

/-- A one-bit field read back from an image. -/
theorem bitAt_encodeLayout (value : FieldKey → Int) {layout : List Slot} {i : Nat} {key : FieldKey} (b : Bool)
    (k : Nat) (h : layout[k]? = some (.field key 1)) (hi : ((layout.take k).map Slot.width).sum = i)
    (hv : value key = bitValue b) : bitAt (encodeLayout value layout) i = b := by
  have hs := slice_encodeLayout value h hi
  have hu := ube_slice_one (encodeLayout value layout) i
  rw [hs, hv, be_bitValue, ube_bit] at hu
  cases b <;> cases hb : bitAt (encodeLayout value layout) i <;> simp [hb] at hu ⊢

end Sys2Proof.Machine
end

