-- ==== Sys2Proof/Laws/Decode.lean ====
section
/-! SUPPORT. Each operand kind is read back as it was written, whatever follows it. -/

namespace Sys2Proof

/-- `p` reads what `put` writes of the values that satisfy `ok`. -/
def Reads {α : Type} (ok : α → Prop) (p : Parser α) (put : α → List Byte) : Prop :=
  ∀ (a : α) (rest : List Byte), ok a → p (put a ++ rest) = .ok (a, rest)

theorem andThen_ok {α β : Type} {p : Parser α} {f : α → Parser β} {bs rest : List Byte} {a : α}
    (h : p bs = .ok (a, rest)) : andThen p f bs = f a rest := by
  simp only [andThen, h]

theorem parseMap_ok {α β : Type} {p : Parser α} {f : α → β} {bs rest : List Byte} {a : α}
    (h : p bs = .ok (a, rest)) : parseMap p f bs = .ok (f a, rest) := by
  simp only [parseMap, andThen, h, parsed]

theorem getNat_putNatUpTo (fuel n : Nat) (rest : List Byte) (h : n < 128 * 2 ^ fuel) :
    getNat (putNatUpTo fuel n ++ rest) = .ok (n, rest) := by
  induction fuel generalizing n with
  | zero =>
    have hn : n < 128 := by simpa using h
    have hm : n % 256 = n := Nat.mod_eq_of_lt (by omega)
    simp [putNatUpTo, getNat, Nat.mod_eq_of_lt hn, hm, hn]
  | succ fuel ih =>
    unfold putNatUpTo
    split
    · rename_i hn
      have hm : n % 256 = n := Nat.mod_eq_of_lt (by omega)
      simp [getNat, hm, hn]
    · have hd : n / 128 < 128 * 2 ^ fuel := by
        rw [Nat.div_lt_iff_lt_mul (by omega)]
        calc n < 128 * 2 ^ (fuel + 1) := h
          _ = 128 * 2 ^ fuel * 2 := by ring
          _ ≤ 128 * 2 ^ fuel * 128 := Nat.mul_le_mul_left _ (by omega)
      have hb : (128 + n % 128) % 256 = 128 + n % 128 := Nat.mod_eq_of_lt (by omega)
      have hlt : ¬ 128 + n % 128 < 128 := by omega
      simp only [List.cons_append, getNat, BitVec.toNat_ofNat, Nat.reducePow, hb, hlt, if_false, ih _ hd]
      congr 2
      omega

@[simp] theorem getNat_putNat (n : Nat) (rest : List Byte) : getNat (putNat n ++ rest) = .ok (n, rest) := by
  refine getNat_putNatUpTo n n rest ?_
  have := Nat.lt_two_pow_self (n := n)
  omega

theorem intOfNat_natOfInt (v : Int) : intOfNat (natOfInt v) = v := by
  cases v with
  | ofNat n => simp [natOfInt, intOfNat]
  | negSucc n =>
    have h1 : (2 * n + 1) % 2 = 1 := by omega
    have h2 : (2 * n + 1) / 2 = n := by omega
    simp [natOfInt, intOfNat, h1, h2]

@[simp] theorem getInt_putInt (v : Int) (rest : List Byte) : getInt (putInt v ++ rest) = .ok (v, rest) := by
  rw [getInt, putInt, parseMap_ok (getNat_putNat _ _), intOfNat_natOfInt]

@[simp] theorem getBool_putBool (b : Bool) (rest : List Byte) : getBool (putBool b ++ rest) = .ok (b, rest) := by
  cases b <;> rfl

@[simp] theorem getBlk_putBlk (b : Blk) (rest : List Byte) : getBlk (putBlk b ++ rest) = .ok (b, rest) := by
  cases b <;> rfl

@[simp] theorem getSel_putSel (x : Sel) (rest : List Byte) : getSel (putSel x ++ rest) = .ok (x, rest) := by
  cases x <;> rfl

theorem getTapState_put {t : TapState} (h : t ≠ .unknown) (rest : List Byte) :
    getTapState (putTapState t ++ rest) = .ok (t, rest) := by
  cases t <;> first | rfl | contradiction

theorem getMany_flatMap {α : Type} {ok : α → Prop} {p : Parser α} {put : α → List Byte} (h : Reads ok p put)
    (xs : List α) (rest : List Byte) (hx : ∀ x ∈ xs, ok x) :
    getMany p xs.length (xs.flatMap put ++ rest) = .ok (xs, rest) := by
  induction xs with
  | nil => rfl
  | cons x xs ih =>
    rw [List.flatMap_cons, List.append_assoc, List.length_cons, getMany,
      andThen_ok (h x _ (hx x (by simp))), parseMap_ok (ih fun y hy => hx y (by simp [hy]))]

theorem getList_putList {α : Type} {ok : α → Prop} {p : Parser α} {put : α → List Byte} (h : Reads ok p put)
    (xs : List α) (rest : List Byte) (hx : ∀ x ∈ xs, ok x) :
    getList p (putList put xs ++ rest) = .ok (xs, rest) := by
  rw [getList, putList, List.append_assoc, andThen_ok (getNat_putNat _ _), getMany_flatMap h xs rest hx]

@[simp] theorem getBits_putBits (v : Bits) (rest : List Byte) : getBits (putBits v ++ rest) = .ok (v, rest) :=
  getList_putList (ok := fun _ => True) (fun b rest _ => getBool_putBool b rest) v rest fun _ _ => trivial

@[simp] theorem getBytes_putBytes (bs : List Byte) (rest : List Byte) :
    getBytes (putBytes bs ++ rest) = .ok (bs, rest) :=
  getList_putList (ok := fun _ => True) (fun _ _ _ => rfl) bs rest fun _ _ => trivial

@[simp] theorem getCycle_putCycle (c : Bool × Bool) (rest : List Byte) :
    getCycle (putCycle c ++ rest) = .ok (c, rest) := by
  rw [getCycle, putCycle, List.append_assoc, andThen_ok (getBool_putBool _ _), parseMap_ok (getBool_putBool _ _)]

@[simp] theorem getCycles_putCycles (cs : List (Bool × Bool)) (rest : List Byte) :
    getList getCycle (putList putCycle cs ++ rest) = .ok (cs, rest) :=
  getList_putList (ok := fun _ => True) (fun c rest _ => getCycle_putCycle c rest) cs rest fun _ _ => trivial

theorem fieldNameOfCode_code (n : FieldName) : fieldNameOfCode (fieldNameCode n) = n := by
  cases n with
  | other m =>
    change fieldNameOfCode (40 + m) = .other m
    unfold fieldNameOfCode
    split <;> first | omega | (congr 1; omega)
  | _ => rfl

@[simp] theorem getLane_putLane (l : Option Nat) (rest : List Byte) : getLane (putLane l ++ rest) = .ok (l, rest) := by
  cases l with
  | none => rw [getLane, putLane, parseMap_ok (getNat_putNat _ _), if_pos rfl]
  | some i =>
    rw [getLane, putLane, parseMap_ok (getNat_putNat _ _), if_neg (by omega), Nat.add_sub_cancel]

@[simp] theorem getFieldEntry_put (kv : FieldKey × Int) (rest : List Byte) :
    getFieldEntry (putFieldEntry kv ++ rest) = .ok (kv, rest) := by
  rw [getFieldEntry, putFieldEntry, List.append_assoc, List.append_assoc, andThen_ok (getNat_putNat _ _),
    andThen_ok (getLane_putLane _ _), parseMap_ok (getInt_putInt _ _), fieldNameOfCode_code]

@[simp] theorem getFields_putFields (fs : Fields) (rest : List Byte) :
    getFields (putFields fs ++ rest) = .ok (fs, rest) :=
  getList_putList (ok := fun _ => True) (fun kv rest _ => getFieldEntry_put kv rest) fs rest fun _ _ => trivial

@[simp] theorem getSweepParams_put (p : SweepParams) (rest : List Byte) :
    getSweepParams (putSweepParams p ++ rest) = .ok (p, rest) := by
  rw [getSweepParams, putSweepParams, List.append_assoc, List.append_assoc, List.append_assoc, List.append_assoc,
    andThen_ok (getNat_putNat _ _), andThen_ok (getNat_putNat _ _), andThen_ok (getNat_putNat _ _),
    andThen_ok (getNat_putNat _ _), parseMap_ok (getBytes_putBytes _ _)]

theorem getSample_put (r m o i c : Bool) (rest : List Byte) :
    getSample (sampleToByte r m o i c :: rest) = .ok (.sample r m o i c, rest) := by
  cases r <;> cases m <;> cases o <;> cases i <;> cases c <;> rfl

theorem getImage_put {layout : List Machine.Slot} {length : Nat} {v : Bits} (hl : v.length = length)
    (hz : Machine.zerosHold layout v = true) (rest : List Byte) :
    getImage layout length (v.flatMap putBool ++ rest) = .ok (v, rest) := by
  subst hl
  have h := getMany_flatMap (ok := fun _ => True) (p := getBool) (put := putBool)
    (fun b rest _ => getBool_putBool b rest) v rest fun _ _ => trivial
  rw [getImage, andThen_ok h, if_pos hz]

end Sys2Proof
end

