-- ==== Sys2Proof/Laws/Keeps.lean ====
section
/-! SUPPORT. What the scan controller's commands and the sweep keep: each runs on or aborts, whatever the transport
answers. -/

namespace Sys2Proof.Machine

theorem Grows.of_eqs {s t : State} (h1 : t.params = s.params) (h2 : t.inbox = s.inbox) (h3 : t.result = s.result)
    (h4 : t.tx = s.tx) (h5 : t.rx = s.rx) (h6 : s.sink <+: t.sink) : Grows s t :=
  ⟨h1, h2, h3, h4 ▸ List.prefix_refl _, h5 ▸ List.prefix_refl _, h6⟩

/-- The state a transfer leaves when it succeeds has the TAP it began with. -/
theorem bbXfer_tap (cmd : Command) (bytes : List Byte) (s : State) :
    (bbXfer cmd bytes s).sat (fun _ t => t.tap = s.tap) (fun _ => True) := by
  have hraise : ∀ (e : Err) (t : State), (raise e t : Res (List Byte)).sat (fun _ u => u.tap = s.tap)
      (fun _ => True) := fun e t =>
    sat_bind (closeTransport_sat (t.setErr e)) (fun _ h => h.elim) fun _ _ _ => trivial
  unfold bbXfer txWrite
  cases s.writeAnswer bytes with
  | failed => exact hraise _ _
  | silent => trivial
  | accepted n =>
    simp only [bind_ok]
    split
    · unfold rxRead
      split
      · simp only [bind_ok]
        split
        · rfl
        · exact hraise _ _
      · exact hraise _ _
      · trivial
    · exact hraise _ _

/-- `RunCycles` that succeeds moves the TAP along its cycles (R174). -/
theorem runCycles_tap (cmd : Command) (cycles : List (Bool × Bool)) (s : State) :
    (runCycles cmd cycles s).sat (fun _ t => t.tap = tapWalk s.tap (cycles.map Prod.fst)) (fun _ => True) := by
  unfold runCycles
  refine sat_accept fun _ => ?_
  split
  · rename_i h; subst h; rfl
  · refine sat_bind (bbXfer_tap cmd _ s) (fun _ _ => trivial) fun rd t ht => ?_
    split
    · trivial
    · exact (clockAll_tap cycles t).trans (by rw [ht])

/-- `WRITE_IR` that succeeds ends in Run-Test/Idle (R184). -/
theorem writeIr_tap (cmd : Command) (w : Bits) (s : State) :
    (writeIr cmd w s).sat (fun _ t => t.tap = .runTestIdle) (fun _ => True) := by
  unfold writeIr
  refine sat_accept fun _ => sat_accept fun hn => ?_
  have hw : w ≠ [] ∧ s.tap = .runTestIdle := by
    unfold State.noWrite State.offIdle at hn
    split at hn
    · simp at hn
    · split at hn
      · exact ⟨‹_›, ‹_›⟩
      · simp at hn
  split
  · refine sat_bind (runCycles_tap cmd _ s) (fun _ _ => trivial) fun _ t ht => ?_
    rw [hw.2, tapWalk_writeIr w hw.1] at ht
    exact ht
  · exact sat_bind (sat_mono (r := engineDo cmd (.writeInstructionRegister w) s)
      (P := fun _ _ => True) (Q := fun _ => True) (by cases engineDo cmd (.writeInstructionRegister w) s <;> trivial)
      (fun _ _ h => h) (fun _ h => h)) (fun _ _ => trivial) fun _ t _ => rfl

theorem sat_and {α : Type} {r : Res α} {P P' : α → State → Prop} {Q Q' : State → Prop} (h : r.sat P Q)
    (h' : r.sat P' Q') : r.sat (fun a t => P a t ∧ P' a t) (fun t => Q t ∧ Q' t) := by
  cases r with
  | ok a s => exact ⟨h, h'⟩
  | raised s => exact ⟨h, h'⟩
  | refused _ => trivial
  | stuck _ => trivial

/-- A phase set inside a command, and what runs on from there, in the words of the state before it. -/
theorem writeOpcode_runsOn (cmd : Command) (op : Bits) (selects : Option (Blk × Sel)) (pos n : Nat) {s : State}
    (h : Running s) : RunsOn s (writeOpcode cmd op selects pos n s) := by
  unfold writeOpcode
  refine sat_accept_live fun _ => sat_accept fun _ => RunsOn.bind (padIr_runsOn op pos n h) fun w t ht hp hg => ?_
  refine sat_bind (sat_and (writeIr_runsOn cmd w ht) (writeIr_tap cmd w t)) (fun _ h => h.1) fun _ u hu => ?_
  obtain ⟨⟨hr, hph, hgr⟩, htap⟩ := hu
  refine ⟨⟨hr.1, fun hx => ?_⟩, hph, ⟨hgr.params, hgr.inbox, hgr.result, hgr.tx, hgr.rx, hgr.sink⟩⟩
  rw [setCurSel_tap, htap] at hx
  simp at hx

theorem select_runsOn (cmd : Command) (blk : Blk) (sel : Sel) (pos n : Nat) {s : State} (h : Running s) :
    RunsOn s (select cmd blk sel pos n s) := writeOpcode_runsOn cmd _ _ pos n h

theorem shift_runsOn (cmd : Command) (blk : Blk) (v : Bits) (pos n : Nat) {s : State} (h : Running s) :
    RunsOn s (shift cmd blk v pos n s) := by
  unfold shift
  exact sat_accept_live fun _ => sat_accept fun _ => sat_accept fun _ =>
    RunsOn.bind (padDr_runsOn v blk pos n h) fun w t ht _ _ => writeDr_runsOn cmd w ht

/-- One phase of a transaction: what runs on in the new phase has run on from the state before. -/
theorem Running.setPhase {s : State} (h : Running s) (p : Phase) : Running (s.setPhase p) :=
  h.of_same rfl rfl rfl rfl

/-- As `RunsOn.bind`, for a continuation that may change the phase. -/
def RunsIn {α : Type} (s : State) (p : Phase) (r : Res α) : Prop :=
  r.sat (fun _ t => Running t ∧ t.phase = p ∧ Grows s t) (fun t => Aborted t ∧ Grows s t)

theorem RunsOn.into {α β : Type} {s : State} {p q : Phase} {r : Res α} {f : α → State → Res β}
    (h : RunsOn (s.setPhase p) r) (hf : ∀ a t, Running t → Grows s t → RunsIn t q (f a t)) :
    RunsIn s q (r.bind f) := by
  have hg : ∀ {t : State}, Grows (s.setPhase p) t → Grows s t := fun g =>
    ⟨g.params, g.inbox, g.result, g.tx, g.rx, g.sink⟩
  refine sat_bind h (fun t ht => ⟨ht.1, hg ht.2⟩) fun a t ht => ?_
  exact sat_mono (hf a t ht.1 (hg ht.2.2)) (fun b u hu => ⟨hu.1, hu.2.1, (hg ht.2.2).trans hu.2.2⟩)
    (fun u hu => ⟨hu.1, (hg ht.2.2).trans hu.2⟩)

theorem phase_of_noTransact {s : State} {sel : Sel} {v : Bits} (h : s.noTransact sel v = none) : s.phase = .idle := by
  by_contra hp
  simp [State.noTransact, hp] at h

theorem transact_runsOn (cmd : Command) (blk : Blk) (sel : Sel) (v : Bits) (pos n : Nat) {s : State}
    (h : Running s) : RunsOn s (transact cmd blk sel v pos n s) := by
  unfold transact
  refine sat_accept_live fun _ => sat_accept fun hn => ?_
  have hi := phase_of_noTransact hn
  suffices hs : RunsIn s .idle _ from sat_mono hs (fun _ _ h => ⟨h.1, h.2.1.trans hi.symm, h.2.2⟩) (fun _ h => h)
  refine RunsOn.into (select_runsOn cmd _ _ _ _ (h.setPhase _)) fun _ t ht _ => ?_
  refine RunsOn.into (shift_runsOn cmd _ _ _ _ (ht.setPhase _)) fun _ u hu _ => ?_
  refine RunsOn.into (tapReset_runsOn cmd (hu.setPhase _)) fun _ x hx _ => ?_
  exact RunsOn.into (select_runsOn cmd _ _ _ _ (hx.setPhase _)) fun _ y hy _ =>
    ⟨hy.setPhase _, rfl, Grows.of_eqs rfl rfl rfl rfl rfl (List.prefix_refl _)⟩

theorem countersOf_runsOn (a : Bits) (length dropped : Nat) {s : State} (h : Running s) :
    RunsOn s (countersOf a length dropped s) := by
  unfold countersOf
  split
  · exact raise_runsOn (by simp) h.1.2
  · exact runsOn_ok h _

theorem parseReply_runsOn (reply : Bits) (blk : Blk) (pos n : Nat) {s : State} (h : Running s) :
    RunsOn s (parseReply reply blk pos n s) := by
  unfold parseReply
  refine sat_accept fun _ => ?_
  split
  · exact countersOf_runsOn _ _ _ h
  · exact raise_runsOn (by simp) h.1.2

theorem forEach_runsOn {α : Type} {f : α → State → Res Unit} (hf : ∀ a s, Running s → RunsOn s (f a s))
    (xs : List α) {s : State} (h : Running s) : RunsOn s (forEach f xs s) := by
  induction xs generalizing s with
  | nil => exact runsOn_ok h ()
  | cons x xs ih => exact RunsOn.bind (hf x s h) fun _ t ht _ _ => ih ht

theorem ofExcept_runsOn {α : Type} (x : Except Refusal α) {s : State} (h : Running s) : RunsOn s (ofExcept x s) := by
  cases x with
  | ok a => exact runsOn_ok h a
  | error r => trivial

theorem transactImage_runsOn (blk : Blk) (sel : Sel) (image : Except Refusal Bits) (pos n : Nat) {s : State}
    (h : Running s) : RunsOn s (transactImage blk sel image pos n s) :=
  RunsOn.bind (ofExcept_runsOn image h) fun v _ ht _ _ =>
    RunsOn.bind (transact_runsOn _ _ _ v _ _ ht) fun _ _ hu _ _ => runsOn_ok hu ()

theorem configureBlock_runsOn (blk : Blk) (coreParams : Fields) (pos n : Nat) {s : State} (h : Running s) :
    RunsOn s (configureBlock blk coreParams pos n s) :=
  RunsOn.bind (transactImage_runsOn _ _ _ _ _ h) fun _ _ ht _ _ =>
    RunsOn.bind (transactImage_runsOn _ _ _ _ _ ht) fun _ _ hu _ _ => transactImage_runsOn _ _ _ _ _ hu

theorem shiftDiag_runsOn (blk : Blk) (v : Int) (b : Nat) (ph : Int) (pos n : Nat) {s : State} (h : Running s) :
    RunsOn s (shiftDiag blk v b ph pos n s) :=
  RunsOn.bind (ofExcept_runsOn _ h) fun _ _ ht _ _ => shift_runsOn _ _ _ _ _ ht

theorem emit_runsOn {s : State} (h : Running s) (xs : List SweepSample) : RunsOn s (Res.ok () (s.emit xs)) :=
  ⟨h.of_same rfl rfl rfl rfl, rfl, Grows.of_eqs rfl rfl rfl rfl rfl (by simp)⟩

theorem readPhase_runsOn (blk : Blk) (v : Int) (b pos n : Nat) (ph : Int) {s : State} (h : Running s) :
    RunsOn s (readPhase blk v b pos n ph s) :=
  RunsOn.bind (shiftDiag_runsOn _ _ _ _ _ _ h) fun _ _ ht _ _ =>
    RunsOn.bind (parseReply_runsOn _ _ _ _ ht) fun _ _ hu _ _ => emit_runsOn hu _

theorem readPair_runsOn (blk : Blk) (v : Int) (pos n b : Nat) {s : State} (h : Running s) :
    RunsOn s (readPair blk v pos n b s) :=
  RunsOn.bind (select_runsOn _ _ _ _ _ h) fun _ _ ht _ _ =>
    RunsOn.bind (shiftDiag_runsOn _ _ _ _ _ _ ht) fun _ _ hu _ _ =>
      forEach_runsOn (fun ph _ hx => readPhase_runsOn _ _ _ _ _ ph hx) _ hu

theorem sweepBlock_runsOn (blk : Blk) (bitNumber pos n : Nat) {s : State} (h : Running s) :
    RunsOn s (sweepBlock blk bitNumber pos n s) :=
  forEach_runsOn (fun v _ hs => forEach_runsOn (fun b _ ht => readPair_runsOn blk v pos n b ht) _ hs) _ h

theorem runBlock_runsOn (coreParams : Fields) (bitNumber pos n : Nat) (blk : Blk) {s : State} (h : Running s) :
    RunsOn s (runBlock coreParams bitNumber pos n blk s) :=
  RunsOn.bind (configureBlock_runsOn _ _ _ _ h) fun _ _ ht _ _ => sweepBlock_runsOn _ _ _ _ ht

end Sys2Proof.Machine
end

