-- ==== Sys2Proof/Laws/Emits.lean ====
section
/-! SUPPORT. What every operation does to the histories, the sink and the parameters, from any state at all and whatever
the transport answers. -/

namespace Sys2Proof.Machine

/-- The histories only grow, what the host sees besides stays, and every new sample is in the ranges of R315, its
bit-select below `bitNumber`. -/
structure Emits (bitNumber : Nat) (s t : State) : Prop where
  grows : Grows s t
  sink : ∃ new, t.sink = s.sink ++ new ∧ ∀ x ∈ new, SweepSample.inRange x ∧ x.bitSelect < bitNumber

variable {k : Nat}

theorem Emits.refl (s : State) : Emits k s s := ⟨Grows.rfl' s, [], (List.append_nil _).symm, nofun⟩

theorem Emits.trans {s t u : State} (h : Emits k s t) (h' : Emits k t u) : Emits k s u := by
  obtain ⟨xs, e, hx⟩ := h.sink
  obtain ⟨ys, e', hy⟩ := h'.sink
  exact ⟨h.grows.trans h'.grows, xs ++ ys, by rw [e', e, List.append_assoc],
    fun x hm => (List.mem_append.1 hm).elim (hx x) (hy x)⟩

/-- An update of other fields. -/
theorem Emits.of_eqs {s t : State} (h1 : t.params = s.params) (h2 : t.inbox = s.inbox) (h3 : t.result = s.result)
    (h4 : t.tx = s.tx) (h5 : t.rx = s.rx) (h6 : t.sink = s.sink) : Emits k s t :=
  ⟨Grows.of_eqs h1 h2 h3 h4 h5 (h6 ▸ List.prefix_refl _), [], h6.trans (List.append_nil _).symm, nofun⟩

theorem Emits.of_grows {s t : State} (h : Grows s t) (hs : t.sink = s.sink) : Emits k s t :=
  ⟨h, [], hs.trans (List.append_nil _).symm, nofun⟩

/-- An operation from which every value and every abort has only emitted. -/
def Emitting {α : Type} (k : Nat) (s : State) (r : Res α) : Prop := r.sat (fun _ t => Emits k s t) (Emits k s)

theorem emitting_ok {α : Type} {s t : State} (h : Emits k s t) (a : α) : Emitting k s (Res.ok a t) := h

theorem Emitting.bind {α β : Type} {s : State} {r : Res α} {f : α → State → Res β} (h : Emitting k s r)
    (hf : ∀ a t, Emitting k t (f a t)) : Emitting k s (r.bind f) :=
  sat_bind h (fun _ h => h) fun a t ht =>
    sat_mono (hf a t) (fun _ _ hu => ht.trans hu) (fun _ hu => ht.trans hu)

/-- An operation from a state that has itself only emitted. -/
theorem Emitting.after {α : Type} {s t : State} {r : Res α} (h : Emits k s t) (hr : Emitting k t r) : Emitting k s r :=
  sat_mono hr (fun _ _ hu => h.trans hu) (fun _ hu => h.trans hu)

theorem Emitting.accept {α : Type} {s : State} {no : Option Refusal} {r : Res α} (h : Emitting k s r) :
    Emitting k s (Machine.accept no r) := sat_accept fun _ => h

theorem closeTransport_emitting (s : State) : Emitting k s (closeTransport s) :=
  sat_mono (closeTransport_sat s) (fun _ _ h => .of_grows h.1 h.2.2.2.2.1) (fun _ h => h.elim)

/-- An abort has only emitted; it answers no value. -/
theorem raise_emits {α : Type} (e : Err) (s : State) (P : α → State → Prop) : (raise e s : Res α).sat P (Emits k s) := by
  have h : Emits k s (s.setErr e) := .of_eqs rfl rfl rfl rfl rfl rfl
  exact sat_bind (closeTransport_emitting (s.setErr e)) (fun _ ht => h.trans ht) fun _ _ ht => h.trans ht

theorem raise_emitting {α : Type} (e : Err) (s : State) : Emitting k s (raise e s : Res α) := raise_emits e s _

theorem engineCall_emitting (c : EngineCall) (s : State) : Emitting k s (engineCall c s) :=
  sat_mono (engineCall_sat c s) (fun _ _ h => .of_grows h.1 h.2.2.2.2.2.2.2) (fun _ h => h.elim)

theorem engineDo_emitting (cmd : Command) (c : EngineCall) (s : State) : Emitting k s (engineDo cmd c s) :=
  Emitting.bind (engineCall_emitting c s) fun a t => by
    cases a with
    | some _ => exact Emits.refl t
    | none => exact raise_emitting _ t

theorem txWrite_emitting (bytes : List Byte) (s : State) : Emitting k s (txWrite bytes s) := by
  have h : Emits k s (((s.send (bytes.map .byte)).setLines (linesAfter s.params s.lines bytes)).setEnv
      s.env.afterWrite) := .of_grows ⟨rfl, rfl, rfl, by simp, List.prefix_refl _, List.prefix_refl _⟩ rfl
  unfold txWrite
  split
  · exact h
  · exact h
  · trivial

theorem rxRead_emitting (count : Nat) (s : State) : Emitting k s (rxRead count s) := by
  unfold rxRead
  split
  · exact Emits.of_grows ⟨rfl, rfl, rfl, List.prefix_refl _, by simp, List.prefix_refl _⟩ rfl
  · exact Emits.of_eqs rfl rfl rfl rfl rfl rfl
  · trivial

theorem bbXfer_emitting (cmd : Command) (bytes : List Byte) (s : State) : Emitting k s (bbXfer cmd bytes s) :=
  Emitting.bind (txWrite_emitting bytes s) fun n t => by
    split
    · refine Emitting.bind (rxRead_emitting _ t) fun rd u => ?_
      cases rd with
      | none => exact raise_emitting _ u
      | some bs =>
        dsimp only
        split
        · exact Emits.refl u
        · exact raise_emitting _ u
    · exact raise_emitting _ t

theorem clockAll_emits (cycles : List (Bool × Bool)) (s : State) : Emits k s (clockAll cycles s) := by
  induction cycles generalizing s with
  | nil => exact Emits.refl s
  | cons c cs ih =>
    refine Emits.trans (.of_grows (clockTap_grows s c.1) ?_) (ih (clockTap s c.1))
    unfold clockTap
    dsimp only
    split <;> rfl

theorem trackTo_emits (name : TapState) (s : State) : Emits k s (trackTo name s) := by
  refine (clockAll_emits (walkCycles (tapPath s.tap name)) s).trans ?_
  unfold trackTo
  dsimp only
  split <;> exact .of_eqs rfl rfl rfl rfl rfl rfl

theorem runCycles_emitting (cmd : Command) (cycles : List (Bool × Bool)) (s : State) :
    Emitting k s (runCycles cmd cycles s) := by
  refine Emitting.accept ?_
  split
  · exact Emits.refl s
  · refine Emitting.bind (bbXfer_emitting cmd _ s) fun rd t => ?_
    split
    · trivial
    · exact (clockAll_emits cycles t).trans (.of_eqs rfl rfl rfl rfl rfl rfl)

theorem walk_emitting (cmd : Command) (seq : Bits) (s : State) : Emitting k s (walk cmd seq s) :=
  Emitting.bind (runCycles_emitting cmd _ s) fun _ t => Emits.refl t

theorem tapReset_emitting (cmd : Command) (s : State) : Emitting k s (tapReset cmd s) := by
  refine Emitting.accept ?_
  split
  · refine Emitting.bind (runCycles_emitting cmd _ s) fun _ t => ?_
    split <;> exact Emits.of_eqs rfl rfl rfl rfl rfl rfl
  · exact Emitting.bind (engineDo_emitting cmd _ s) fun _ t =>
      Emitting.bind (engineDo_emitting cmd _ t) fun _ _ => Emits.of_eqs rfl rfl rfl rfl rfl rfl

theorem goIdle_emitting (cmd : Command) (s : State) : Emitting k s (goIdle cmd s) := by
  refine Emitting.accept ?_
  split
  · trivial
  · split
    · exact walk_emitting cmd _ s
    · exact Emitting.bind (engineDo_emitting cmd _ s) fun _ t => trackTo_emits _ t

theorem changeState_emitting (cmd : Command) (name : TapState) (s : State) : Emitting k s (changeState cmd name s) := by
  refine Emitting.accept ?_
  split
  · trivial
  · split
    · exact walk_emitting cmd _ s
    · exact Emitting.bind (engineDo_emitting cmd _ s) fun _ t => trackTo_emits _ t

theorem writeIr_emitting (cmd : Command) (w : Bits) (s : State) : Emitting k s (writeIr cmd w s) := by
  refine Emitting.accept (Emitting.accept ?_)
  split
  · exact Emitting.bind (runCycles_emitting cmd _ s) fun _ t => Emits.refl t
  · exact Emitting.bind (engineDo_emitting cmd _ s) fun _ _ => Emits.of_eqs rfl rfl rfl rfl rfl rfl

theorem writeDr_emitting (cmd : Command) (w : Bits) (s : State) : Emitting k s (writeDr cmd w s) := by
  refine Emitting.accept (Emitting.accept ?_)
  split
  · exact Emitting.bind (runCycles_emitting cmd _ s) fun _ t => Emits.refl t
  · refine Emitting.bind (engineDo_emitting cmd _ s) fun r t => ?_
    split
    · exact Emits.of_eqs rfl rfl rfl rfl rfl rfl
    · exact raise_emitting _ t

theorem afterHwReset_emits (hw tapr : Bool) (s : State) : Emits k s (afterHwReset hw tapr s) := by
  cases hw <;> cases tapr <;> exact Emits.of_eqs rfl rfl rfl rfl rfl rfl

theorem hwReset_emitting (cmd : Command) (hw tapr : Bool) (s : State) : Emitting k s (hwReset cmd hw tapr s) := by
  refine Emitting.accept ?_
  split
  · exact Emits.refl s
  · split
    · trivial
    · split
      · exact Emitting.bind (bbXfer_emitting cmd _ s) fun _ t => afterHwReset_emits hw tapr t
      · exact Emitting.bind (engineDo_emitting cmd _ s) fun _ t => afterHwReset_emits hw tapr t

theorem openTransport_emitting (cmd : Command) (connection : List Byte) (s : State) :
    Emitting k s (openTransport cmd connection s) := by
  refine Emitting.accept ?_
  split
  · trivial
  · refine Emitting.bind ?_ fun _ _ => Emits.of_eqs rfl rfl rfl rfl rfl rfl
    split
    · exact Emits.refl s
    · exact engineDo_emitting cmd _ s

theorem padIr_emitting (op : Bits) (pos n : Nat) (s : State) : Emitting k s (padIr op pos n s) := by
  unfold padIr
  split
  · split
    · exact Emits.refl s
    · exact raise_emitting _ s
  · trivial

theorem padDr_emitting (v : Bits) (blk : Blk) (pos n : Nat) (s : State) : Emitting k s (padDr v blk pos n s) := by
  unfold padDr
  split
  · split
    · exact Emits.refl s
    · exact raise_emitting _ s
  · trivial

theorem writeOpcode_emitting (cmd : Command) (op : Bits) (selects : Option (Blk × Sel)) (pos n : Nat) (s : State) :
    Emitting k s (writeOpcode cmd op selects pos n s) :=
  Emitting.accept <| Emitting.accept <| Emitting.bind (padIr_emitting op pos n s) fun w t =>
    Emitting.bind (writeIr_emitting cmd w t) fun _ _ => Emits.of_eqs rfl rfl rfl rfl rfl rfl

theorem select_emitting (cmd : Command) (blk : Blk) (sel : Sel) (pos n : Nat) (s : State) :
    Emitting k s (select cmd blk sel pos n s) := writeOpcode_emitting cmd _ _ pos n s

theorem shift_emitting (cmd : Command) (blk : Blk) (v : Bits) (pos n : Nat) (s : State) :
    Emitting k s (shift cmd blk v pos n s) :=
  Emitting.accept <| Emitting.accept <| Emitting.accept <| Emitting.bind (padDr_emitting v blk pos n s) fun w t => writeDr_emitting cmd w t

theorem setPhase_emits (s : State) (p : Phase) : Emits k s (s.setPhase p) := .of_eqs rfl rfl rfl rfl rfl rfl

theorem transact_emitting (cmd : Command) (blk : Blk) (sel : Sel) (v : Bits) (pos n : Nat) (s : State) :
    Emitting k s (transact cmd blk sel v pos n s) := by
  refine Emitting.accept (Emitting.accept ?_)
  refine Emitting.bind (.after (setPhase_emits s _) (select_emitting cmd _ _ _ _ _)) fun _ t => ?_
  refine Emitting.bind (.after (setPhase_emits t _) (shift_emitting cmd _ _ _ _ _)) fun _ u => ?_
  refine Emitting.bind (.after (setPhase_emits u _) (tapReset_emitting cmd _)) fun _ x => ?_
  exact Emitting.bind (.after (setPhase_emits x _) (select_emitting cmd _ _ _ _ _)) fun _ y => setPhase_emits y _

/-- A counter is 12 bits (R285). -/
theorem laneCounter_le (a : Bits) (i : Nat) : laneCounter a i ≤ 4095 := by
  have h := ube_lt (slice a (2 + 48 * i) 12).reverse
  have hl : (slice a (2 + 48 * i) 12).reverse.length ≤ 12 := by simp [slice]
  have := Nat.pow_le_pow_right (n := 2) (by decide) hl
  unfold laneCounter
  omega

/-- The counters of a reply that is long enough are counters; nothing but an abort moves the state. -/
theorem countersOf_sat (a : Bits) (length dropped : Nat) (s : State) :
    (countersOf a length dropped s).sat
      (fun c t => t = s ∧ c.1 ≤ 4095 ∧ c.2.1 ≤ 4095 ∧ c.2.2.1 ≤ 4095 ∧ c.2.2.2 ≤ 4095) (Emits k s) := by
  unfold countersOf
  split
  · exact raise_emits _ s _
  · exact ⟨rfl, laneCounter_le .., laneCounter_le .., laneCounter_le .., laneCounter_le ..⟩

theorem parseReply_sat (reply : Bits) (blk : Blk) (pos n : Nat) (s : State) :
    (parseReply reply blk pos n s).sat
      (fun c t => t = s ∧ c.1 ≤ 4095 ∧ c.2.1 ≤ 4095 ∧ c.2.2.1 ≤ 4095 ∧ c.2.2.2 ≤ 4095) (Emits k s) := by
  refine sat_accept fun _ => ?_
  split
  · exact countersOf_sat ..
  · exact raise_emits _ s _

/-- The samples of one read are in range where the voltage, the phase, the bit-select and the counters are (R315). -/
theorem samplesOf_inRange {blk : Blk} {v ph : Int} {b : Nat} {c : Nat × Nat × Nat × Nat} (hv : v ∈ voltages)
    (hp : ph ∈ phases) (hb : b < k) (hc : c.1 ≤ 4095 ∧ c.2.1 ≤ 4095 ∧ c.2.2.1 ≤ 4095 ∧ c.2.2.2 ≤ 4095) :
    ∀ x ∈ samplesOf blk v b ph c, x.inRange ∧ x.bitSelect < k := by
  obtain ⟨i, hi, rfl⟩ := List.mem_map.1 hv
  obtain ⟨j, hj, rfl⟩ := List.mem_map.1 hp
  rw [List.mem_range] at hi hj
  obtain ⟨h0, h1, h2, h3⟩ := hc
  have hl : laneBase blk ≤ 4 := by cases blk <;> decide
  intro x hx
  simp only [samplesOf, List.mem_cons, List.not_mem_nil, or_false] at hx
  rcases hx with rfl | rfl | rfl | rfl <;> refine ⟨?_, hb⟩ <;> unfold SweepSample.inRange <;> dsimp only <;> omega

theorem ofExcept_emitting {α : Type} (x : Except Refusal α) (s : State) : Emitting k s (ofExcept x s) := by
  cases x with
  | ok a => exact Emits.refl s
  | error r => trivial

theorem transactImage_emitting (blk : Blk) (sel : Sel) (image : Except Refusal Bits) (pos n : Nat) (s : State) :
    Emitting k s (transactImage blk sel image pos n s) :=
  Emitting.bind (ofExcept_emitting image s) fun v t =>
    Emitting.bind (transact_emitting _ _ _ v _ _ t) fun _ u => Emits.refl u

theorem configureBlock_emitting (blk : Blk) (coreParams : Fields) (pos n : Nat) (s : State) :
    Emitting k s (configureBlock blk coreParams pos n s) :=
  Emitting.bind (transactImage_emitting _ _ _ _ _ s) fun _ t =>
    Emitting.bind (transactImage_emitting _ _ _ _ _ t) fun _ u => transactImage_emitting _ _ _ _ _ u

theorem shiftDiag_emitting (blk : Blk) (v : Int) (b : Nat) (ph : Int) (pos n : Nat) (s : State) :
    Emitting k s (shiftDiag blk v b ph pos n s) :=
  Emitting.bind (ofExcept_emitting _ s) fun _ t => shift_emitting _ _ _ _ _ t

theorem readPhase_emitting {blk : Blk} {v : Int} {b pos n : Nat} {ph : Int} (hv : v ∈ voltages) (hp : ph ∈ phases)
    (hb : b < k) (s : State) : Emitting k s (readPhase blk v b pos n ph s) :=
  Emitting.bind (shiftDiag_emitting ..) fun reply t =>
    sat_bind (parseReply_sat reply blk pos n t) (fun _ h => h) fun c u hc => by
      obtain ⟨rfl, hc⟩ := hc
      exact ⟨⟨rfl, rfl, rfl, List.prefix_refl _, List.prefix_refl _, by simp [State.emit]⟩, _, rfl,
        samplesOf_inRange hv hp hb hc⟩

theorem forEach_emitting {α : Type} {f : α → State → Res Unit} (xs : List α)
    (hf : ∀ a ∈ xs, ∀ s, Emitting k s (f a s)) (s : State) : Emitting k s (forEach f xs s) := by
  induction xs generalizing s with
  | nil => exact Emits.refl s
  | cons x xs ih =>
    exact Emitting.bind (hf x (List.mem_cons_self ..) s) fun _ t =>
      ih (fun a ha => hf a (List.mem_cons_of_mem _ ha)) t

theorem readPair_emitting {blk : Blk} {v : Int} {pos n b : Nat} (hv : v ∈ voltages) (hb : b < k) (s : State) :
    Emitting k s (readPair blk v pos n b s) :=
  Emitting.bind (select_emitting ..) fun _ t => Emitting.bind (shiftDiag_emitting _ _ _ _ _ _ t) fun _ u =>
    forEach_emitting _ (fun _ hp x => readPhase_emitting hv hp hb x) u

theorem sweepBlock_emitting (blk : Blk) (bitNumber pos n : Nat) (s : State) :
    Emitting bitNumber s (sweepBlock blk bitNumber pos n s) :=
  forEach_emitting _ (fun _ hv t => forEach_emitting _ (fun _ hb u => readPair_emitting hv (List.mem_range.1 hb) u) t) s

theorem runBlock_emitting (coreParams : Fields) (bitNumber pos n : Nat) (blk : Blk) (s : State) :
    Emitting bitNumber s (runBlock coreParams bitNumber pos n blk s) :=
  Emitting.bind (configureBlock_emitting _ _ _ _ s) fun _ t => sweepBlock_emitting _ _ _ _ t

theorem sweep_emitting (q : SweepParams) (s : State) : Emitting q.bitNumber s (sweep q s) := by
  refine Emitting.accept ?_
  split
  · split
    · exact raise_emitting _ s
    · exact Emitting.bind (openTransport_emitting _ _ s) fun _ t => Emitting.bind (tapReset_emitting _ t) fun _ u =>
        Emitting.bind (forEach_emitting _ (fun blk _ x => runBlock_emitting _ _ _ _ blk x) u) fun _ y =>
          closeTransport_emitting y
  · exact raise_emitting _ s

end Sys2Proof.Machine
end

