-- ==== Sys2Proof/Laws/PerInstr.lean ====
section
/-! SUPPORT. The per-instruction family `CodeByte`: the first byte a command is written as, R108's code where it has
one. -/

namespace Sys2Proof.Laws

/-- The first byte of a command's encoding (R108; the codes from 0x80 on are the model's, log entry 1). -/
def CodeByte.code : Instr → Byte
  | .encCfg _ => 0x10
  | .encCore _ => 0x11
  | .encChar _ => 0x12
  | .decCfg _ => 0x14
  | .decCore _ => 0x15
  | .decChar _ => 0x16
  | .toWire _ => 0x18
  | .padIr _ _ _ => 0x20
  | .padDr _ _ _ _ => 0x21
  | .tckCycle _ _ => 0x30
  | .tmsWalk _ => 0x31
  | .tapReset => 0x32
  | .goIdle => 0x33
  | .changeState _ => 0x34
  | .writeIr _ => 0x35
  | .writeDr _ => 0x36
  | .hwReset _ _ => 0x37
  | .openChannel _ => 0x38
  | .closeChannel => 0x39
  | .bbExpand _ => 0x40
  | .bbXfer _ => 0x41
  | .bbExtract _ _ _ => 0x42
  | .select _ _ _ _ => 0x50
  | .shift _ _ _ _ => 0x51
  | .transact _ _ _ _ _ => 0x52
  | .parseReply _ _ _ _ => 0x60
  | .configureBlock _ _ _ _ => 0x70
  | .sweepBlock _ _ _ _ => 0x71
  | .sweep _ => 0x72
  | .sample _ _ _ _ _ => 0x80
  | .irFrame _ _ _ => 0x81
  | .drFrame _ _ _ _ => 0x82
  | .cfgImage _ => 0x83
  | .coreImage _ => 0x84
  | .charImage _ => 0x85
  | .replyFormat _ => 0x86
  | .bypassOpcode _ _ => 0x90
  | .opcR0Configuration _ _ => 0x91
  | .opcR0CoreInputs _ _ => 0x92
  | .opcR0Readback _ _ => 0x93
  | .opcR1Configuration _ _ => 0x95
  | .opcR1CoreInputs _ _ => 0x96
  | .opcR1Readback _ _ => 0x97

/-- A command's encoding begins with its code. -/
def CodeByte.Statement (i : Instr) : Prop := (encode i).head? = some (CodeByte.code i)

theorem CodeByte.encCfg (fields : Fields) : CodeByte.Statement (.encCfg fields) := rfl
theorem CodeByte.encCore (fields : Fields) : CodeByte.Statement (.encCore fields) := rfl
theorem CodeByte.encChar (fields : Fields) : CodeByte.Statement (.encChar fields) := rfl
theorem CodeByte.decCfg (v : Bits) : CodeByte.Statement (.decCfg v) := rfl
theorem CodeByte.decCore (v : Bits) : CodeByte.Statement (.decCore v) := rfl
theorem CodeByte.decChar (v : Bits) : CodeByte.Statement (.decChar v) := rfl
theorem CodeByte.toWire (v : Bits) : CodeByte.Statement (.toWire v) := rfl
theorem CodeByte.padIr (opcode : Bits) (pos n : Nat) : CodeByte.Statement (.padIr opcode pos n) := rfl
theorem CodeByte.padDr (v : Bits) (blk : Blk) (pos n : Nat) : CodeByte.Statement (.padDr v blk pos n) := rfl
theorem CodeByte.tckCycle (tms tdi : Bool) : CodeByte.Statement (.tckCycle tms tdi) := rfl
theorem CodeByte.tmsWalk (seq : Bits) : CodeByte.Statement (.tmsWalk seq) := rfl
theorem CodeByte.tapReset : CodeByte.Statement (.tapReset) := rfl
theorem CodeByte.goIdle : CodeByte.Statement (.goIdle) := rfl
theorem CodeByte.changeState (name : TapState) : CodeByte.Statement (.changeState name) := rfl
theorem CodeByte.writeIr (w : Bits) : CodeByte.Statement (.writeIr w) := rfl
theorem CodeByte.writeDr (w : Bits) : CodeByte.Statement (.writeDr w) := rfl
theorem CodeByte.hwReset (hw tapr : Bool) : CodeByte.Statement (.hwReset hw tapr) := rfl
theorem CodeByte.openChannel (connection : List Byte) : CodeByte.Statement (.openChannel connection) := rfl
theorem CodeByte.closeChannel : CodeByte.Statement (.closeChannel) := rfl
theorem CodeByte.bbExpand (cycles : List (Bool × Bool)) : CodeByte.Statement (.bbExpand cycles) := rfl
theorem CodeByte.bbXfer (bytes : List Byte) : CodeByte.Statement (.bbXfer bytes) := rfl
theorem CodeByte.bbExtract (rd : List Byte) (first count : Nat) : CodeByte.Statement (.bbExtract rd first count) := rfl
theorem CodeByte.select (blk : Blk) (sel : Sel) (pos n : Nat) : CodeByte.Statement (.select blk sel pos n) := rfl
theorem CodeByte.shift (blk : Blk) (v : Bits) (pos n : Nat) : CodeByte.Statement (.shift blk v pos n) := rfl
theorem CodeByte.transact (blk : Blk) (sel : Sel) (v : Bits) (pos n : Nat) :
    CodeByte.Statement (.transact blk sel v pos n) := rfl
theorem CodeByte.parseReply (reply : Bits) (blk : Blk) (pos n : Nat) :
    CodeByte.Statement (.parseReply reply blk pos n) := rfl
theorem CodeByte.configureBlock (blk : Blk) (coreParams : Fields) (pos n : Nat) :
    CodeByte.Statement (.configureBlock blk coreParams pos n) := rfl
theorem CodeByte.sweepBlock (blk : Blk) (bitNumber pos n : Nat) :
    CodeByte.Statement (.sweepBlock blk bitNumber pos n) := rfl
theorem CodeByte.sweep (p : SweepParams) : CodeByte.Statement (.sweep p) := rfl
theorem CodeByte.sample (r m o i c : Bool) : CodeByte.Statement (.sample r m o i c) := rfl
theorem CodeByte.irFrame (opcode : Bits) (pos n : Nat) : CodeByte.Statement (.irFrame opcode pos n) := rfl
theorem CodeByte.drFrame (v : Bits) (blk : Blk) (pos n : Nat) : CodeByte.Statement (.drFrame v blk pos n) := rfl
theorem CodeByte.cfgImage (image : CfgImage) : CodeByte.Statement (.cfgImage image) := rfl
theorem CodeByte.coreImage (image : CoreImage) : CodeByte.Statement (.coreImage image) := rfl
theorem CodeByte.charImage (image : CharImage) : CodeByte.Statement (.charImage image) := rfl
theorem CodeByte.replyFormat (a : Bits) : CodeByte.Statement (.replyFormat a) := rfl
theorem CodeByte.bypassOpcode (pos n : Nat) : CodeByte.Statement (.bypassOpcode pos n) := rfl
theorem CodeByte.opcR0Configuration (pos n : Nat) : CodeByte.Statement (.opcR0Configuration pos n) := rfl
theorem CodeByte.opcR0CoreInputs (pos n : Nat) : CodeByte.Statement (.opcR0CoreInputs pos n) := rfl
theorem CodeByte.opcR0Readback (pos n : Nat) : CodeByte.Statement (.opcR0Readback pos n) := rfl
theorem CodeByte.opcR1Configuration (pos n : Nat) : CodeByte.Statement (.opcR1Configuration pos n) := rfl
theorem CodeByte.opcR1CoreInputs (pos n : Nat) : CodeByte.Statement (.opcR1CoreInputs pos n) := rfl
theorem CodeByte.opcR1Readback (pos n : Nat) : CodeByte.Statement (.opcR1Readback pos n) := rfl

end Sys2Proof.Laws
end

