-- ==== Sys2Proof/Tests/Slice0.lean ====
section
/-! SUPPORT. Tests: the ill-formed commands, a written-out word for every command, vectors of 95_test_vectors and examples
of the rules, and for every statement with hypotheses a state and operands that meet them. -/

namespace Sys2Proof.Tests

open Sys2Proof.Machine

/-! ### Helpers -/

/-- The vector of `len` bits with ones at these indices, as 95_test_vectors writes it. -/
def ones (len : Nat) (at' : List Nat) : Bits := (List.range len).map fun i => decide (i ∈ at')

def key (name : FieldName) : FieldKey := ⟨name, none⟩
def lane (name : FieldName) (i : Nat) : FieldKey := ⟨name, some i⟩

/-- The illustrative parameters of 95_test_vectors. -/
def p0 : Params := Params.illustrative
def engineParams : Params := { p0 with backend := .engine }

def closed (p : Params) : State := State.resetWith p
/-- An open channel with the TAP in Run-Test/Idle. -/
def live (p : Params) : State := { State.resetWith p with chan := .opened, tap := .runTestIdle }

/-- The answers that take these exchanges. -/
def writesOf (xs : List Exchange) : List WriteAnswer :=
  xs.filterMap fun
    | .transfer bytes _ => some (.accepted bytes.length)
    | .call _ _ => none
def readsOf (xs : List Exchange) : List ReadAnswer :=
  xs.filterMap fun
    | .transfer _ rd => some (.returned rd)
    | .call _ _ => none
def engineOf (xs : List Exchange) : List EngineAnswer :=
  xs.filterMap fun
    | .transfer _ _ => none
    | .call _ bits => some (.done bits)

/-- The state whose transport answers these exchanges next. -/
def hears (xs : List Exchange) (s : State) : State :=
  { s with env := { writes := writesOf xs, reads := readsOf xs, engine := engineOf xs, asked := 0 } }

/-- A frame answered with as many zero bytes. -/
def frame (bytes : List Byte) : Exchange := .transfer bytes (List.replicate bytes.length 0)

def nextOf (o : Host.Outcome State Fault Refusal) : Option State :=
  match o with
  | .next t => some t
  | _ => none
def resultOf (o : Host.Outcome State Fault Refusal) : Option Result := (nextOf o).map State.result
def refusalOf (o : Host.Outcome State Fault Refusal) : Option Refusal :=
  match o with
  | .refused r => some r
  | _ => none
def sentBy (o : Host.Outcome State Fault Refusal) : Option (List TxItem) := (nextOf o).map State.tx
def bytesSent (bs : List Byte) : List TxItem := bs.map .byte

/-- The bytes are exactly this command. -/
def reads (bs : List Byte) (i : Instr) : Bool :=
  match decode bs with
  | .ok (j, []) => decide (j = i)
  | _ => false

/-! ### WellFormed refuses -/

theorem test_wf_encCfg : (Instr.encCfg [(key .coreWeHead, 1), (key .coreWeHead, 0)]).wellFormed = false := by decide
theorem test_wf_encCore : (Instr.encCore [(key .mpy, 1), (key .mpy, 1)]).wellFormed = false := by decide
theorem test_wf_encChar : (Instr.encChar [(lane .es 2, 1), (lane .es 2, 1)]).wellFormed = false := by decide
theorem test_wf_configureBlock :
    (Instr.configureBlock .r0 [(key .enpll, 1), (key .enpll, 1)] 1 1).wellFormed = false := by decide
theorem test_wf_changeState : (Instr.changeState .unknown).wellFormed = false := by decide

/-! ### Words: the codes of R108, the pattern of R81; operand bytes as log entry 1 says -/

theorem test_word_encCfg : reads [0x10, 1, 0, 0, 2] (.encCfg [(key .coreWeHead, 1)]) = true := by decide
theorem test_word_encCore : reads [0x11, 1, 10, 0, 40] (.encCore [(key .mpy, 20)]) = true := by decide
theorem test_word_encChar : reads [0x12, 1, 31, 1, 63] (.encChar [(lane .voltageOffset 0, -32)]) = true := by decide
theorem test_word_decCfg : reads [0x14, 2, 0, 1] (.decCfg [false, true]) = true := by decide
theorem test_word_decCore : reads [0x15, 1, 1] (.decCore [true]) = true := by decide
theorem test_word_decChar : reads [0x16, 0] (.decChar []) = true := by decide
theorem test_word_toWire : reads [0x18, 4, 0, 0, 1, 1] (.toWire [false, false, true, true]) = true := by decide
theorem test_word_padIr :
    reads [0x20, 4, 0, 0, 1, 0, 2, 3] (.padIr [false, false, true, false] 2 3) = true := by decide
theorem test_word_padDr : reads [0x21, 1, 1, 1, 2, 3] (.padDr [true] .r1 2 3) = true := by decide
theorem test_word_tckCycle : reads [0x30, 1, 0] (.tckCycle true false) = true := by decide
theorem test_word_tmsWalk : reads [0x31, 3, 1, 0, 0] (.tmsWalk [true, false, false]) = true := by decide
theorem test_word_tapReset : reads [0x32] .tapReset = true := by decide
theorem test_word_goIdle : reads [0x33] .goIdle = true := by decide
theorem test_word_changeState : reads [0x34, 13] (.changeState .pauseIR) = true := by decide
theorem test_word_writeIr : reads [0x35, 2, 0, 1] (.writeIr [false, true]) = true := by decide
theorem test_word_writeDr : reads [0x36, 2, 1, 0] (.writeDr [true, false]) = true := by decide
theorem test_word_hwReset : reads [0x37, 1, 0] (.hwReset true false) = true := by decide
theorem test_word_openChannel : reads [0x38, 2, 0x61, 0x62] (.openChannel [0x61, 0x62]) = true := by decide
theorem test_word_closeChannel : reads [0x39] .closeChannel = true := by decide
theorem test_word_bbExpand : reads [0x40, 2, 1, 0, 0, 1] (.bbExpand [(true, false), (false, true)]) = true := by decide
theorem test_word_bbXfer : reads [0x41, 2, 0x18, 0x19] (.bbXfer [0x18, 0x19]) = true := by decide
theorem test_word_bbExtract : reads [0x42, 2, 0x10, 0x15, 0, 1] (.bbExtract [0x10, 0x15] 0 1) = true := by decide
theorem test_word_select : reads [0x50, 0, 2, 1, 2] (.select .r0 .readback 1 2) = true := by decide
theorem test_word_shift : reads [0x51, 1, 1, 1, 1, 1] (.shift .r1 [true] 1 1) = true := by decide
theorem test_word_transact : reads [0x52, 1, 1, 1, 0, 1, 1] (.transact .r1 .coreInputs [false] 1 1) = true := by decide
theorem test_word_parseReply : reads [0x60, 1, 1, 0, 2, 3] (.parseReply [true] .r0 2 3) = true := by decide
theorem test_word_configureBlock :
    reads [0x70, 1, 1, 9, 0, 2, 1, 1] (.configureBlock .r1 [(key .enpll, 1)] 1 1) = true := by decide
theorem test_word_sweepBlock : reads [0x71, 0, 8, 1, 1] (.sweepBlock .r0 8 1 1) = true := by decide
theorem test_word_sweep : reads [0x72, 1, 1, 1, 0, 0] (.sweep ⟨1, 1, 1, 0, []⟩) = true := by decide
/-- The table's pattern `000rmoic`: `0x19` is RST, TMS and TCK high. -/
theorem test_word_sample : reads [0x19] (.sample true true false false true) = true := by decide
theorem test_word_sample_coded : reads [0x80, 0x12] (.sample true false false true false) = true := by decide
theorem test_word_irFrame : reads [0x81, 1, 1, 1, 1] (.irFrame [true] 1 1) = true := by decide
theorem test_word_drFrame : reads [0x82, 1, 1, 0, 1, 1] (.drFrame [true] .r0 1 1) = true := by decide
/-- Index 2 is `coreWeHead`, index 8 lane 1's `coreWe` (R84). -/
theorem test_word_cfgImage :
    reads (0x83 :: (ones 27 [2, 8]).map fun b => if b then 1 else 0)
      (.cfgImage { (default : CfgImage) with coreWeHead := true, lane1 := { (default : CfgLane) with coreWe := true } })
      = true := by decide
/-- Index 3 is bit 7 of `mpy`, index 118 bit 0 of lane 3 (R85). -/
theorem test_word_coreImage :
    reads (0x84 :: (ones 133 [3, 118]).map fun b => if b then 1 else 0)
      (.coreImage { (default : CoreImage) with mpy := 0x80, laneCtl3 := 1 }) = true := by decide +kernel
/-- Index 2 + 48 + 1 is bit 11 of lane 1's `ecount`, index 193 lane 3's `scanDone` (R86). -/
theorem test_word_charImage :
    reads (0x85 :: (ones 195 [51, 193]).map fun b => if b then 1 else 0)
      (.charImage { (default : CharImage) with
        lane1 := { (default : CharLane) with ecount := 0x800 }, lane3 := { (default : CharLane) with scanDone := true } })
      = true := by decide +kernel
theorem test_word_replyFormat : reads [0x86, 1, 1] (.replyFormat [true]) = true := by decide
theorem test_word_bypassOpcode : reads [0x90, 1, 3] (.bypassOpcode 1 3) = true := by decide
theorem test_word_opcR0Configuration : reads [0x91, 1, 3] (.opcR0Configuration 1 3) = true := by decide
theorem test_word_opcR0CoreInputs : reads [0x92, 1, 3] (.opcR0CoreInputs 1 3) = true := by decide
theorem test_word_opcR0Readback : reads [0x93, 1, 3] (.opcR0Readback 1 3) = true := by decide
theorem test_word_opcR1Configuration : reads [0x95, 1, 3] (.opcR1Configuration 1 3) = true := by decide
theorem test_word_opcR1CoreInputs : reads [0x96, 1, 3] (.opcR1CoreInputs 1 3) = true := by decide
theorem test_word_opcR1Readback : reads [0x97, 1, 3] (.opcR1Readback 1 3) = true := by decide
theorem test_word_guard_refused :
    reads (0x83 :: (ones 27 [0]).map fun b => if b then 1 else 0) (.cfgImage default) = false := by decide
theorem test_word_unknown_code : decode [0xff] = .error (.unknownCode 0xff) := rfl
theorem test_table_word : decodeTableWord 8 0x32 = some .tapReset := by decide
theorem test_fetch_word :
    step (State.withFetchWord (closed p0) 8 0x39) = exec .closeChannel { closed p0 with inbox := [] } := rfl

/-! ### The vectors of 95_test_vectors and the rules' examples -/

/-- V2. -/
theorem test_encCfg_weSet : resultOf (exec (.encCfg weSet) (closed p0))
    = some (.bits (ones 27 [2, 3, 6, 8, 11, 13, 16, 18, 21, 23])) := by decide
/-- V3: 3 is odd, 2 is even, -1 mod 2 = 1. -/
theorem test_encCfg_masks :
    resultOf (exec (.encCfg [(key .coreWeHead, 3), (lane .tuningWe 2, 2), (key .debugWeTail, -1)]) (closed p0))
      = some (.bits (ones 27 [2, 25])) := by decide
/-- V6. -/
theorem test_encCore : resultOf (exec (.encCore [(key .mpy, 255), (key .lb, 3), (lane .laneCtl 0, 1),
      (lane .laneCtl 3, 2 ^ 25), (key .clkbyp, 2), (key .lock, 1), (key .cfgOvr, 1)]) (closed p0))
    = some (.bits (ones 133 [3, 4, 5, 6, 7, 8, 9, 10, 13, 14, 40, 93, 119, 123, 131])) := by decide
/-- T1. -/
theorem test_encChar : resultOf (exec (.encChar [(lane .testfail 1, 1), (lane .ecount 1, 0xABC), (lane .esword 2, 0x5A),
      (lane .es 2, 9), (lane .scanLen 3, 2), (lane .scanRun 3, 1), (lane .scanDone 3, 1),
      (lane .voltageOffsetOverride 0, 1)]) (closed p0))
    = some (.bits (ones 195 [45, 50, 51, 53, 55, 57, 58, 59, 60, 112, 114, 115, 117, 119, 122, 190, 192, 193])) := by
  decide +kernel
/-- V9: `DIAG(-32, 3, -16)` over an all-zero template. -/
theorem test_diag : diagImage p0 (-32) 3 (-16) = ones 195 [27, 28, 29, 37, 38, 39, 75, 76, 77, 85, 86, 87, 123, 124,
    125, 133, 134, 135, 171, 172, 173, 181, 182, 183] := by decide +kernel

/-- One field of a decoded result. -/
def fieldOf (r : Option Result) (k : FieldKey) : Option Int :=
  match r with
  | some (.fields fs) => fieldValue? fs k
  | _ => none

/-- V4 read back. -/
theorem test_decCfg : fieldOf (resultOf (exec (.decCfg (ones 27 [2])) (closed p0))) (key .coreWeHead) = some 1 := by
  decide
/-- V6 read back. -/
theorem test_decCore :
    fieldOf (resultOf (exec (.decCore (ones 133 [93, 119])) (closed p0))) (lane .laneCtl 3) = some (2 ^ 25) := by decide +kernel
/-- V10: signs are not recovered. -/
theorem test_decChar :
    fieldOf (resultOf (exec (.decChar (ones 195 [181, 182, 183])) (closed p0))) (lane .voltageOffset 3) = some 32 := by
  decide +kernel
/-- V14. -/
theorem test_decCfg_length : refusalOf (exec (.decCfg (ones 26 [])) (closed p0)) = some .wrongLength := by decide
/-- V12. -/
theorem test_toWire : resultOf (exec (.toWire (ones 4 [2, 3])) (closed p0)) = some (.bits (ones 4 [0, 1])) := by decide
/-- V22. -/
theorem test_padIr : resultOf (exec (.padIr (ones 4 [2]) 2 3) (closed p0))
    = some (.bits (ones 12 [0, 1, 2, 3, 5, 8, 9, 10, 11])) := by decide
/-- V25: positions 0 of 3, 4 of 3, 1 of 0. -/
theorem test_padIr_positions : ([(0, 3), (4, 3), (1, 0)].map fun q =>
      ((nextOf (exec (.padIr (ones 4 [2]) q.1 q.2) (closed p0))).map State.err))
    = [some (.configurationError (.position 0 3)), some (.configurationError (.position 4 3)),
       some (.configurationError (.position 1 0))] := by decide
/-- R335, D32: a wrong width is refused whatever the position. -/
theorem test_padIr_width : refusalOf (exec (.padIr (ones 3 []) 4 3) (closed p0)) = some .wrongOpcodeWidth := by decide
/-- V28 and V29 at the three positions of a chain of three. -/
theorem test_padDr : ([(Blk.r1, 2), (.r1, 1), (.r1, 3), (.r0, 2), (.r0, 1), (.r0, 3)].map fun q =>
      resultOf (exec (.padDr (ones 27 [2]) q.1 q.2 3) (closed p0)))
    = [some (.bits (ones 29 [25])), some (.bits (ones 29 [24])), some (.bits (ones 29 [26])),
       some (.bits (ones 28 [24])), some (.bits (ones 28 [23])), some (.bits (ones 28 [25]))] := by decide

/-- V37. -/
theorem test_tckCycle :
    let o := exec (.tckCycle true false) (hears [frame [0x18, 0x19]] (live p0))
    sentBy o = some (bytesSent [0x18, 0x19]) ∧ (nextOf o).map State.tap = some .selectDRScan := by decide
/-- V38. -/
theorem test_tmsWalk :
    let o := exec (.tmsWalk [true, false, false]) (hears [frame [0x18, 0x19, 0x10, 0x11, 0x10, 0x11]] (live p0))
    sentBy o = some (bytesSent [0x18, 0x19, 0x10, 0x11, 0x10, 0x11])
    ∧ (nextOf o).map State.tap = some .shiftDR := by decide
/-- V36, from an unknown state. -/
theorem test_tapReset :
    let bytes := [0x18, 0x19, 0x18, 0x19, 0x18, 0x19, 0x18, 0x19, 0x18, 0x19, 0x10, 0x11]
    let o := exec .tapReset (hears [frame bytes] { live p0 with tap := .unknown, curSel := none })
    sentBy o = some (bytesSent bytes) ∧ (nextOf o).map State.tap = some .runTestIdle := by decide
/-- V43. -/
theorem test_goIdle :
    let bytes := [0x18, 0x19, 0x18, 0x19, 0x10, 0x11]
    let o := exec .goIdle (hears [frame bytes] { live p0 with tap := .shiftDR })
    sentBy o = some (bytesSent bytes) ∧ (nextOf o).map State.tap = some .runTestIdle := by decide
/-- R180's corner case (Select-IR-Scan to Run-Test/Idle is "10"): the selection is lost, on RAW (R176) and on ENGINE. -/
theorem test_goIdle_throughReset :
    let x := frame [0x18, 0x19, 0x10, 0x11]
    let held := fun (p : Params) => { live p with tap := .selectIRScan, curSel := some (.r0, .readback) }
    let o := exec .goIdle (hears [x] (held p0))
    let e := exec .goIdle (hears [.call .goIdle []] (held engineParams))
    (nextOf o).map State.curSel = some none ∧ (nextOf e).map State.curSel = some none := by decide
/-- V44. -/
theorem test_changeState :
    let bytes := [0x18, 0x19, 0x18, 0x19, 0x10, 0x11, 0x18, 0x19, 0x10, 0x11]
    let o := exec (.changeState .pauseIR) (hears [frame bytes] (live p0))
    sentBy o = some (bytesSent bytes) ∧ (nextOf o).map State.tap = some .pauseIR := by decide
/-- V45: the way leads through Test-Logic-Reset. -/
theorem test_changeState_loses_selection :
    let s := { live p0 with tap := .selectIRScan, curSel := some (.r0, .readback) }
    let o := exec (.changeState .runTestIdle) (hears [frame [0x18, 0x19, 0x10, 0x11]] s)
    (nextOf o).map State.curSel = some none := by decide
/-- V39. -/
theorem test_writeIr :
    let bytes := [0x18, 0x19, 0x18, 0x19, 0x10, 0x11, 0x10, 0x11, 0x10, 0x11, 0x1A, 0x1B, 0x18, 0x19, 0x10, 0x11]
    sentBy (exec (.writeIr [false, true]) (hears [frame bytes] (live p0))) = some (bytesSent bytes) := by decide
/-- V40: the reply is bit 2 of read bytes 7 and 9. -/
theorem test_writeDr :
    let bytes := [0x18, 0x19, 0x10, 0x11, 0x10, 0x11, 0x12, 0x13, 0x18, 0x19, 0x18, 0x19, 0x10, 0x11]
    let rd := [0, 0, 0, 0, 0, 4, 4, 0, 0, 4, 4, 4, 0, 0]
    let o := exec (.writeDr [true, false]) (hears [.transfer bytes rd] (live p0))
    sentBy o = some (bytesSent bytes) ∧ resultOf o = some (.bits [false, true]) := by decide
/-- V46. -/
theorem test_hwReset_pulse :
    let s := { closed p0 with chan := .opened }
    let o := exec (.hwReset true false) (hears [frame [0x00, 0x00, 0x10]] s)
    sentBy o = some (bytesSent [0x00, 0x00, 0x10]) ∧ (nextOf o).map State.tap = some .unknown := by decide
/-- V47; the same state updates on ENGINE (R186). -/
theorem test_hwReset_tap :
    let bytes := [0x18, 0x19, 0x18, 0x19, 0x18, 0x19, 0x18, 0x19, 0x18, 0x19]
    let o := exec (.hwReset false true) (hears [frame bytes] (live p0))
    let e := exec (.hwReset false true) (hears [.call (.reset false true) []] (live engineParams))
    sentBy o = some (bytesSent bytes)
    ∧ (nextOf o).map State.lines = some ⟨true, true, false, true⟩
    ∧ (nextOf e).map State.lines = some ⟨true, true, false, true⟩ := by decide
/-- R188 on RAW: nothing is sent. -/
theorem test_openChannel :
    let o := exec (.openChannel []) (closed p0)
    sentBy o = some [] ∧ (nextOf o).map State.chan = some .opened := by decide
/-- R189: accepted while an error is latched, and does not clear it. -/
theorem test_closeChannel :
    let s := { live p0 with err := .protocolViolation 1 158 }
    let o := exec .closeChannel s
    (nextOf o).map State.chan = some .closed ∧ (nextOf o).map State.err = some (.protocolViolation 1 158) := by decide
/-- V51. -/
theorem test_bbExpand : resultOf (exec (.bbExpand [(true, false), (false, true)]) (live p0))
    = some (.bytes [0x18, 0x19, 0x12, 0x13]) := by decide
/-- V52. -/
theorem test_bbExpand_lag :
    resultOf (exec (.bbExpand [(true, false), (false, true)]) (live { p0 with rxLag := 1 }))
      = some (.bytes [0x18, 0x19, 0x12, 0x13, 0x13]) := by decide
/-- V58: fourteen bytes written, thirteen returned. -/
theorem test_bbXfer_short :
    let s := hears [.transfer (List.replicate 14 0x10) (List.replicate 13 0)] (live p0)
    (nextOf (exec (.bbXfer (List.replicate 14 0x10)) s)).map State.err
      = some (.transportError .bbXfer (some 14) (some 13)) := by decide
/-- V54, V57's refusal, and R189's. -/
theorem test_bbExtract :
    resultOf (exec (.bbExtract [0x10, 0x15, 0x10, 0x11, 0x14, 0x15] 0 3) (live p0))
      = some (.bits [true, false, true])
    ∧ refusalOf (exec (.bbExtract [0x10, 0x15] 0 2) (live p0)) = some .indexOutsideFrame
    ∧ refusalOf (exec (.bbExtract [0x10, 0x15] 0 1) (closed p0)) = some .channelClosed := by decide
/-- V59a. -/
theorem test_select :
    let bytes := [0x18, 0x19, 0x18, 0x19, 0x10, 0x11, 0x10, 0x11, 0x12, 0x13, 0x10, 0x11, 0x12, 0x13, 0x18, 0x19,
      0x18, 0x19, 0x10, 0x11]
    let o := exec (.select .r1 .configuration 1 1) (hears [frame bytes] (live p0))
    sentBy o = some (bytesSent bytes) ∧ (nextOf o).map State.curSel = some (some (.r1, .configuration)) := by decide
/-- V59d: 26 bits, 62 bytes, 26 reply bits. -/
theorem test_shift :
    let s := { live p0 with curSel := some (.r0, .configuration) }
    let o := exec (.shift .r0 (ones 27 []) 1 1) (hears [frame (List.replicate 62 0)] s)
    (sentBy o).map List.length = some 62 ∧ resultOf o = some (.bits (ones 26 [])) := by decide +kernel
/-- V59f: 20, 64, 12 and 20 bytes. -/
theorem test_transact :
    let xs := [frame (List.replicate 20 0), frame (List.replicate 64 0), frame (List.replicate 12 0),
      frame (List.replicate 20 0)]
    let o := exec (.transact .r1 .configuration (ones 27 []) 1 1) (hears xs (live p0))
    (sentBy o).map List.length = some 116 ∧ (nextOf o).map State.phase = some .idle := by decide +kernel
/-- V60 and V67. -/
theorem test_parseReply :
    resultOf (exec (.parseReply (ones 195 [37, 94, 143, 192]) .r1 1 1) (closed p0)) = some (.counters 1 2 4 2048)
    ∧ resultOf (exec (.parseReply (ones 162 [0, 57, 106, 155]) .r0 1 3) (closed p0)) = some (.counters 1 2 4 2048) := by
  decide +kernel
/-- V68c. -/
theorem test_parseReply_short :
    (nextOf (exec (.parseReply (ones 161 []) .r0 1 3) (closed p0))).map State.err
      = some (.protocolViolation 161 162) := by decide +kernel
/-- R303 on ENGINE: five calls a transaction. -/
theorem test_configureBlock :
    let s := { live engineParams with env := ⟨[], [], (List.replicate 15 (.done (ones 27 []))).set 11
      (.done (ones 133 [])), 0⟩ }
    let o := exec (.configureBlock .r1 [(key .enpll, 1)] 1 1) s
    (sentBy o).map List.length = some 15 ∧ (nextOf o).map State.curSel = some (some (.r1, .coreInputs)) := by decide +kernel
/-- R307: with no bit-selects nothing happens. -/
theorem test_sweepBlock_empty : resultOf (exec (.sweepBlock .r0 0 1 1) (live p0)) = some (.samples []) := by decide
/-- V72: the error comes before OPEN, nothing is sent. -/
theorem test_sweep_position :
    let o := exec (.sweep ⟨1, 2, 1, 0, []⟩) (closed p0)
    sentBy o = some [] ∧ (nextOf o).map State.err = some (.configurationError (.position 2 1)) := by decide
/-- R305, lane numbers ready: pattern 3's go to the four lanes (bit 0 of lane `i` at index `40 + 26 i`), pattern 4 is no
member. -/
theorem test_sweep_pattern :
    let p := { p0 with testPatterns := .ready [(0, ⟨0, 0, 0, 0⟩), (3, ⟨1, 2, 0, 4⟩)] }
    ((coreParamsFor p 3).map fun fs => (encodeCore p fs).toOption) = some (some (ones 133 [2, 6, 8, 40, 65, 116]))
    ∧ coreParamsFor p 4 = none := by decide +kernel
/-- V50 with all levels given: `0x1B` is TCK, TMS, TDI and RST. -/
theorem test_sample : resultOf (exec (.sample true true false true true) (closed p0)) = some (.bytes [0x1B]) := by decide
/-- V23. -/
theorem test_irFrame : resultOf (exec (.irFrame (ones 4 [2]) 3 3) (closed p0))
    = some (.bits (ones 12 [0, 1, 2, 3, 4, 5, 6, 7, 9])) := by decide
/-- V27. -/
theorem test_drFrame : resultOf (exec (.drFrame (ones 27 [2]) .r0 1 1) (closed p0)) = some (.bits (ones 26 [23])) := by
  decide
/-- R84: lane 3's `unshadowedWe` stands at index 22. -/
theorem test_cfgImage :
    resultOf (exec (.cfgImage { (default : CfgImage) with
        lane3 := { (default : CfgLane) with unshadowedWe := true } }) (closed p0))
      = some (.bits (ones 27 [22])) := by decide
/-- R85: `lb` at 13 and 14, `clkbyp` at 119 and 120. -/
theorem test_coreImage :
    resultOf (exec (.coreImage { (default : CoreImage) with lb := 2, clkbyp := 1 }) (closed p0))
      = some (.bits (ones 133 [13, 120])) := by decide
/-- R86: lane 2's block begins at 98. -/
theorem test_charImage :
    resultOf (exec (.charImage { (default : CharImage) with
        lane2 := { (default : CharLane) with testfail := true, scanLen := 1 } }) (closed p0))
      = some (.bits (ones 195 [98, 143])) := by decide +kernel
/-- V69a: `0xA5C` least significant bit first. -/
theorem test_replyFormat :
    resultOf (exec (.replyFormat (ones 158 [4, 5, 6, 8, 11, 13])) (closed p0)) = some (.counters 2652 0 0 0) := by decide +kernel
/-- R87: 157 bits are no word of the format. -/
theorem test_replyFormat_short :
    refusalOf (exec (.replyFormat (ones 157 [])) (closed p0)) = some .replyTooShort := by decide +kernel
/-- R100: BYPASS to a chain of one, on ENGINE. -/
theorem test_bypassOpcode :
    let s := { hears [.call (.writeInstructionRegister []) []] (live engineParams) with curSel := some (.r0, .readback) }
    let o := exec (.bypassOpcode 1 1) s
    sentBy o = some [.call (.writeInstructionRegister [true, true, true, true])]
    ∧ (nextOf o).map State.curSel = some none := by decide
/-- R100: each of the six rows writes its own opcode and is what is selected. -/
theorem test_opcRows : ([Blk.r0, .r1].flatMap fun b => [Sel.configuration, .coreInputs, .readback].map fun x =>
      let o := exec (opcRow 1 1 b x) (hears [.call (.writeInstructionRegister []) []] (live engineParams))
      (sentBy o, (nextOf o).map State.curSel))
    = [(some [.call (.writeInstructionRegister (ones 4 [0]))], some (some (.r0, .configuration))),
       (some [.call (.writeInstructionRegister (ones 4 [1]))], some (some (.r0, .coreInputs))),
       (some [.call (.writeInstructionRegister (ones 4 [0, 1]))], some (some (.r0, .readback))),
       (some [.call (.writeInstructionRegister (ones 4 [0, 2]))], some (some (.r1, .configuration))),
       (some [.call (.writeInstructionRegister (ones 4 [1, 2]))], some (some (.r1, .coreInputs))),
       (some [.call (.writeInstructionRegister (ones 4 [0, 1, 2]))], some (some (.r1, .readback)))] := by decide
/-- R318's example: `4<TAB>0<TAB>-32<TAB>15<TAB>2049<LF>`. -/
theorem test_sinkText : SweepSample.line ⟨4, 0, -32, 15, 2049⟩
    = [0x34, 9, 0x30, 9, 0x2d, 0x33, 0x32, 9, 0x31, 0x35, 9, 0x32, 0x30, 0x34, 0x39, 0x0a] := by decide
/-- The illustrative parameters are legal (R10). -/
theorem test_params : p0.wf = true ∧ engineParams.wf = true := by decide

/-! ### Witnesses: a state and operands that meet the hypotheses of each statement -/

/-- Parameters with two named lane fields, `20 + 6` bits, the second the test-pattern field. -/
def laneParams : Params := { p0 with laneLayout := [(0, 20), (1, 6)], testPatterns := .byField 1 [(0, 5), (7, 6)] }

/-- An exchange as the transport's answers of `hears` make it: as many bytes back as were written. -/
def Whole : Exchange → Prop
  | .transfer bytes rd => rd.length = bytes.length
  | .call _ _ => True

theorem answers_of_env (xs : List Exchange) : ∀ s : State, (∀ x ∈ xs, Whole x) → s.env.writes = writesOf xs →
    s.env.reads = readsOf xs → s.env.engine = engineOf xs → Answers s xs := by
  induction xs with
  | nil => intros; trivial
  | cons x xs ih =>
    intro s hw h1 h2 h3
    have hx := hw x (List.mem_cons_self ..)
    have hrest : ∀ y ∈ xs, Whole y := fun y hy => hw y (List.mem_cons_of_mem _ hy)
    cases x with
    | transfer bytes rd =>
      simp only [writesOf, readsOf, engineOf, List.filterMap_cons] at h1 h2 h3
      refine ⟨⟨by simp [State.writeAnswer, h1], hx, by simp [State.readAnswer, Env.afterWrite, h2]⟩, ?_⟩
      apply ih _ hrest <;>
        simp [Exchange.after, Env.afterWrite, Env.afterRead, h1, h2, h3, writesOf, readsOf, engineOf]
    | call c bits =>
      simp only [writesOf, readsOf, engineOf, List.filterMap_cons] at h1 h2 h3
      refine ⟨by simp [Exchange.answered, State.engineAnswer, h3], ?_⟩
      apply ih _ hrest <;> simp [Exchange.after, Env.afterEngine, h1, h2, h3, writesOf, readsOf, engineOf]

theorem answers_hears {xs : List Exchange} (s : State) (h : ∀ x ∈ xs, Whole x) : Answers (hears xs s) xs :=
  answers_of_env xs _ h rfl rfl rfl

/-- An IR write answered with zeros, and a DR write. -/
def irZeros (p : Params) (w : Bits) : Exchange :=
  irExchange p w (List.replicate (expandCycles p (shiftCycles [true, true, false, false] w)).length 0) []
def drZeros (p : Params) (w : Bits) : Exchange :=
  drExchange p w (List.replicate (expandCycles p (shiftCycles [true, false, false] w)).length 0)
    (List.replicate w.length false)
def resetZeros (p : Params) : List Exchange :=
  match p.backend with
  | .raw => [frame (expandCycles p
      [(true, false), (true, false), (true, false), (true, false), (true, false), (false, false)])]
  | .engine => [.call .resetTAP [], .call .goIdle []]

theorem irZeros_isIr (p : Params) (w : Bits) : (irZeros p w).isIr p w := ⟨_, _, rfl⟩
theorem drZeros_isDr (p : Params) (w : Bits) : (drZeros p w).isDr p w :=
  ⟨_, _, rfl, fun _ => List.length_replicate ..⟩
theorem irZeros_whole (p : Params) (w : Bits) : Whole (irZeros p w) := by
  unfold irZeros irExchange; split <;> simp [Whole]
theorem drZeros_whole (p : Params) (w : Bits) : Whole (drZeros p w) := by
  unfold drZeros drExchange; split <;> simp [Whole]
theorem resetZeros_are (p : Params) : areTapReset p (resetZeros p) := by
  unfold areTapReset resetZeros; cases p.backend <;> simp [frame]
theorem resetZeros_whole (p : Params) : ∀ x ∈ resetZeros p, Whole x := by
  unfold resetZeros; cases p.backend <;> simp [Whole, frame]

theorem answered_hears {x : Exchange} (s : State) (h : Whole x) : x.answered (hears [x] s) :=
  (answers_hears s (xs := [x]) (by simpa using h)).1

theorem some_transact (p : Params) (blk : Blk) (sel : Sel) (v : Bits) (pos n : Nat) :
    ∃ xs, areTransact p blk sel v pos n xs ∧ ∀ x ∈ xs, Whole x := by
  refine ⟨_, ⟨_, _, _, _, rfl, irZeros_isIr .., drZeros_isDr .., resetZeros_are p, irZeros_isIr ..⟩, ?_⟩
  have := resetZeros_whole p
  simp only [List.mem_cons, List.mem_append, List.not_mem_nil, or_false]
  rintro x (rfl | rfl | hx | rfl)
  · exact irZeros_whole ..
  · exact drZeros_whole ..
  · exact this x hx
  · exact irZeros_whole ..

theorem some_configure (p : Params) (blk : Blk) (v1 v2 v3 : Bits) (pos n : Nat) :
    ∃ xs, areConfigure p blk v1 v2 v3 pos n xs ∧ ∀ x ∈ xs, Whole x := by
  obtain ⟨xs1, h1, w1⟩ := some_transact p blk .configuration v1 pos n
  obtain ⟨xs2, h2, w2⟩ := some_transact p blk .configuration v2 pos n
  obtain ⟨xs3, h3, w3⟩ := some_transact p blk .coreInputs v3 pos n
  refine ⟨_, ⟨_, _, _, rfl, h1, h2, h3⟩, ?_⟩
  simp only [List.mem_append]
  rintro x ((hx | hx) | hx)
  · exact w1 x hx
  · exact w2 x hx
  · exact w3 x hx

theorem some_reads (p : Params) (blk : Blk) (v : Int) (b pos n : Nat) (phs : List Int) :
    ∃ xs ss, areReads p blk v b pos n phs xs ss ∧ ∀ x ∈ xs, Whole x := by
  induction phs with
  | nil => exact ⟨[], [], ⟨rfl, rfl⟩, by simp⟩
  | cons ph phs ih =>
    obtain ⟨xs, ss, h, w⟩ := ih
    refine ⟨_, _, ⟨_, _, _, rfl, rfl, drZeros_isDr .., h⟩, ?_⟩
    simp only [List.mem_cons]
    rintro x (rfl | hx)
    · exact drZeros_whole ..
    · exact w x hx

theorem some_each {α : Type} (each : α → List Exchange → List SweepSample → Prop)
    (h : ∀ a, ∃ xs ss, each a xs ss ∧ ∀ x ∈ xs, Whole x) (as : List α) :
    ∃ xs ss, areEach each as xs ss ∧ ∀ x ∈ xs, Whole x := by
  induction as with
  | nil => exact ⟨[], [], ⟨rfl, rfl⟩, by simp⟩
  | cons a as ih =>
    obtain ⟨xs, ss, h2, w2⟩ := ih
    obtain ⟨ys, zs, h1, w1⟩ := h a
    refine ⟨_, _, ⟨_, _, _, _, rfl, rfl, h1, h2⟩, ?_⟩
    simp only [List.mem_append]
    rintro x (hx | hx)
    · exact w1 x hx
    · exact w2 x hx

theorem some_sweepBlock (p : Params) (blk : Blk) (bitNumber pos n : Nat) :
    ∃ xs ss, areSweepBlock p blk bitNumber pos n xs ss ∧ ∀ x ∈ xs, Whole x := by
  refine some_each _ (fun v => some_each _ (fun b => ?_) _) _
  obtain ⟨xs, ss, h, w⟩ := some_reads p blk v b pos n ((List.range 32).map fun (k : Nat) => (15 : Int) - k)
  refine ⟨_, ss, ⟨_, _, _, rfl, irZeros_isIr .., drZeros_isDr .., h⟩, ?_⟩
  simp only [List.mem_cons]
  rintro x (rfl | rfl | hx)
  · exact irZeros_whole ..
  · exact drZeros_whole ..
  · exact w x hx

theorem some_engineOnly (p : Params) (c : EngineCall) : ∃ xs, areEngineOnly p c xs ∧ ∀ x ∈ xs, Whole x := by
  unfold areEngineOnly
  split
  · exact ⟨[], rfl, by simp⟩
  · exact ⟨[.call c []], ⟨[], rfl⟩, by simp [Whole]⟩

theorem ok_of_isSome {ε α : Type} {x : Except ε α} (h : x.toOption.isSome = true) : ∃ v, x = .ok v := by
  cases x with
  | ok v => exact ⟨v, rfl⟩
  | error e => cases h

theorem some_sweep (p : Params) (fs : Fields) (q : SweepParams) (h : (encodeCore p fs).toOption.isSome = true) :
    ∃ xs ss, areSweep p fs q xs ss ∧ ∀ x ∈ xs, Whole x := by
  obtain ⟨xs1, h1, w1⟩ := some_engineOnly p (.configure q.connection)
  obtain ⟨v3, e3⟩ := ok_of_isSome h
  obtain ⟨xs3, ss, h3, w3⟩ := some_each (areBlock p fs q.bitNumber q.pos q.n) (fun blk => by
    obtain ⟨xs1, h1, w1⟩ := some_configure p blk (List.replicate 27 false) weImage v3 q.pos q.n
    obtain ⟨xs2, ss, h2, w2⟩ := some_sweepBlock p blk q.bitNumber q.pos q.n
    refine ⟨_, ss, ⟨v3, _, _, e3, rfl, h1, h2⟩, ?_⟩
    simp only [List.mem_append]
    rintro x (hx | hx)
    · exact w1 x hx
    · exact w2 x hx) [.r0, .r1]
  refine ⟨_, ss, ⟨_, _, _, rfl, h1, resetZeros_are p, h3⟩, ?_⟩
  have w2 := resetZeros_whole p
  simp only [List.mem_append]
  rintro x ((hx | hx) | hx)
  · exact w1 x hx
  · exact w2 x hx
  · exact w3 x hx

theorem frame_whole (bytes : List Byte) : Whole (frame bytes) := by simp [Whole, frame]

/-- A live state whose transport answers as given. -/
def answering (p : Params) (w : List WriteAnswer) (r : List ReadAnswer) (e : List EngineAnswer) : State :=
  { live p with env := ⟨w, r, e, 0⟩ }

theorem witness_DecodeEncodeRoundTrip :
    (Instr.sweep ⟨1, 2, 1, 0, [0x61]⟩).wellFormed = true ∧ (Instr.encCfg [(key .coreWeHead, -1)]).wellFormed = true := by
  decide
theorem witness_StepRunsDecoded :
    decode ({ closed p0 with inbox := [0x39] } : State).inbox = .ok (.closeChannel, [])
    ∧ Instr.closeChannel.wellFormed = true ∧ (closed p0).inbox = [] := ⟨rfl, rfl, rfl⟩
theorem witness_EncCfgImage :
    namesOnly (fieldKeys cfgLayout) [(key .coreWeHead, 1)] = true
    ∧ namesOnly (fieldKeys cfgLayout) [(key .guardHead, 0)] = false := by decide
theorem witness_EncCoreImage :
    (closed p0).params.wf = true ∧ (closed laneParams).params.wf = true
    ∧ namesOnly (coreKeys p0) [(lane .laneCtl 0, 1)] = true ∧ laneTwice p0 [(lane .laneCtl 0, 1)] 0 = false
    ∧ namesOnly (coreKeys laneParams) [(lane (.other 1) 3, 1)] = true
    ∧ laneTwice laneParams [(lane (.other 1) 3, 1)] 3 = false
    ∧ namesOnly (coreKeys laneParams) [(lane (.other 1) 3, 1), (lane .laneCtl 3, 1)] = true
    ∧ laneTwice laneParams [(lane (.other 1) 3, 1), (lane .laneCtl 3, 1)] 3 = true
    ∧ namesOnly (coreKeys p0) [(lane (.other 1) 3, 1)] = false := by decide +kernel
theorem witness_EncCharImage : namesOnly (fieldKeys charLayout) [(lane .ecount 3, 4096)] = true := by decide +kernel
theorem witness_FixedLength :
    (nextOf (exec (.encCfg []) (closed p0))).isSome = true ∧ (nextOf (exec (.encCore []) (closed p0))).isSome = true
    ∧ (nextOf (exec (.encChar []) (closed p0))).isSome = true := by decide +kernel
theorem witness_Masking : (closed laneParams).params.wf = true := by decide
theorem witness_DecCfgFields : (ones 27 [26]).length = 27 ∧ (ones 28 []).length ≠ 27 := by decide
theorem witness_DecCoreFields : (ones 133 [132]).length = 133 ∧ (ones 132 []).length ≠ 133 := by decide +kernel
theorem witness_DecCharFields : (ones 195 [194]).length = 195 ∧ (ones 194 []).length ≠ 195 := by decide +kernel
theorem witness_UnknownFieldRefused :
    (∃ kv ∈ ([(key .mpy, 1)] : Fields), kv.1 ∉ fieldKeys cfgLayout)
    ∧ (∃ kv ∈ ([(key .reserved0, 0)] : Fields), kv.1 ∉ coreKeys (closed p0).params)
    ∧ (∃ kv ∈ ([(lane .ecount 4, 0)] : Fields), kv.1 ∉ fieldKeys charLayout) := by decide +kernel
theorem witness_CodecRoundTrip :
    (nextOf (exec (.encCfg weSet) (closed p0))).isSome = true
    ∧ (nextOf (exec (.encCore [(lane (.other 0) 2, -1)]) (closed laneParams))).isSome = true
    ∧ (nextOf (exec (.encChar [(lane .voltageOffset 0, -32)]) (closed p0))).isSome = true := by decide +kernel
theorem witness_SampleBits : (closed { p0 with hasRst := false }).params.wf = true ∧ (closed p0).params.wf = true := by
  decide

theorem closeHeard_raw : closeHeard (live p0) := nofun
theorem closeHeard_closed (p : Params) : closeHeard (closed p) := nofun
theorem closeHeard_failed : closeHeard (answering engineParams [] [] [.failed]) := fun _ _ => nofun

/-- Both a closed channel and an open one whose `close` fails; the opcode's width, and one too short; positions 1 and
`N`, and the three just outside. -/
theorem witness_PadIrFrame :
    (closed p0).err = .none ∧ closeHeard (closed p0) ∧ (answering engineParams [] [] [.failed]).err = .none
    ∧ closeHeard (answering engineParams [] [] [.failed])
    ∧ (0 < 1 ∨ 1 < 1 ∨ 0 < 1) ∧ (3 < 1 ∨ 0 < 1 ∨ 3 < 0) ∧ (3 < 1 ∨ 4 < 1 ∨ 3 < 4)
    ∧ ¬ (1 < 1 ∨ 1 < 1 ∨ 1 < 1) ∧ ¬ (3 < 1 ∨ 3 < 1 ∨ 3 < 3)
    ∧ (ones 3 []).length ≠ (closed p0).params.irLen ∧ (ones 4 []).length = (closed p0).params.irLen :=
  ⟨rfl, closeHeard_closed _, rfl, closeHeard_failed, by decide, by decide, by decide, by decide, by decide, by decide,
    by decide⟩
/-- A vector of `TRIM` bits is too short, one of a bit more is not. -/
theorem witness_PadDrFrame :
    (closed p0).err = .none ∧ closeHeard (closed p0) ∧ (3 < 1 ∨ 0 < 1 ∨ 3 < 0) ∧ ¬ (1 < 1 ∨ 1 < 1 ∨ 1 < 1)
    ∧ (ones 1 []).length ≤ trim .r0 ∧ ¬ (ones 2 []).length ≤ trim .r0
    ∧ (ones 0 []).length ≤ trim .r1 ∧ ¬ (ones 1 []).length ≤ trim .r1 :=
  ⟨rfl, closeHeard_closed _, by decide, by decide, by decide, by decide, by decide, by decide⟩
theorem witness_FrameFormats :
    (closed p0).err = .none ∧ 1 ≤ 1 ∧ 1 ≤ 3 ∧ 3 ≤ 3 ∧ (ones 4 [2]).length = (closed p0).params.irLen
    ∧ trim .r0 < (ones 2 [0]).length ∧ trim .r1 < (ones 1 [0]).length := by decide
/-- Positions 0 of 1, 2 of 1 and 1 of 0; on both backends. -/
theorem witness_InvalidPositionAborts :
    let s := { live p0 with curSel := some (.r0, .configuration) }
    let e := answering engineParams [] [] [.failed]
    s.Live ∧ closeHeard s ∧ s.tap = .runTestIdle ∧ e.Live ∧ closeHeard e ∧ e.tap = .runTestIdle
    ∧ ¬ (1 ≤ 1 ∧ 1 ≤ 0 ∧ 0 ≤ 1) ∧ ¬ (1 ≤ 1 ∧ 1 ≤ 2 ∧ 2 ≤ 1) ∧ ¬ (1 ≤ 0 ∧ 1 ≤ 1 ∧ 1 ≤ 0)
    ∧ s.curSel = some (.r0, .configuration) ∧ (ones 27 []).length = selLength .configuration ∧ s.phase = .idle :=
  ⟨⟨rfl, rfl⟩, nofun, rfl, ⟨rfl, rfl⟩, closeHeard_failed, rfl, by decide, by decide, by decide, rfl, by decide, rfl⟩

theorem witness_TapTableFacts :
    TapState.shiftDR ≠ .unknown ∧ TapState.exit1DR ≠ .unknown ∧ 5 ≤ 5 ∧ tapWalk .shiftDR [true] = .exit1DR
    ∧ [true].length ≤ (tapPath .shiftDR .exit1DR).length := by decide
theorem witness_TckCycleCompletes :
    let p := { p0 with rxLag := 1 }
    let bytes := [sampleByte p false true false p.rstInactive, sampleByte p true true false p.rstInactive]
      ++ List.replicate p.rxLag (sampleByte p true true false p.rstInactive)
    let s := hears [frame bytes] (live p)
    s.RawLive ∧ s.params.wf = true ∧ (frame bytes).answered s :=
  ⟨⟨⟨rfl, rfl⟩, rfl⟩, by decide, answered_hears _ (frame_whole _)⟩
theorem witness_TmsWalkCompletes :
    let x := frame (expandCycles p0 ([true].map fun tms => (tms, false)))
    let s := hears [x] (live p0)
    s.RawLive ∧ s.params.wf = true ∧ x.answered s := ⟨⟨⟨rfl, rfl⟩, rfl⟩, by decide, answered_hears _ (frame_whole _)⟩
/-- On both backends, from an unknown state and from a known one. -/
theorem witness_TapResetCompletes :
    let low := (false, false)
    let high := (true, false)
    let xs := [frame (expandCycles p0 [high, high, high, high, high, low])]
    let s := hears xs { live p0 with tap := .unknown }
    let ys := [Exchange.call .resetTAP [], .call .goIdle []]
    let e := hears ys (live engineParams)
    s.Live ∧ s.params.wf = true ∧ s.params.backend = .raw ∧ Answers s xs
    ∧ e.Live ∧ e.params.wf = true ∧ e.params.backend = .engine ∧ Answers e ys :=
  ⟨⟨rfl, rfl⟩, by decide, rfl, answers_hears _ (by simp [Whole, frame]),
    ⟨rfl, rfl⟩, by decide, rfl, answers_hears _ (by simp [Whole])⟩
theorem witness_GoIdleCompletes :
    let x := frame (expandCycles p0 ((tapPath .shiftDR .runTestIdle).map fun tms => (tms, false)))
    let s := hears [x] { live p0 with tap := .shiftDR }
    let c := Exchange.call .goIdle []
    let e := hears [c] (live engineParams)
    let d := hears [c] { live engineParams with tap := .selectIRScan }
    (live p0).Live ∧ (live p0).params.wf = true ∧ (live p0).params.backend = .raw ∧ (live p0).tap = .runTestIdle
    ∧ s.Live ∧ s.params.wf = true ∧ s.tap ≠ .unknown ∧ s.params.backend = .raw ∧ s.tap ≠ .runTestIdle ∧ x.answered s
    ∧ e.Live ∧ e.params.wf = true ∧ e.tap ≠ .unknown ∧ e.params.backend = .engine ∧ c.answered e
    ∧ d.Live ∧ d.params.wf = true ∧ d.tap ≠ .unknown ∧ d.params.backend = .engine ∧ c.answered d
    ∧ visitsReset d.tap (tapPath d.tap .runTestIdle) = true :=
  ⟨⟨rfl, rfl⟩, by decide, rfl, rfl, ⟨rfl, rfl⟩, by decide, nofun, rfl, nofun, answered_hears _ (frame_whole _),
    ⟨rfl, rfl⟩, by decide, nofun, rfl, answered_hears _ trivial,
    ⟨rfl, rfl⟩, by decide, nofun, rfl, answered_hears _ trivial, by decide⟩
theorem witness_ChangeStateCompletes :
    let x := frame (expandCycles p0 ((tapPath .runTestIdle .testLogicReset).map fun tms => (tms, false)))
    let s := hears [x] (live p0)
    let c := Exchange.call (.changeState .testLogicReset) []
    let e := hears [c] (live engineParams)
    let c' := Exchange.call (.changeState .selectDRScan) []
    let d := hears [c'] { live engineParams with tap := .selectIRScan }
    TapState.testLogicReset ≠ .unknown ∧ s.Live ∧ s.params.wf = true ∧ s.tap ≠ .unknown ∧ s.params.backend = .raw
    ∧ s.tap = .runTestIdle ∧ s.tap ≠ .testLogicReset ∧ x.answered s
    ∧ e.Live ∧ e.params.wf = true ∧ e.tap ≠ .unknown ∧ e.params.backend = .engine ∧ c.answered e
    ∧ d.Live ∧ d.params.wf = true ∧ d.tap ≠ .unknown ∧ d.params.backend = .engine ∧ c'.answered d
    ∧ visitsReset d.tap (tapPath d.tap .selectDRScan) = true :=
  ⟨nofun, ⟨rfl, rfl⟩, by decide, nofun, rfl, rfl, nofun, answered_hears _ (frame_whole _),
    ⟨rfl, rfl⟩, by decide, nofun, rfl, answered_hears _ trivial,
    ⟨rfl, rfl⟩, by decide, nofun, rfl, answered_hears _ trivial, by decide⟩
theorem witness_WriteIrCompletes :
    let x := irZeros p0 [true]
    let s := hears [x] (live p0)
    let y := irZeros engineParams [true]
    let e := hears [y] (live engineParams)
    [true] ≠ [] ∧ s.Live ∧ s.params.wf = true ∧ s.tap = .runTestIdle ∧ x.isIr s.params [true] ∧ x.answered s
    ∧ e.Live ∧ e.params.wf = true ∧ e.tap = .runTestIdle ∧ y.isIr e.params [true] ∧ y.answered e :=
  ⟨nofun, ⟨rfl, rfl⟩, by decide, rfl, irZeros_isIr .., answered_hears _ (irZeros_whole ..),
    ⟨rfl, rfl⟩, by decide, rfl, irZeros_isIr .., answered_hears _ (irZeros_whole ..)⟩
theorem witness_WriteDrCompletes :
    let x := drZeros p0 [true]
    let s := hears [x] (live p0)
    let y := drZeros engineParams [true]
    let e := hears [y] (live engineParams)
    [true] ≠ [] ∧ s.Live ∧ s.params.wf = true ∧ s.tap = .runTestIdle ∧ x.isDr s.params [true] ∧ x.answered s
    ∧ e.Live ∧ e.params.wf = true ∧ e.tap = .runTestIdle ∧ y.isDr e.params [true] ∧ y.answered e :=
  ⟨nofun, ⟨rfl, rfl⟩, by decide, rfl, drZeros_isDr .., answered_hears _ (drZeros_whole ..),
    ⟨rfl, rfl⟩, by decide, rfl, drZeros_isDr .., answered_hears _ (drZeros_whole ..)⟩
/-- The pulse, the walk, and both, on both backends; neither; and a pulse without a reset line. -/
theorem witness_HwResetCompletes :
    let held := fun rst => sampleByte p0 false false false rst
    let pulse := [held false, held false, held true]
    let walk := [0x18, 0x19, 0x18, 0x19, 0x18, 0x19, 0x18, 0x19, 0x18, 0x19]
    let s := fun bytes => hears [frame bytes] (live p0)
    let c := fun hw tapr => Exchange.call (.reset hw tapr) []
    let e := fun hw tapr => hears [c hw tapr] (live engineParams)
    let d := live { p0 with hasRst := false }
    (∀ bytes, (s bytes).Live ∧ (s bytes).params.wf = true ∧ ¬ (true = true ∧ (s bytes).params.hasRst = false)
      ∧ (s bytes).params.backend = .raw ∧ (frame bytes).answered (s bytes))
    ∧ pulse = List.replicate p0.rstPulseSamples (held (!p0.rstInactive)) ++ [held p0.rstInactive] ∧ p0.rxLag = 0
    ∧ walk = (List.replicate 5 [sampleByte p0 false true false true, sampleByte p0 true true false true]).flatten
    ∧ (frame (pulse ++ walk)).answered (s (pulse ++ walk)) ∧ (frame pulse).answered (s pulse)
    ∧ (frame walk).answered (s walk)
    ∧ (∀ hw tapr, (e hw tapr).Live ∧ (e hw tapr).params.wf = true
      ∧ ¬ (true = true ∧ (e hw tapr).params.hasRst = false) ∧ (e hw tapr).params.backend = .engine
      ∧ (c hw tapr).answered (e hw tapr))
    ∧ d.Live ∧ d.params.wf = true ∧ (true = true ∧ d.params.hasRst = false) := by
  have hwf : p0.wf = true ∧ engineParams.wf = true := by decide
  exact ⟨fun _ => ⟨⟨rfl, rfl⟩, hwf.1, nofun, rfl, answered_hears _ (frame_whole _)⟩, by decide, rfl, by decide,
    answered_hears _ (frame_whole _), answered_hears _ (frame_whole _), answered_hears _ (frame_whole _),
    fun _ _ => ⟨⟨rfl, rfl⟩, hwf.2, nofun, rfl, answered_hears _ trivial⟩, ⟨rfl, rfl⟩, by decide, rfl, rfl⟩
theorem witness_OpenCompletes :
    let c := Exchange.call (.configure [0x61]) []
    let e := hears [c] (closed engineParams)
    (closed p0).err = .none ∧ (closed p0).chan = .closed ∧ (closed p0).params.backend = .raw
    ∧ e.err = .none ∧ e.chan = .closed ∧ e.params.backend = .engine ∧ c.answered e
    ∧ (live p0).err = .none ∧ (live p0).chan = .opened :=
  ⟨rfl, rfl, rfl, rfl, rfl, rfl, answered_hears _ trivial, rfl, rfl⟩
/-- Closed with an error latched; open on RAW; open on ENGINE with a `close` that fails. -/
theorem witness_CloseCompletes :
    let s := { closed p0 with err := .protocolViolation 0 158 }
    closeHeard s ∧ s.chan = .closed ∧ closeHeard (live p0) ∧ (live p0).chan = .opened
    ∧ closeHeard (answering engineParams [] [] [.failed]) := ⟨nofun, rfl, closeHeard_raw, rfl, closeHeard_failed⟩
theorem witness_TapRefusals :
    let s := { live p0 with tap := .unknown }
    s.Live ∧ s.tap = .unknown ∧ [true] ≠ [] ∧ s.tap ≠ .runTestIdle ∧ (live engineParams).Live
    ∧ (live engineParams).params.backend = .engine := ⟨⟨rfl, rfl⟩, rfl, nofun, nofun, ⟨rfl, rfl⟩, rfl⟩
theorem witness_ClosedRefuses :
    (closed p0).err = .none ∧ (closed p0).chan = .closed ∧ needsChannel .tapReset = true
    ∧ needsChannel (.bbExpand []) = true ∧ needsChannel (.bbExtract [] 0 0) = true := ⟨rfl, rfl, rfl, rfl, rfl⟩
theorem witness_LatchedRefuses :
    ({ closed p0 with err := .protocolViolation 0 158 } : State).err ≠ .none
    ∧ acceptedAfterError .tapReset = false := ⟨nofun, rfl⟩

/-- The first and the last byte of one cycle, and the first flush byte; live, and after an error. -/
theorem witness_BbExpandWaveforms :
    let s := live { p0 with rxLag := 1 }
    let f := { closed p0 with err := .protocolViolation 0 158 }
    (s.err = .none → s.chan = .opened) ∧ (f.err = .none → f.chan = .opened) ∧ f.params.backend = .raw
    ∧ f.params.wf = true ∧ s.params.backend = .raw ∧ s.params.wf = true ∧ [(true, false)] ≠ [] ∧ [(true, false)][0 / 2]? = some (true, false)
    ∧ [(true, false)][1 / 2]? = some (true, false) ∧ 0 < s.params.rxLag := by decide
theorem witness_BbXferCompletes :
    let x := frame ([] ++ [0x19])
    let s := hears [x] (live p0)
    s.RawLive ∧ x.answered s := ⟨⟨⟨rfl, rfl⟩, rfl⟩, answered_hears _ (frame_whole _)⟩
/-- The last index inside the frame, and the first outside; live, and after an error. -/
theorem witness_BbExtractBits :
    let s := live p0
    let f := { closed p0 with err := .protocolViolation 0 158 }
    (s.err = .none → s.chan = .opened) ∧ s.params.backend = .raw
    ∧ (f.err = .none → f.chan = .opened) ∧ f.params.backend = .raw
    ∧ (∀ k, k < 1 → 2 * (0 + k) + 1 + s.params.rxLag < ([0x10, 0x15] : List Byte).length)
    ∧ ∃ k, k < 1 ∧ ([0x10] : List Byte).length ≤ 2 * (0 + k) + 1 + s.params.rxLag := by
  refine ⟨fun _ => rfl, rfl, nofun, rfl, by decide, 0, by decide, by decide⟩
/-- A byte too few taken, a failed write, a failed read, a byte too few returned. -/
theorem witness_TransferFailureAborts :
    let bytes : List Byte := [0x18, 0x19]
    let handed := fun (s : State) => ({ s with
      tx := s.tx ++ bytes.map .byte, lines := linesAfter s.params s.lines bytes, env := s.env.afterWrite } : State)
    let s1 := answering p0 [.accepted 1] [] []
    let s2 := answering p0 [.failed] [] []
    let s3 := answering p0 [.accepted 2] [.failed] []
    let s4 := answering p0 [.accepted 2] [.returned [0]] []
    bytes ≠ [] ∧ s1.RawLive ∧ s1.writeAnswer bytes = .accepted 1 ∧ 1 ≠ bytes.length
    ∧ s2.RawLive ∧ s2.writeAnswer bytes = .failed
    ∧ s3.RawLive ∧ s3.writeAnswer bytes = .accepted bytes.length ∧ (handed s3).readAnswer bytes.length = .failed
    ∧ s4.RawLive ∧ s4.writeAnswer bytes = .accepted bytes.length
    ∧ (handed s4).readAnswer bytes.length = .returned [0] ∧ ([0] : List Byte).length ≠ bytes.length := by decide
/-- Each question the transport leaves without an answer. -/
theorem witness_SilentTransportSticks :
    let bytes : List Byte := [0x18]
    let w := answering p0 [.silent] [] []
    let r := answering p0 [.accepted 1] [.silent] []
    let e := answering engineParams [] [] [.silent]
    let g := answering engineParams [] [] [.done [], .silent]
    let o := { closed engineParams with env := ⟨[], [], [.silent], 0⟩ }
    (w.RawLive ∧ bytes ≠ [] ∧ w.writeAnswer bytes = .silent)
    ∧ (r.RawLive ∧ r.writeAnswer bytes = .accepted bytes.length
      ∧ State.readAnswer { r with tx := r.tx ++ bytes.map .byte, env := r.env.afterWrite } bytes.length = .silent)
    ∧ (e.EngineLive ∧ e.tap = .runTestIdle ∧ [true] ≠ [] ∧ e.tap ≠ .unknown
      ∧ (true = true ∨ false = true) ∧ (true = true → e.params.hasRst = true) ∧ ¬ (1 ≤ 1 ∧ 1 ≤ 2 ∧ 2 ≤ 1)
      ∧ (ones 4 []).length = e.params.irLen
      ∧ ∀ c, e.engineAnswer c = .silent)
    ∧ (g.EngineLive ∧ (Exchange.call .resetTAP []).answered g
      ∧ ((Exchange.call .resetTAP []).after g).engineAnswer .goIdle = .silent)
    ∧ (o.err = .none ∧ o.chan = .closed ∧ o.params.backend = .engine ∧ ∀ c, o.engineAnswer c = .silent) :=
  ⟨by decide, by decide,
    ⟨⟨⟨rfl, rfl⟩, rfl⟩, rfl, nofun, nofun, .inl rfl, fun _ => rfl, by decide, by decide, fun _ => rfl⟩,
    ⟨⟨⟨rfl, rfl⟩, rfl⟩, rfl, rfl⟩, rfl, rfl, rfl, fun _ => rfl⟩
/-- A call that fails with a release that fails too, the second call of TAP_RESET, a reply one bit short, and OPEN's
call from a closed channel. -/
theorem witness_EngineFailureAborts :
    let called := fun (s : State) (c : EngineCall) => ({ s with tx := s.tx ++ [.call c], env := s.env.afterEngine } : State)
    let s := { answering engineParams [] [] [.failed, .failed] with curSel := some (.r1, .configuration) }
    let g := answering engineParams [] [] [.done [], .failed, .failed]
    let t := answering engineParams [] [] [.done [], .done []]
    let o := { closed engineParams with env := ⟨[], [], [.failed], 0⟩ }
    engineParams.wf = true
    ∧ (s.err = .none ∧ s.params.backend = .engine ∧ s.params = engineParams ∧ s.chan = .opened ∧ s.tap = .runTestIdle
      ∧ [true] ≠ [] ∧ s.tap ≠ .unknown ∧ (true = true ∨ false = true) ∧ (true = true → s.params.hasRst = true)
      ∧ 1 ≤ 1 ∧ s.curSel = some (.r1, .configuration) ∧ (ones 27 []).length = selLength .configuration
      ∧ ∀ c, s.engineAnswer c = .failed ∧ closeHeard (called s c))
    ∧ (g.err = .none ∧ g.params.backend = .engine ∧ g.chan = .opened ∧ (Exchange.call .resetTAP []).answered g
      ∧ ((Exchange.call .resetTAP []).after g).engineAnswer .goIdle = .failed
      ∧ closeHeard (called ((Exchange.call .resetTAP []).after g) .goIdle))
    ∧ (t.err = .none ∧ t.params.backend = .engine ∧ t.chan = .opened ∧ t.tap = .runTestIdle
      ∧ t.engineAnswer (.writeDataRegister [true]) = .done [] ∧ ([] : Bits).length ≠ [true].length
      ∧ closeHeard { called t (.writeDataRegister [true]) with rx := t.rx ++ [.bits []] })
    ∧ (o.err = .none ∧ o.params.backend = .engine ∧ o.chan = .closed ∧ o.engineAnswer (.configure []) = .failed
      ∧ closeHeard (called o (.configure []))) :=
  ⟨by decide,
    ⟨rfl, rfl, rfl, rfl, rfl, nofun, nofun, .inl rfl, fun _ => rfl, by decide, rfl, by decide,
      fun _ => ⟨rfl, fun _ _ => nofun⟩⟩,
    ⟨rfl, rfl, rfl, rfl, rfl, fun _ _ => nofun⟩,
    ⟨rfl, rfl, rfl, rfl, rfl, nofun, fun _ _ => nofun⟩, rfl, rfl, rfl, rfl, nofun⟩

/-- At the first and the last position, on both backends. -/
theorem witness_SelectCompletes :
    let bypass := bypassBits p0
    let w := fun pos => (rep bypass (3 - pos) ++ opcode p0 .r1 .readback ++ rep bypass (pos - 1)).reverse
    let s := hears [irZeros p0 (w 1)] (live p0)
    let e := hears [irZeros engineParams (w 3)] (live engineParams)
    s.Live ∧ s.params.wf = true ∧ s.tap = .runTestIdle ∧ 1 ≤ 1 ∧ 1 ≤ 3 ∧ 3 ≤ 3
    ∧ (irZeros p0 (w 1)).isIr s.params (w 1) ∧ (irZeros p0 (w 1)).answered s
    ∧ e.Live ∧ e.params.wf = true ∧ e.tap = .runTestIdle
    ∧ (irZeros engineParams (w 3)).isIr e.params (w 3) ∧ (irZeros engineParams (w 3)).answered e :=
  ⟨⟨rfl, rfl⟩, by decide, rfl, by decide, by decide, by decide, irZeros_isIr .., answered_hears _ (irZeros_whole ..),
    ⟨rfl, rfl⟩, by decide, rfl, irZeros_isIr .., answered_hears _ (irZeros_whole ..)⟩
theorem witness_BypassOpcodeCompletes :
    let w := (rep (bypassBits p0) 1).reverse
    let s := hears [irZeros p0 w] (live p0)
    s.Live ∧ s.params.wf = true ∧ s.tap = .runTestIdle ∧ 1 ≤ 1 ∧ (irZeros p0 w).isIr s.params w
    ∧ (irZeros p0 w).answered s :=
  ⟨⟨rfl, rfl⟩, by decide, rfl, by decide, irZeros_isIr .., answered_hears _ (irZeros_whole ..)⟩
theorem witness_ShiftCompletes :
    let w := (rep [false] (1 - 1) ++ dropLast (ones 27 [2]) (trim .r0) ++ rep [false] (1 - 1)).reverse
    let s := hears [drZeros p0 w] { live p0 with curSel := some (.r0, .configuration) }
    s.Live ∧ s.params.wf = true ∧ s.tap = .runTestIdle ∧ 1 ≤ 1 ∧ s.curSel = some (.r0, .configuration)
    ∧ (ones 27 [2]).length = selLength .configuration ∧ (drZeros p0 w).isDr s.params w
    ∧ (drZeros p0 w).answered s :=
  ⟨⟨rfl, rfl⟩, by decide, rfl, by decide, rfl, by decide, drZeros_isDr .., answered_hears _ (drZeros_whole ..)⟩
theorem witness_ScanRefusals :
    let s := { live p0 with curSel := some (.r0, .configuration) }
    let d := { s with tap := .shiftDR }
    (live p0).Live ∧ (live p0).curSel = none ∧ s.Live ∧ s.curSel = some (.r0, .configuration) ∧ Blk.r0 ≠ .r1
    ∧ (ones 26 []).length ≠ selLength .configuration ∧ ({ live p0 with phase := .shiftData } : State).Live
    ∧ ({ live p0 with phase := .shiftData } : State).phase ≠ .idle
    ∧ s.phase = .idle ∧ s.tap = .runTestIdle ∧ d.Live ∧ d.tap ≠ .runTestIdle ∧ d.curSel = some (.r0, .configuration)
    ∧ (ones 27 []).length = selLength .configuration ∧ d.phase = .idle := by decide
theorem witness_TransactCompletes : ∀ p ∈ [p0, engineParams], ∃ xs,
    let s := hears xs (live p)
    s.Live ∧ s.params.wf = true ∧ s.phase = .idle ∧ s.tap = .runTestIdle ∧ 1 ≤ 3 ∧ 3 ≤ 3
    ∧ (ones 27 []).length = selLength .configuration
    ∧ areTransact s.params .r0 .configuration (ones 27 []) 3 3 xs ∧ Answers s xs := by
  intro p hp
  have hwf : p.wf = true := by revert p; decide
  obtain ⟨xs, h, w⟩ := some_transact p .r0 .configuration (ones 27 []) 3 3
  exact ⟨xs, ⟨rfl, rfl⟩, hwf, rfl, rfl, by decide, by decide, by decide, h, answers_hears _ w⟩
/-- A failed write, a byte too few taken, a failed read, no byte returned; a failed call, and a reply without bits. -/
theorem witness_TransactStepTwoFails :
    let x := fun p => irZeros p (irFrameWire p (opcode p .r1 .configuration) 1 1)
    let w := drFrameWire (ones 27 []) .r1 1 1
    let bytes := expandCycles p0 (shiftCycles [true, false, false] w)
    let s := fun p a b c => ({ live p with
      env := ⟨writesOf [x p] ++ a, readsOf [x p] ++ b, engineOf [x p] ++ c, 0⟩ } : State)
    let t := fun p (s : State) => ({ (x p).after s with
      phase := .shiftData, curSel := some (.r1, .configuration), lines := idleLines s } : State)
    let handed := fun (t : State) => ({ t with tx := t.tx ++ bytes.map .byte, env := t.env.afterWrite } : State)
    let called := fun (t : State) =>
      ({ t with tx := t.tx ++ [.call (.writeDataRegister w)], env := t.env.afterEngine } : State)
    let full := WriteAnswer.accepted bytes.length
    (∀ p ∈ [p0, engineParams], ∀ a b c, (s p a b c).Live ∧ (s p a b c).params.wf = true ∧ (s p a b c).phase = .idle
      ∧ (s p a b c).tap = .runTestIdle
      ∧ (x p).isIr (s p a b c).params
          (irFrameWire (s p a b c).params (opcode (s p a b c).params .r1 .configuration) 1 1))
    ∧ (∀ a b c, (x p0).answered (s p0 a b c) ∧ (x engineParams).answered (s engineParams a b c))
    ∧ 1 ≤ 1 ∧ (ones 27 []).length = selLength .configuration ∧ p0.backend = .raw ∧ engineParams.backend = .engine
    ∧ (t p0 (s p0 [.failed] [] [])).writeAnswer bytes = .failed
    ∧ (t p0 (s p0 [.accepted 0] [] [])).writeAnswer bytes = .accepted 0 ∧ 0 ≠ bytes.length
    ∧ (t p0 (s p0 [full] [.failed] [])).writeAnswer bytes = full
    ∧ (handed (t p0 (s p0 [full] [.failed] []))).readAnswer bytes.length = .failed
    ∧ (t p0 (s p0 [full] [.returned []] [])).writeAnswer bytes = full
    ∧ (handed (t p0 (s p0 [full] [.returned []] []))).readAnswer bytes.length = .returned []
    ∧ ([] : List Byte).length ≠ bytes.length
    ∧ (t engineParams (s engineParams [] [] [.failed, .failed])).engineAnswer (.writeDataRegister w) = .failed
    ∧ closeHeard (called (t engineParams (s engineParams [] [] [.failed, .failed])))
    ∧ (t engineParams (s engineParams [] [] [.done [], .failed])).engineAnswer (.writeDataRegister w) = .done []
    ∧ ([] : Bits).length ≠ w.length
    ∧ closeHeard { called (t engineParams (s engineParams [] [] [.done [], .failed])) with rx := [.bits []] } := by
  have hb : 0 ≠ (expandCycles p0 (shiftCycles [true, false, false] (drFrameWire (ones 27 []) .r1 1 1))).length := by
    decide +kernel
  have hwf : ∀ p ∈ [p0, engineParams], p.wf = true := by decide
  exact ⟨fun p hp _ _ _ => ⟨⟨rfl, rfl⟩, hwf p hp, rfl, rfl, irZeros_isIr ..⟩,
    fun _ _ _ => ⟨⟨rfl, List.length_replicate .., rfl⟩, rfl⟩, by decide, by decide, rfl, rfl, rfl, rfl, hb, rfl, rfl, rfl,
    rfl, hb, rfl, fun _ _ => nofun, rfl, by decide, fun _ _ => nofun⟩

/-- The shortest reply that is long enough, the longest that is not, positions just outside. -/
theorem witness_ParseReplyCounters :
    (closed p0).err = .none ∧ closeHeard (closed p0) ∧ (3 < 1 ∨ 0 < 1 ∨ 3 < 0) ∧ ¬ (3 < 1 ∨ 1 < 1 ∨ 3 < 1)
    ∧ (ones 161 []).reverse.length < (3 - 1) + replyDrop (closed p0).params .r0 + 158
    ∧ ¬ (ones 162 []).reverse.length < (3 - 1) + replyDrop (closed p0).params .r0 + 158 :=
  ⟨rfl, closeHeard_closed _, by decide, by decide, by decide +kernel, by decide +kernel⟩
theorem witness_ReplyWindows :
    (closed p0).err = .none ∧ (ones 157 []).length < 158 ∧ ¬ (ones 158 []).length < 158 :=
  ⟨rfl, by decide +kernel, by decide +kernel⟩
/-- Every counter at its largest, in the shortest reply. -/
theorem witness_SyntheticReply :
    (closed p0).err = .none ∧ 1 ≤ 1 ∧ (∀ _ : Fin 4, 4095 ≤ 4095)
    ∧ (1 - 1) + replyDrop (closed p0).params .r0 + 158 ≤ (List.replicate 160 true).length
    ∧ ∀ (i : Fin 4) (j : Nat), j < 12 →
        (List.replicate 160 true)[(1 - 1) + replyDrop (closed p0).params .r0 + 2 + 48 * i.val + j]?
          = some (Nat.testBit 4095 j) := by
  refine ⟨rfl, by decide, by decide, by decide +kernel, ?_⟩
  decide +kernel

theorem witness_ConfigureBlockCompletes : ∀ p ∈ [p0, engineParams], ∃ v3 xs,
    let s := hears xs (live p)
    let w := [true, false, false, true, false]
    s.Live ∧ s.params.wf = true ∧ s.phase = .idle ∧ s.tap = .runTestIdle ∧ 1 ≤ 1 ∧ 1 ≤ 2
    ∧ encodeCore s.params p0.coreParams = .ok v3
    ∧ areConfigure s.params .r1 (List.replicate 27 false)
      ([false, false, true] ++ w ++ w ++ w ++ w ++ [true, false, false, false]) v3 1 2 xs ∧ Answers s xs := by
  intro p hp
  have he : (encodeCore p p0.coreParams).toOption.isSome = true := by revert p; decide +kernel
  have hwf : p.wf = true := by clear he; revert p; decide
  obtain ⟨v3, e3⟩ := ok_of_isSome he
  obtain ⟨xs, h, w⟩ := some_configure p .r1 (List.replicate 27 false) _ v3 1 2
  exact ⟨v3, xs, ⟨rfl, rfl⟩, hwf, rfl, rfl, by decide, by decide, e3, h, answers_hears _ w⟩
/-- No bit-select at all, one, and one more than there are (they alias, R132), on both backends. -/
theorem witness_SweepBlockCompletes : ∀ p ∈ [p0, engineParams], ∀ count ∈ [0, 1, 33], ∃ xs ss,
    let s := hears xs (live p)
    s.Live ∧ s.params.wf = true ∧ s.tap = .runTestIdle ∧ 1 ≤ 1
    ∧ namesOnly (fieldKeys charLayout) s.params.diagTemplate = true ∧ repliesFit s.params .r0 1 1
    ∧ areSweepBlock s.params .r0 count 1 1 xs ss ∧ Answers s xs := by
  intro p hp count _
  obtain ⟨xs, ss, h, w⟩ := some_sweepBlock p .r0 count 1 1
  have hall : p.wf = true ∧ namesOnly (fieldKeys charLayout) p.diagTemplate = true
      ∧ replyLead p .r0 1 1 + windowsEnd ≤ 1 - 1 + selLength .readback - trim .r0 := by
    clear h w
    revert p
    decide
  exact ⟨xs, ss, ⟨rfl, rfl⟩, hall.1, rfl, by decide, hall.2.1, hall.2.2, h, answers_hears _ w⟩
/-- A chain whose replies are too short: on both backends, at the first read. -/
theorem witness_SweepBlockCompletes_short : ∀ p ∈ [p0, engineParams],
    let q := { p with replyDropR0 := 37 }
    let x := irZeros q (irFrameWire q (opcode q .r0 .readback) 1 1)
    let y := drZeros q (drFrameWire (diagImage q 31 0 0) .r0 1 1)
    let z := drZeros q (drFrameWire (diagImage q 31 0 15) .r0 1 1)
    let s := hears [x, y, z, .call .close []] (live q)
    s.Live ∧ s.params = q ∧ q.wf = true ∧ s.tap = .runTestIdle ∧ 1 ≤ 1
    ∧ namesOnly (fieldKeys charLayout) s.params.diagTemplate = true ∧ ¬ repliesFit s.params .r0 1 1
    ∧ x.isIr q (irFrameWire q (opcode q .r0 .readback) 1 1)
    ∧ y.isDr q (drFrameWire (diagImage q 31 0 0) .r0 1 1) ∧ z.isDr q (drFrameWire (diagImage q 31 0 15) .r0 1 1)
    ∧ Answers s [x, y, z]
    ∧ closeHeard { afterAll s [x, y, z] with curSel := some (.r0, .readback), lines := idleLines s } := by
  intro p hp
  have hall : ({ p with replyDropR0 := 37 } : Params).wf = true
      ∧ namesOnly (fieldKeys charLayout) p.diagTemplate = true
      ∧ ¬ replyLead { p with replyDropR0 := 37 } .r0 1 1 + windowsEnd ≤ 1 - 1 + selLength .readback - trim .r0 := by
    revert p
    decide
  intro q x y z s
  have ha := (answers_append s [x, y, z] [.call .close []]).1 (answers_hears (live q) (by
    simp only [List.mem_cons, List.not_mem_nil, or_false]
    rintro x (rfl | rfl | rfl | rfl)
    · exact irZeros_whole ..
    · exact drZeros_whole ..
    · exact drZeros_whole ..
    · trivial))
  refine ⟨⟨rfl, rfl⟩, rfl, hall.1, rfl, by decide, hall.2.1, hall.2.2, irZeros_isIr .., drZeros_isDr .., drZeros_isDr ..,
    ha.1, fun _ _ hs => ?_⟩
  have hd : (afterAll s [x, y, z]).engineAnswer .close = .done [] := ha.2.1
  exact absurd (hd.symm.trans hs) nofun
/-- Lane numbers ready, on both backends, and a test-pattern field; on ENGINE with a `close` that goes well. -/
theorem witness_SweepCompletes : ∀ p ∈ [p0, engineParams, laneParams], ∃ fs xs ss,
    let s := hears (xs ++ [.call .close []]) (closed p)
    let q : SweepParams := ⟨1, 1, 1, 0, []⟩
    s.err = .none ∧ s.chan = .closed ∧ s.params.wf = true ∧ 1 ≤ q.pos ∧ q.pos ≤ q.n
    ∧ isCoreParams s.params q.testPattern fs
    ∧ namesOnly (fieldKeys charLayout) s.params.diagTemplate = true
    ∧ (∀ blk, repliesFit s.params blk q.pos q.n)
    ∧ areSweep s.params fs q xs ss ∧ Answers s xs
    ∧ closeHeard { afterAll s xs with
        tap := .runTestIdle, phase := .idle, chan := .opened, lines := idleLines s, sink := s.sink ++ ss,
        curSel := some (.r1, if q.bitNumber = 0 then .coreInputs else .readback) } := by
  intro p hp
  have hall : p.wf = true ∧ namesOnly (fieldKeys charLayout) p.diagTemplate = true
      ∧ (∀ blk ∈ [Blk.r0, .r1],
        replyLead p blk 1 1 + windowsEnd ≤ 1 - 1 + selLength .readback - trim blk) := by
    revert p
    decide
  have hfs : ∃ fs, isCoreParams p 0 fs ∧ (encodeCore p fs).toOption.isSome = true := by
    simp only [List.mem_cons, List.not_mem_nil, or_false] at hp
    rcases hp with rfl | rfl | rfl
    · exact ⟨_, ⟨_, List.mem_cons_self .., rfl⟩, by decide +kernel⟩
    · exact ⟨_, ⟨_, List.mem_cons_self .., rfl⟩, by decide +kernel⟩
    · exact ⟨_, ⟨_, List.mem_cons_self .., rfl⟩, by decide +kernel⟩
  obtain ⟨fs, hf, he⟩ := hfs
  obtain ⟨xs, ss, h, w⟩ := some_sweep p fs ⟨1, 1, 1, 0, []⟩ he
  have ha := (answers_append _ _ _).1 (answers_hears (xs := xs ++ [.call .close []]) (closed p) (by
    simp only [List.mem_append, List.mem_singleton]
    rintro x (hx | rfl)
    · exact w x hx
    · trivial))
  refine ⟨fs, xs, ss, rfl, rfl, hall.1, by decide, by decide, hf, hall.2.1,
    fun blk => hall.2.2 blk (by cases blk <;> decide), h, ha.1, fun _ _ hs => ?_⟩
  have hd : (afterAll (hears (xs ++ [.call .close []]) (closed p)) xs).engineAnswer .close = .done [] := ha.2.1
  exact absurd (hd.symm.trans hs) nofun
/-- Each form of a failing validation; the channel closed, open on RAW, and open on ENGINE with a `close` that fails. -/
theorem witness_SweepValidatesFirst :
    let e := answering engineParams [] [] [.failed]
    (closed p0).err = .none ∧ (closed p0).chan = .closed
    ∧ (live p0).err = .none ∧ (live p0).chan = .opened ∧ (live p0).params.backend = .raw
    ∧ 1 ∉ (live p0).params.testPatterns.numbers
    ∧ e.err = .none ∧ e.chan = .opened ∧ e.params.backend = .engine ∧ e.engineAnswer .close ≠ .silent
    ∧ 1 ∉ e.params.testPatterns.numbers
    ∧ ¬ (1 ≤ 1 ∧ 1 ≤ 2 ∧ 2 ≤ 1) ∧ ¬ (1 ≤ 1 ∧ 1 ≤ 0 ∧ 0 ≤ 1) ∧ ¬ (1 ≤ 0 ∧ 1 ≤ 1 ∧ 1 ≤ 0) ∧ (1 ≤ 1 ∧ 1 ≤ 1 ∧ 1 ≤ 1)
    ∧ 1 ∉ (closed p0).params.testPatterns.numbers := by decide

/-- A consistent state with a sample in its sink and a command in its queue, without an error and with one. -/
def queued (e : Err) : State :=
  { closed p0 with err := e, sink := [⟨7, 0, -32, -16, 4095⟩], inbox := [0x39] }

theorem witness_SinkInRange :
    (nextOf (step (queued .none))).isSome = true ∧ (nextOf (exec .closeChannel (queued .none))).isSome = true
    ∧ ∀ x ∈ (queued .none).sink, x.inRange := by
  refine ⟨by decide, by decide, fun x hx => ?_⟩
  simp only [queued, List.mem_singleton] at hx
  subst hx
  unfold SweepSample.inRange
  decide
theorem witness_HistoriesGrow : (nextOf (step (queued .none))).isSome = true := by decide
theorem witness_ConsistentKept : (queued .none).Consistent ∧ (nextOf (step (queued .none))).isSome = true := by decide
theorem witness_LatchSticky :
    (queued (.protocolViolation 0 158)).Consistent ∧ (queued (.protocolViolation 0 158)).err ≠ .none
    ∧ (nextOf (step (queued (.protocolViolation 0 158)))).isSome = true := by decide
theorem witness_AbortReleases :
    (live p0).Consistent ∧ (live p0).err = .none
    ∧ ((nextOf (exec (.select .r0 .readback 2 1) (live p0))).map State.err)
      = some (.configurationError (.position 2 1)) := by decide
theorem witness_BackendEquivalence :
    let w := [true, false]
    let s := fun x => hears [x] (live p0)
    let e := fun x => hears [x] (live engineParams)
    (∀ x, (s x).RawLive ∧ (s x).params.wf = true ∧ (s x).tap = .runTestIdle) ∧ w ≠ []
    ∧ (∀ x y, (e y).EngineLive ∧ (e y).tap = .runTestIdle
        ∧ (e y).params = { (s x).params with backend := .engine })
    ∧ (irZeros p0 w).isIr p0 w ∧ (irZeros p0 w).answered (s (irZeros p0 w))
    ∧ (irZeros engineParams w).isIr engineParams w ∧ (irZeros engineParams w).answered (e (irZeros engineParams w))
    ∧ (drZeros p0 w).isDr p0 w ∧ (drZeros p0 w).answered (s (drZeros p0 w))
    ∧ (drZeros engineParams w).isDr engineParams w
    ∧ (drZeros engineParams w).answered (e (drZeros engineParams w)) := by
  have hwf : p0.wf = true := by decide
  exact ⟨fun _ => ⟨⟨⟨rfl, rfl⟩, rfl⟩, hwf, rfl⟩, nofun, fun _ _ => ⟨⟨⟨rfl, rfl⟩, rfl⟩, rfl, rfl⟩,
    irZeros_isIr .., answered_hears _ (irZeros_whole ..), irZeros_isIr .., answered_hears _ (irZeros_whole ..),
    drZeros_isDr .., answered_hears _ (drZeros_whole ..), drZeros_isDr .., answered_hears _ (drZeros_whole ..)⟩

end Sys2Proof.Tests
end

