-- ==== Sys2Proof/Proofs/Scope.lean ====
section
/-! PROOFS. What a step does with the host's queue (R2, R9, R70). -/

namespace Sys2Proof.Machine

/-- The master waits when nothing is queued. -/
theorem step_of_inbox_nil {s : State} (h : s.inbox = []) : step s = .next s := by
  simp only [step, h]

/-- Bytes that decode are not the empty queue. -/
theorem ne_nil_of_decode_ok {bs rest : List Byte} {i : Instr} (h : decode bs = .ok (i, rest)) : bs ≠ [] := by
  rintro rfl
  simp [decode] at h

/-- With bytes queued, the step is decided by what they decode to. -/
theorem step_of_decode_ok {s : State} {i : Instr} {rest : List Byte} (h : decode s.inbox = .ok (i, rest)) :
    step s = if i.wellFormed then exec i (s.setInbox rest) else .refused .illFormed := by
  obtain ⟨b, bs, hq⟩ := List.exists_cons_of_ne_nil (ne_nil_of_decode_ok h)
  rw [hq] at h
  simp only [step, hq, h]

/-- Settles O3: the queue that decodes is not empty, so the step is the decoded command's, and that one is well
formed. -/
theorem stepRunsDecoded : Obligations.StepRunsDecoded := by
  refine ⟨fun s i rest hdec hwf => ?_, fun s hempty => step_of_inbox_nil hempty⟩
  rw [step_of_decode_ok hdec, if_pos hwf]
  rfl

end Sys2Proof.Machine
end

/-! PROOFS. What a command leaves of the state: what only grows, what holds between commands, and what an error freezes
(R20 to R28, R45, R340 to R342). -/

namespace Sys2Proof.Machine

/-! ### The reset state -/

/-- Whatever `Config.rawParams` is, the parameters in use are legal: an illegal set is replaced (log entries 6, 31). -/
theorem params_wf : Config.params.wf = true := by
  unfold Config.params
  split
  · assumption
  · decide

theorem reset_consistent : State.reset.Consistent :=
  ⟨fun _ => ⟨reset_tap, reset_curSel⟩, fun h => absurd reset_err h, fun _ => reset_phase, fun _ => reset_curSel⟩

/-- Settles O57: the fields are written out at reset; legal parameters and consistency are the two lemmas above. -/
theorem resetState : Obligations.ResetState :=
  ⟨reset_tap, reset_phase, rfl, reset_err, reset_chan, reset_curSel, reset_tx, reset_rx, params_wf, reset_consistent,
    nofun⟩

/-! ### What a step can be, and what a command delivers -/

/-- A step that goes on waits with nothing queued, or runs the well-formed command at the front of the queue. -/
theorem step_next {s t : State} (h : step s = .next t) :
    t = s ∨ ∃ i rest, decode s.inbox = .ok (i, rest) ∧ i.wellFormed = true ∧ exec i (s.setInbox rest) = .next t := by
  by_cases hq : s.inbox = []
  · rw [step_of_inbox_nil hq] at h
    exact .inl (Host.Outcome.next.inj h).symm
  · cases hd : decode s.inbox with
    | error e =>
      obtain ⟨b, bs, hb⟩ := List.exists_cons_of_ne_nil hq
      rw [hb] at hd
      simp [step, hb, hd] at h
    | ok v =>
      obtain ⟨i, rest⟩ := v
      rw [step_of_decode_ok hd] at h
      split at h
      next hw => exact .inr ⟨i, rest, rfl, hw, h⟩
      next => cases h

/-- A next state of this outcome is one of `P` with some result set, or one of `Q`, an abort's, with none. -/
def Delivers (P Q : State → Prop) (o : Host.Outcome State Fault Refusal) : Prop :=
  ∀ t, o = .next t → (∃ u x, t = u.setResult x ∧ P u) ∨ (∃ u, t = u.setResult .none ∧ Q u)

theorem delivers_deliver {α : Type} {r : Res α} {f : α → Result} {P Q : State → Prop} (h : r.sat (fun _ => P) Q) :
    Delivers P Q (r.deliver f) := fun t ht => by
  obtain ⟨a, u, rfl, rfl⟩ | ⟨u, rfl, rfl⟩ := deliver_next ht
  · exact .inl ⟨u, f a, rfl, h⟩
  · exact .inr ⟨u, rfl, h⟩

/-! ### Commands that answer no next state, or leave the state alone -/

/-- No next state: the answer is a refusal or a wait. -/
def Refuses {α : Type} (r : Res α) : Prop := r.sat (fun _ _ => False) (fun _ => False)

/-- A value leaves the state as it was, and nothing aborts. -/
def Unmoved {α : Type} (s : State) (r : Res α) : Prop := r.sat (fun _ t => t = s) (fun _ => False)

theorem Refuses.bind {α β : Type} {r : Res α} (h : Refuses r) (f : α → State → Res β) : Refuses (r.bind f) :=
  sat_bind h (fun _ h => h) fun _ _ h => h.elim

theorem Refuses.unmoved {α : Type} {s : State} {r : Res α} (h : Refuses r) : Unmoved s r :=
  sat_mono h (fun _ _ h => h.elim) (fun _ h => h)

theorem accept_notLive_refuses {α : Type} {s : State} (h : ¬ s.Live) (k : Res α) : Refuses (accept s.notLive k) :=
  sat_accept_live fun hl => absurd hl h

theorem unmoved_ok {α : Type} (a : α) (s : State) : Unmoved s (Res.ok a s) := rfl

theorem unmoved_ite {α : Type} (c : Prop) [Decidable c] (x : Refusal) (a : α) (s : State) :
    Unmoved s (if c then .refused x else .ok a s) := by
  split
  · trivial
  · exact unmoved_ok a s

theorem ofExcept_unmoved {α : Type} (x : Except Refusal α) (s : State) : Unmoved s (ofExcept x s) := by
  cases x with
  | ok a => exact unmoved_ok a s
  | error r => trivial

theorem forEach_unmoved {α : Type} {f : α → State → Res Unit} {s : State} (hf : ∀ a, Unmoved s (f a s)) (xs : List α) :
    Unmoved s (forEach f xs s) := by
  induction xs with
  | nil => exact unmoved_ok () s
  | cons x xs ih => exact sat_bind (hf x) (fun _ h => h) fun _ t ht => ht ▸ ih

/-- The next states of a pure command: the old one, with a result. -/
def Stays (s : State) (o : Host.Outcome State Fault Refusal) : Prop := Delivers (fun u => u = s) (fun _ => False) o

theorem Unmoved.stays {α : Type} {s : State} {r : Res α} {f : α → Result} (h : Unmoved s r) : Stays s (r.deliver f) :=
  delivers_deliver h

theorem execBbExpand_stays (cycles : List (Bool × Bool)) (s : State) : Stays s (execBbExpand cycles s) :=
  Unmoved.stays (sat_accept fun _ => unmoved_ite _ _ _ s)

theorem execBbExtract_stays (rd : List Byte) (first count : Nat) (s : State) :
    Stays s (execBbExtract rd first count s) := by
  refine Unmoved.stays (sat_accept fun _ => ?_)
  split
  · trivial
  · exact unmoved_ok _ s

theorem execReplyFormat_stays (a : Bits) (s : State) : Stays s (execReplyFormat a s) :=
  Unmoved.stays (sat_accept fun _ => unmoved_ite _ _ _ s)

/-! ### The histories, the sink and the parameters -/

theorem Delivers.mono {P P' Q Q' : State → Prop} {o : Host.Outcome State Fault Refusal} (h : Delivers P Q o)
    (hp : ∀ u, P u → P' u) (hq : ∀ u, Q u → Q' u) : Delivers P' Q' o := fun t ht => by
  obtain ⟨u, x, rfl, hu⟩ | ⟨u, rfl, hu⟩ := h t ht
  · exact .inl ⟨u, x, rfl, hp u hu⟩
  · exact .inr ⟨u, rfl, hq u hu⟩

/-- The state a command ends in, but for its result, has only emitted. -/
def DeliversEmits (k : Nat) (s : State) (o : Host.Outcome State Fault Refusal) : Prop :=
  Delivers (Emits k s) (Emits k s) o

theorem Stays.emits {k : Nat} {s : State} {o : Host.Outcome State Fault Refusal} (h : Stays s o) :
    DeliversEmits k s o := h.mono (by rintro _ rfl; exact Emits.refl _) (fun _ hu => hu.elim)

theorem Emitting.delivers {α : Type} {k : Nat} {s : State} {r : Res α} {f : α → Result} (h : Emitting k s r) :
    DeliversEmits k s (r.deliver f) := delivers_deliver h

theorem parseReply_emitting {k : Nat} (reply : Bits) (blk : Blk) (pos n : Nat) (s : State) :
    Emitting k s (parseReply reply blk pos n s) :=
  sat_mono (parseReply_sat reply blk pos n s) (by rintro _ _ ⟨rfl, _⟩; exact Emits.refl _) (fun _ h => h)

theorem samplesResult_emitting {k before : Nat} {s : State} {r : Res Unit} (h : Emitting k s r) :
    Emitting k s (samplesResult before r) := h.bind fun _ t => Emits.refl t

/-- No command takes a history, the sink or the parameters back, from any state (R27, R28, R319). -/
theorem exec_emits (i : Instr) (s : State) : DeliversEmits (bitNumberOf i) s (exec i s) := by
  cases i with
  | encCfg fields => exact (ofExcept_unmoved _ s).stays.emits
  | encCore fields => exact (ofExcept_unmoved _ s).stays.emits
  | encChar fields => exact (ofExcept_unmoved _ s).stays.emits
  | decCfg v => exact (ofExcept_unmoved _ s).stays.emits
  | decCore v => exact (ofExcept_unmoved _ s).stays.emits
  | decChar v => exact (ofExcept_unmoved _ s).stays.emits
  | toWire v => exact (unmoved_ok _ s).stays.emits
  | padIr opcode pos n => exact (padIr_emitting opcode pos n s).accept.delivers
  | padDr v blk pos n => exact (padDr_emitting v blk pos n s).accept.delivers
  | tckCycle tms tdi => exact (runCycles_emitting _ _ s).accept.delivers
  | tmsWalk seq => exact (walk_emitting _ seq s).accept.delivers
  | tapReset => exact (tapReset_emitting _ s).delivers
  | goIdle => exact (goIdle_emitting _ s).delivers
  | changeState name => exact (changeState_emitting _ name s).delivers
  | writeIr w => exact (writeIr_emitting _ w s).delivers
  | writeDr w => exact (writeDr_emitting _ w s).delivers
  | hwReset hw tapr => exact (hwReset_emitting _ hw tapr s).delivers
  | openChannel connection => exact (openTransport_emitting _ connection s).delivers
  | closeChannel => exact (closeTransport_emitting s).delivers
  | bbExpand cycles => exact (execBbExpand_stays cycles s).emits
  | bbXfer bytes =>
    refine Emitting.delivers (Emitting.accept ?_)
    split
    · trivial
    · exact bbXfer_emitting _ bytes s
  | bbExtract rd first count => exact (execBbExtract_stays rd first count s).emits
  | select blk sel pos n => exact (select_emitting _ blk sel pos n s).delivers
  | shift blk v pos n => exact (shift_emitting _ blk v pos n s).delivers
  | transact blk sel v pos n => exact (transact_emitting _ blk sel v pos n s).delivers
  | parseReply reply blk pos n => exact (parseReply_emitting reply blk pos n s).delivers
  | configureBlock blk coreParams pos n => exact (configureBlock_emitting blk coreParams pos n s).delivers
  | sweepBlock blk bitNumber pos n =>
    exact (samplesResult_emitting (sweepBlock_emitting blk bitNumber pos n s).accept).delivers
  | sweep p => exact (samplesResult_emitting (sweep_emitting p s)).delivers
  | sample r m o ti c => exact (unmoved_ok _ s).stays.emits
  | irFrame opcode pos n => exact (padIr_emitting opcode pos n s).accept.delivers
  | drFrame v blk pos n => exact (padDr_emitting v blk pos n s).accept.delivers
  | cfgImage image => exact (unmoved_ok _ s).stays.emits
  | coreImage image => exact (unmoved_ok _ s).stays.emits
  | charImage image => exact (unmoved_ok _ s).stays.emits
  | replyFormat a => exact (execReplyFormat_stays a s).emits
  | bypassOpcode pos n => exact (writeOpcode_emitting _ _ none pos n s).delivers
  | opcR0Configuration pos n => exact (select_emitting _ _ _ pos n s).delivers
  | opcR0CoreInputs pos n => exact (select_emitting _ _ _ pos n s).delivers
  | opcR0Readback pos n => exact (select_emitting _ _ _ pos n s).delivers
  | opcR1Configuration pos n => exact (select_emitting _ _ _ pos n s).delivers
  | opcR1CoreInputs pos n => exact (select_emitting _ _ _ pos n s).delivers
  | opcR1Readback pos n => exact (select_emitting _ _ _ pos n s).delivers

/-- Settles O55: a step waits, or ends where its command does, which has only emitted. -/
theorem historiesGrow : Obligations.HistoriesGrow := by
  intro s t h
  obtain rfl | ⟨i, rest, -, -, hx⟩ := step_next h
  · exact ⟨List.prefix_refl _, List.prefix_refl _, List.prefix_refl _, rfl⟩
  · obtain ⟨u, x, rfl, hu⟩ | ⟨u, rfl, hu⟩ := exec_emits i (s.setInbox rest) t hx <;>
      exact ⟨hu.grows.tx, hu.grows.rx, hu.grows.sink, hu.grows.params⟩

/-! ### What holds between commands -/

/-- Where a command that answers a value ends: consistent, the latch as it was, and nothing moved if it was set. -/
structure Settled (s u : State) : Prop where
  consistent : u.Consistent
  err : u.err = s.err
  latched : s.err ≠ .none → u = s

/-- The answer of a command given between commands: a value from a settled state, or an abort, which the latch rules
out (R342), in the state of R341. -/
def Settles {α : Type} (s : State) (r : Res α) : Prop :=
  r.sat (fun _ => Settled s) (fun u => Aborted u ∧ s.err = .none)

/-- As `Settles`, of what the command delivers. -/
def DeliversSettled (s : State) (o : Host.Outcome State Fault Refusal) : Prop :=
  Delivers (Settled s) (fun u => Aborted u ∧ s.err = .none) o

theorem Settles.delivers {α : Type} {s : State} {r : Res α} {f : α → Result} (h : Settles s r) :
    DeliversSettled s (r.deliver f) := delivers_deliver h

theorem Aborted.consistent {u : State} (h : Aborted u) : u.Consistent := by
  obtain ⟨herr, hchan, htap, hsel⟩ := h
  exact ⟨fun _ => ⟨htap, hsel⟩, fun _ => hchan, fun h => absurd h herr, fun _ => hsel⟩

theorem Running.consistent {u : State} (h : Running u) (hp : u.phase = .idle) : u.Consistent := by
  obtain ⟨⟨herr, hchan⟩, hsel⟩ := h
  exact ⟨fun hc => by simp [hchan] at hc, fun he => absurd herr he, fun _ => hp, hsel⟩

/-- A command that an error rules out, whatever the channel (R342). -/
theorem accept_latched_settles {s : State} {α : Type} {k : Res α} (h : s.err = .none → Settles s k) :
    Settles s (accept s.latched k) := sat_accept fun hn => h (none_of_latched hn)

theorem samplesResult_settles {s : State} {before : Nat} {r : Res Unit} (h : Settles s r) :
    Settles s (samplesResult before r) :=
  sat_bind h (fun _ h => h) fun _ _ h => h

/-- A cycle-level command is accepted only while live (R174, R185). -/
theorem live_of_noCycles {s : State} (h : s.noCycles = none) : s.Live := by
  refine live_of_notLive ?_
  unfold State.noCycles at h
  split at h
  · cases h
  · assumption

/-- A settled command leaves a state that is consistent whichever way it ended. -/
theorem consistent_of_settled {s t : State} {o : Host.Outcome State Fault Refusal} (h : DeliversSettled s o)
    (ht : o = .next t) : t.Consistent := by
  obtain ⟨u, x, rfl, hu⟩ | ⟨u, rfl, hu, -⟩ := h t ht
  · exact hu.consistent
  · exact hu.consistent

/-- With an error latched a settled command changes nothing but the result. -/
theorem eq_of_settled_latched {s t : State} {o : Host.Outcome State Fault Refusal} (h : DeliversSettled s o)
    (he : s.err ≠ .none) (ht : o = .next t) : t = s.setResult t.result := by
  obtain ⟨u, x, rfl, hu⟩ | ⟨u, -, -, hn⟩ := h t ht
  · rw [hu.latched he]; rfl
  · exact absurd hn he

section
variable {s : State} (hc : s.Consistent)
include hc

theorem consistent_closed (h : s.chan = .closed) : s.tap = .unknown ∧ s.curSel = none := hc.1 h

theorem consistent_chan (h : s.err ≠ .none) : s.chan = .closed := hc.2.1 h

theorem consistent_phase (h : s.err = .none) : s.phase = .idle := hc.2.2.1 h

theorem consistent_curSel (h : s.tap = .unknown ∨ s.tap = .testLogicReset) : s.curSel = none := hc.2.2.2 h

theorem settled_refl : Settled s s := ⟨hc, rfl, fun _ => rfl⟩

theorem Stays.settled {o : Host.Outcome State Fault Refusal} (h : Stays s o) : DeliversSettled s o :=
  h.mono (by rintro _ rfl; exact settled_refl hc) (fun _ hu => hu.elim)

theorem Unmoved.settles {α : Type} {r : Res α} (h : Unmoved s r) : Settles s r :=
  sat_mono h (by rintro _ _ rfl; exact settled_refl hc) (fun _ hu => hu.elim)

theorem running_of_live (hl : s.Live) : Running s := ⟨hl, consistent_curSel hc⟩

/-- A live command that runs on is settled: it began with no transaction in progress (R22). -/
theorem RunsOn.settles {α : Type} {r : Res α} (hl : s.Live) (h : RunsOn s r) : Settles s r := by
  refine sat_mono h (fun _ u ⟨hr, hp, _⟩ => ?_) (fun u ⟨ha, _⟩ => ⟨ha, hl.1⟩)
  exact ⟨hr.consistent (hp.trans (consistent_phase hc hl.1)), hr.1.1.trans hl.1.symm, fun he => absurd hl.1 he⟩

/-- A command accepted only while live (R174, R189, R343). -/
theorem accept_settles {α : Type} {no : Option Refusal} {k : Res α} (hno : no = none → s.Live)
    (h : Running s → RunsOn s (accept no k)) : Settles s (accept no k) := by
  cases no with
  | none => exact (h (running_of_live hc (hno rfl))).settles hc (hno rfl)
  | some r => trivial

theorem raise_settles {α : Type} {e : Err} (he : e ≠ .none) (hs : s.err = .none) :
    Settles s (raise e s : Res α) :=
  sat_mono (raise_sat e s he (consistent_closed hc) _) (fun _ _ h => h) (fun _ h => ⟨h.1, hs⟩)

theorem padIr_settles (op : Bits) (pos n : Nat) (hs : s.err = .none) : Settles s (padIr op pos n s) := by
  unfold padIr
  split
  · split
    · exact (unmoved_ok _ s).settles hc
    · exact raise_settles hc (by simp) hs
  · trivial

theorem padDr_settles (v : Bits) (blk : Blk) (pos n : Nat) (hs : s.err = .none) : Settles s (padDr v blk pos n s) := by
  unfold padDr
  split
  · split
    · exact (unmoved_ok _ s).settles hc
    · exact raise_settles hc (by simp) hs
  · trivial

theorem countersOf_settles (a : Bits) (length dropped : Nat) (hs : s.err = .none) :
    Settles s (countersOf a length dropped s) := by
  unfold countersOf
  split
  · exact raise_settles hc (by simp) hs
  · exact (unmoved_ok _ s).settles hc

theorem parseReply_settles (reply : Bits) (blk : Blk) (pos n : Nat) : Settles s (parseReply reply blk pos n s) := by
  refine accept_latched_settles fun hs => ?_
  split
  · exact countersOf_settles hc _ _ _ hs
  · exact raise_settles hc (by simp) hs

/-- The release (R189): of a closed channel, and so of every latched state, it changes nothing. -/
theorem closeTransport_settles : Settles s (closeTransport s) := by
  refine sat_mono (closeTransport_sat s) (fun _ u h => ?_) (fun _ h => h.elim)
  obtain ⟨-, herr, hphase, -, -, hchan, hclosed, hopened⟩ := h
  have hsame : s.chan = .closed → u = s := hclosed
  have htracked : u.tap = .unknown ∧ u.curSel = none := by
    cases hs : s.chan with
    | closed => rw [hsame hs]; exact consistent_closed hc hs
    | opened => exact hopened hs
  exact ⟨⟨fun _ => htracked, fun _ => hchan, fun h => hphase.trans (consistent_phase hc (herr.symm.trans h)),
    fun _ => htracked.2⟩, herr, fun he => hsame (consistent_chan hc he)⟩

/-- `OPEN` (R188) makes a live state with no transaction in progress, or aborts with the channel still closed. -/
theorem openTransport_sat (cmd : Command) (connection : List Byte) :
    (openTransport cmd connection s).sat (fun _ u => Running u ∧ u.phase = .idle ∧ s.err = .none)
      (fun u => Aborted u ∧ s.err = .none) := by
  refine sat_accept fun hn => ?_
  have hs := none_of_latched hn
  cases hchan : s.chan with
  | opened => trivial
  | closed =>
    refine sat_bind (P := fun _ u => u.err = .none) (Q := fun u => Aborted u ∧ s.err = .none) ?_ (fun _ h => h)
      fun _ u hu => ⟨⟨⟨hu, rfl⟩, fun _ => rfl⟩, rfl, hs⟩
    split
    · exact hs
    · refine sat_bind (engineCall_sat (.configure connection) s) (fun _ h => h.elim) fun r u hu => ?_
      obtain ⟨-, htap, -, -, herr, -, hsel, -⟩ := hu
      cases r with
      | some bits => exact herr.trans hs
      | none =>
        refine sat_mono (raise_sat _ u (by simp) (fun _ => ?_) _) (fun _ _ h => h) (fun _ h => ⟨h.1, hs⟩)
        rw [htap, hsel]
        exact consistent_closed hc hchan

theorem openTransport_settles (cmd : Command) (connection : List Byte) :
    Settles s (openTransport cmd connection s) :=
  sat_mono (openTransport_sat hc cmd connection)
    (fun _ _ ⟨hr, hp, hs⟩ => ⟨hr.consistent hp, hr.1.1.trans hs.symm, fun he => absurd hs he⟩) (fun _ h => h)

/-- `SWEEP` (R316): what runs between its `OPEN` and its `CLOSE` is live. -/
theorem sweep_settles (q : SweepParams) : Settles s (sweep q s) := by
  refine accept_latched_settles fun hs => ?_
  split
  · split
    · exact raise_settles hc (by simp) hs
    · refine sat_bind (openTransport_sat hc _ _) (fun _ h => h) fun _ t ⟨ht, hpt, _⟩ => ?_
      refine sat_bind (tapReset_runsOn .tapReset ht) (fun _ h => ⟨h.1, hs⟩) fun _ u ⟨hu, hpu, _⟩ => ?_
      refine sat_bind (forEach_runsOn (fun blk _ h => runBlock_runsOn _ _ _ _ blk h) _ hu) (fun _ h => ⟨h.1, hs⟩)
        fun _ v ⟨hv, hpv, _⟩ => ?_
      have hidle : v.phase = .idle := hpv.trans (hpu.trans hpt)
      refine sat_mono (closeTransport_settles (hv.consistent hidle)) (fun _ _ h => ?_) (fun _ h => ⟨h.1, hs⟩)
      exact ⟨h.consistent, h.err.trans (hv.1.1.trans hs.symm), fun he => absurd hs he⟩
  · exact raise_settles hc (by simp) hs

end

/-! ### The pseudo-commands where no channel is live -/

theorem transactImage_refuses {s : State} (h : ¬ s.Live) (blk : Blk) (sel : Sel) (image : Except Refusal Bits)
    (pos n : Nat) : Refuses (transactImage blk sel image pos n s) :=
  sat_bind (ofExcept_unmoved image s) (fun _ h => h) fun _ _ ht => ht ▸ Refuses.bind (accept_notLive_refuses h _) _

theorem configureBlock_refuses {s : State} (h : ¬ s.Live) (blk : Blk) (coreParams : Fields) (pos n : Nat) :
    Refuses (configureBlock blk coreParams pos n s) := (transactImage_refuses h _ _ _ _ _).bind _

theorem readPair_refuses {s : State} (h : ¬ s.Live) (blk : Blk) (v : Int) (pos n b : Nat) :
    Refuses (readPair blk v pos n b s) := Refuses.bind (accept_notLive_refuses h _) _

/-- A sweep of no bits reads nothing and is answered; any other is refused at its first `SELECT`. -/
theorem sweepBlock_unmoved {s : State} (h : ¬ s.Live) (blk : Blk) (bitNumber pos n : Nat) :
    Unmoved s (sweepBlock blk bitNumber pos n s) :=
  forEach_unmoved (fun v => forEach_unmoved (fun b => (readPair_refuses h blk v pos n b).unmoved) _) _

section
variable {s : State} (hc : s.Consistent)
include hc

/-- A command that runs on where the channel is live and leaves the state alone where it is not. -/
theorem settles_of_live_or_not {α : Type} {r : Res α} (h : Running s → RunsOn s r) (h' : ¬ s.Live → Unmoved s r) :
    Settles s r := by
  by_cases hl : s.Live
  · exact (h (running_of_live hc hl)).settles hc hl
  · exact (h' hl).settles hc

theorem configureBlock_settles (blk : Blk) (coreParams : Fields) (pos n : Nat) :
    Settles s (configureBlock blk coreParams pos n s) :=
  settles_of_live_or_not hc (configureBlock_runsOn blk coreParams pos n)
    fun hl => (configureBlock_refuses hl blk coreParams pos n).unmoved

theorem sweepBlock_settles (blk : Blk) (bitNumber pos n : Nat) : Settles s (sweepBlock blk bitNumber pos n s) :=
  settles_of_live_or_not hc (sweepBlock_runsOn blk bitNumber pos n) fun hl => sweepBlock_unmoved hl blk bitNumber pos n

theorem writeOpcode_settles (cmd : Command) (op : Bits) (selects : Option (Blk × Sel)) (pos n : Nat) :
    Settles s (writeOpcode cmd op selects pos n s) :=
  accept_settles hc live_of_notLive (writeOpcode_runsOn cmd op selects pos n)

theorem select_settles (cmd : Command) (blk : Blk) (sel : Sel) (pos n : Nat) : Settles s (select cmd blk sel pos n s) :=
  writeOpcode_settles hc cmd _ _ pos n

/-- Every well-formed command given in a consistent state is settled. Where the TAP would be set to `Unknown` by name,
the selection would stay: `CHANGE_STATE` needs its well-formedness (R180). -/
theorem exec_settled (i : Instr) (hwf : i.wellFormed = true) : DeliversSettled s (exec i s) := by
  cases i with
  | encCfg fields => exact (ofExcept_unmoved _ s).stays.settled hc
  | encCore fields => exact (ofExcept_unmoved _ s).stays.settled hc
  | encChar fields => exact (ofExcept_unmoved _ s).stays.settled hc
  | decCfg v => exact (ofExcept_unmoved _ s).stays.settled hc
  | decCore v => exact (ofExcept_unmoved _ s).stays.settled hc
  | decChar v => exact (ofExcept_unmoved _ s).stays.settled hc
  | toWire v => exact (unmoved_ok _ s).stays.settled hc
  | padIr opcode pos n => exact (accept_latched_settles (padIr_settles hc opcode pos n)).delivers
  | padDr v blk pos n => exact (accept_latched_settles (padDr_settles hc v blk pos n)).delivers
  | tckCycle tms tdi =>
    exact (accept_settles hc live_of_noCycles fun hr => sat_accept fun _ => runCycles_runsOn _ _ hr).delivers
  | tmsWalk seq =>
    exact (accept_settles hc live_of_noCycles fun hr => sat_accept fun _ => walk_runsOn _ seq hr).delivers
  | tapReset => exact (accept_settles hc live_of_notLive (tapReset_runsOn _)).delivers
  | goIdle => exact (accept_settles hc live_of_notLive (goIdle_runsOn _)).delivers
  | changeState name =>
    have hn : name ≠ .unknown := of_decide_eq_true hwf
    exact (accept_settles hc live_of_notLive (changeState_runsOn _ name hn)).delivers
  | writeIr w => exact (accept_settles hc live_of_notLive (writeIr_runsOn _ w)).delivers
  | writeDr w => exact (accept_settles hc live_of_notLive (writeDr_runsOn _ w)).delivers
  | hwReset hw tapr => exact (accept_settles hc live_of_notLive (hwReset_runsOn _ hw tapr)).delivers
  | openChannel connection => exact (openTransport_settles hc _ connection).delivers
  | closeChannel => exact (closeTransport_settles hc).delivers
  | bbExpand cycles => exact (execBbExpand_stays cycles s).settled hc
  | bbXfer bytes =>
    refine Settles.delivers (accept_settles hc live_of_noCycles fun hr => sat_accept fun _ => ?_)
    split
    · trivial
    · exact bbXfer_runsOn _ bytes hr
  | bbExtract rd first count => exact (execBbExtract_stays rd first count s).settled hc
  | select blk sel pos n => exact (select_settles hc _ blk sel pos n).delivers
  | shift blk v pos n => exact (accept_settles hc live_of_notLive (shift_runsOn _ blk v pos n)).delivers
  | transact blk sel v pos n =>
    exact (accept_settles hc live_of_notLive (transact_runsOn _ blk sel v pos n)).delivers
  | parseReply reply blk pos n => exact (parseReply_settles hc reply blk pos n).delivers
  | configureBlock blk coreParams pos n => exact (configureBlock_settles hc blk coreParams pos n).delivers
  | sweepBlock blk bitNumber pos n =>
    have hs := accept_latched_settles fun _ => sweepBlock_settles hc blk bitNumber pos n
    exact (samplesResult_settles hs).delivers
  | sweep p => exact (samplesResult_settles (sweep_settles hc p)).delivers
  | sample r m o ti c => exact (unmoved_ok _ s).stays.settled hc
  | irFrame opcode pos n => exact (accept_latched_settles (padIr_settles hc opcode pos n)).delivers
  | drFrame v blk pos n => exact (accept_latched_settles (padDr_settles hc v blk pos n)).delivers
  | cfgImage image => exact (unmoved_ok _ s).stays.settled hc
  | coreImage image => exact (unmoved_ok _ s).stays.settled hc
  | charImage image => exact (unmoved_ok _ s).stays.settled hc
  | replyFormat a => exact (execReplyFormat_stays a s).settled hc
  | bypassOpcode pos n => exact (writeOpcode_settles hc _ _ none pos n).delivers
  | opcR0Configuration pos n => exact (select_settles hc _ _ _ pos n).delivers
  | opcR0CoreInputs pos n => exact (select_settles hc _ _ _ pos n).delivers
  | opcR0Readback pos n => exact (select_settles hc _ _ _ pos n).delivers
  | opcR1Configuration pos n => exact (select_settles hc _ _ _ pos n).delivers
  | opcR1CoreInputs pos n => exact (select_settles hc _ _ _ pos n).delivers
  | opcR1Readback pos n => exact (select_settles hc _ _ _ pos n).delivers

theorem consistent_setInbox (bs : List Byte) : (s.setInbox bs).Consistent := hc

end

/-- Settles O56: a step waits, or runs a command that is settled from the state without that command's bytes. -/
theorem consistentKept : Obligations.ConsistentKept := by
  intro s t hc h
  obtain rfl | ⟨i, rest, -, hw, hx⟩ := step_next h
  · exact hc
  · exact consistent_of_settled (exec_settled (consistent_setInbox hc rest) i hw) hx

/-- Settles O58: from a latched state a settled command leaves all but its result, and the step took its bytes. -/
theorem latchSticky : Obligations.LatchSticky := by
  intro s t hc he h
  obtain rfl | ⟨i, rest, -, hw, hx⟩ := step_next h
  · rfl
  · rw [eq_of_settled_latched (exec_settled (consistent_setInbox hc rest) i hw) he hx]
    rfl

end Sys2Proof.Machine

/-! PROOFS. The transport's two kinds of backend (20_memory): what a transfer or an engine call that goes wrong leaves
(R230, R332, R340, R341), and what both put in front of the chain when it goes well (R65). -/

namespace Sys2Proof.Machine

/-! ### Aborts -/

/-- An abort ends the command: nothing after it runs (R258, R335). -/
theorem raise_bind {α β : Type} (e : Err) (s : State) (k : α → State → Res β) :
    (raise e s : Res α).bind k = raise e s := by
  rw [raise, bind_assoc]
  rfl

/-- What the host sees of an abort whose release is answered (R340, R341). -/
theorem deliver_raise {α : Type} {e : Err} {s : State} (h : closeHeard s) (f : α → Result) :
    (raise e s : Res α).deliver f = .next (aborted s e) := by
  rw [raise_eq e h]
  rfl

/-- Only the ENGINE backend is asked to close (R189). -/
theorem closeHeard_of_raw {s : State} (h : s.params.backend = .raw) : closeHeard s :=
  fun _ he => by simp [h] at he

/-! ### Transfers that go wrong -/

/-- The state once `bytes` are with the transport, whatever it takes of them (R341; log entry 10). -/
def handedOver (s : State) (bytes : List Byte) : State :=
  { s with tx := s.tx ++ bytes.map .byte, lines := linesAfter s.params s.lines bytes, env := s.env.afterWrite }

theorem txWrite_accepted {bytes : List Byte} {s : State} {count : Nat} (h : s.writeAnswer bytes = .accepted count) :
    txWrite bytes s = .ok (some count) (handedOver s bytes) := by
  simp only [txWrite, h]
  rfl

theorem txWrite_failed {bytes : List Byte} {s : State} (h : s.writeAnswer bytes = .failed) :
    txWrite bytes s = .ok none (handedOver s bytes) := by
  simp only [txWrite, h]
  rfl

theorem rxRead_returned {count : Nat} {s : State} {rd : List Byte} (h : s.readAnswer count = .returned rd) :
    rxRead count s = .ok (some rd) { s with rx := s.rx ++ rd.map .byte, env := s.env.afterRead } := by
  simp only [rxRead, h]
  rfl

theorem rxRead_failed {count : Nat} {s : State} (h : s.readAnswer count = .failed) :
    rxRead count s = .ok none { s with env := s.env.afterRead } := by
  simp only [rxRead, h]
  rfl

section
variable {cmd : Command} {bytes : List Byte} {s t u : State}

/-- A write that fails, or takes another count, is not followed by a read (R230). -/
theorem bbXfer_of_write_ne {count : Option Nat} (hw : txWrite bytes s = .ok count t)
    (hne : count ≠ some bytes.length) :
    bbXfer cmd bytes s = raise (.transportError cmd (some bytes.length) count) t := by
  rw [bbXfer, hw, bind_ok, if_neg hne]

theorem bbXfer_of_read_failed (hw : txWrite bytes s = .ok (some bytes.length) t)
    (hr : rxRead bytes.length t = .ok none u) :
    bbXfer cmd bytes s = raise (.transportError cmd (some bytes.length) none) u := by
  rw [bbXfer, hw, bind_ok, if_pos rfl, hr, bind_ok]

theorem bbXfer_of_read_ne {rd : List Byte} (hw : txWrite bytes s = .ok (some bytes.length) t)
    (hr : rxRead bytes.length t = .ok (some rd) u) (hne : rd.length ≠ bytes.length) :
    bbXfer cmd bytes s = raise (.transportError cmd (some bytes.length) (some rd.length)) u := by
  rw [bbXfer, hw, bind_ok, if_pos rfl, hr, bind_ok]
  exact if_neg hne

end

/-- On RAW a live state takes the cycle-level commands (R174). -/
theorem noCycles_of_rawLive {s : State} (hs : s.RawLive) : s.noCycles = none := by
  simp only [State.noCycles, notLive_of_live hs.1, hs.2, if_true]

/-- `BB_XFER` whose transfer aborts: a release on RAW asks the transport nothing (R230, R340). -/
theorem exec_bbXfer_of_raise {bytes : List Byte} {s u : State} {e : Err} (hs : s.RawLive) (hne : bytes ≠ [])
    (h : bbXfer .bbXfer bytes s = raise e u) (hu : u.params = s.params) :
    exec (.bbXfer bytes) s = .next (aborted u e) := by
  change (accept s.noCycles _).deliver Result.bytes = _
  rw [noCycles_of_rawLive hs, accept_none, if_neg hne, h, deliver_raise (closeHeard_of_raw (hu ▸ hs.2))]

/-- Settles O38: each of the four answers makes the transfer `raise`, after the write or after the read. -/
theorem transferFailureAborts : Obligations.TransferFailureAborts := by
  intro bytes rd s hs hne
  refine ⟨fun count hw hcount => ?_, fun hw => ?_, fun hw hr => ?_, fun hw hr hlen => ?_⟩
  · exact exec_bbXfer_of_raise hs hne (bbXfer_of_write_ne (txWrite_accepted hw) (by simpa using hcount)) rfl
  · exact exec_bbXfer_of_raise hs hne (bbXfer_of_write_ne (txWrite_failed hw) (by simp)) rfl
  · exact exec_bbXfer_of_raise hs hne (bbXfer_of_read_failed (txWrite_accepted hw) (rxRead_failed hr)) rfl
  · exact exec_bbXfer_of_raise hs hne (bbXfer_of_read_ne (txWrite_accepted hw) (rxRead_returned hr) hlen) rfl

/-! ### Engine calls that fail -/

/-- The state once a call is with the engine, before its answer (R64). -/
def called (s : State) (c : EngineCall) : State :=
  { s with tx := s.tx ++ [.call c], env := s.env.afterEngine }

theorem engineCall_failed {c : EngineCall} {s : State} (h : s.engineAnswer c = .failed) :
    engineCall c s = .ok none (called s c) := by
  simp only [engineCall, h]
  rfl

/-- The answer of an operation that makes the call `c` in state `u`: an abort there if the engine reports a failure
(R64, R332); without a count (log entry 20). -/
def AbortsAt {α : Type} (cmd : Command) (r : Res α) (u : State) (c : EngineCall) : Prop :=
  u.engineAnswer c = .failed → r = raise (.transportError cmd none none) (called u c)

theorem engineDo_abortsAt (cmd : Command) (c : EngineCall) (s : State) : AbortsAt cmd (engineDo cmd c s) s c :=
  fun h => by rw [engineDo, engineCall_failed h, bind_ok]

theorem AbortsAt.bind {α β : Type} {cmd : Command} {r : Res α} {u : State} {c : EngineCall}
    (h : AbortsAt cmd r u c) (k : α → State → Res β) : AbortsAt cmd (r.bind k) u c :=
  fun hf => by rw [h hf, raise_bind]

theorem AbortsAt.deliver {α : Type} {cmd : Command} {r : Res α} {u : State} {c : EngineCall}
    (h : AbortsAt cmd r u c) (f : α → Result) (hf : u.engineAnswer c = .failed) (hc : closeHeard (called u c)) :
    r.deliver f = .next (aborted (called u c) (.transportError cmd none none)) := by
  rw [h hf, deliver_raise hc]

theorem openTransport_abortsAt (cmd : Command) (connection : List Byte) {s : State} (he : s.err = .none)
    (hc : s.chan = .closed) (hb : s.params.backend = .engine) :
    AbortsAt cmd (openTransport cmd connection s) s (.configure connection) := by
  rw [openTransport, latched_of_none he, accept_none, hc, hb]
  exact (engineDo_abortsAt _ _ _).bind _

section
variable {s : State} (hs : s.EngineLive)
include hs

/-- `TAP_RESET` on ENGINE is two calls (R178). -/
theorem tapReset_engine (cmd : Command) :
    tapReset cmd s = (engineDo cmd .resetTAP s).bind fun _ s1 =>
      (engineDo cmd .goIdle s1).bind fun _ s2 => .ok () ((s2.setTap .runTestIdle).setCurSel none) := by
  rw [tapReset, notLive_of_live hs.1, accept_none, hs.2]

theorem tapReset_abortsAt_first (cmd : Command) : AbortsAt cmd (tapReset cmd s) s .resetTAP := by
  rw [tapReset_engine hs]
  exact (engineDo_abortsAt _ _ _).bind _

theorem tapReset_abortsAt_second (cmd : Command) {b : Bits} (hx : (Exchange.call .resetTAP b).answered s) :
    AbortsAt cmd (tapReset cmd s) ((Exchange.call .resetTAP b).after s) .goIdle := by
  rw [tapReset_engine hs, engineDo_eq cmd hx, bind_ok]
  exact (engineDo_abortsAt _ _ _).bind _

theorem goIdle_abortsAt (cmd : Command) (ht : s.tap ≠ .unknown) : AbortsAt cmd (goIdle cmd s) s .goIdle := by
  rw [goIdle, notLive_of_live hs.1, accept_none, if_neg ht, hs.2]
  exact (engineDo_abortsAt _ _ _).bind _

theorem changeState_abortsAt (cmd : Command) (name : TapState) (ht : s.tap ≠ .unknown) :
    AbortsAt cmd (changeState cmd name s) s (.changeState name) := by
  rw [changeState, notLive_of_live hs.1, accept_none, if_neg ht, hs.2]
  exact (engineDo_abortsAt _ _ _).bind _

theorem hwReset_abortsAt (cmd : Command) {hw tapr : Bool} (hany : hw = true ∨ tapr = true)
    (hrst : hw = true → s.params.hasRst = true) : AbortsAt cmd (hwReset cmd hw tapr s) s (.reset hw tapr) := by
  have hidle : ¬ (hw = false ∧ tapr = false) := by rintro ⟨rfl, rfl⟩; simp at hany
  have hline : ¬ (hw = true ∧ s.params.hasRst = false) := fun ⟨hhw, hno⟩ => by simp [hrst hhw] at hno
  rw [hwReset, notLive_of_live hs.1, accept_none, if_neg hidle, if_neg hline, hs.2]
  exact (engineDo_abortsAt _ _ _).bind _

section
variable (cmd : Command) {w : Bits} (ht : s.tap = .runTestIdle) (hw : w ≠ [])
include ht hw

theorem writeIr_abortsAt : AbortsAt cmd (writeIr cmd w s) s (.writeInstructionRegister w) := by
  rw [writeIr, notLive_of_live hs.1, accept_none, noWrite_of_idle ht hw, accept_none, hs.2]
  exact (engineDo_abortsAt _ _ _).bind _

/-- `WRITE_DR` on ENGINE is one call and a check of its reply's length (R182). -/
theorem writeDr_engine :
    writeDr cmd w s = (engineDo cmd (.writeDataRegister w) s).bind fun r s1 =>
      if r.length = w.length then .ok r (s1.setTap .runTestIdle)
      else raise (.transportError cmd (some w.length) (some r.length)) s1 := by
  rw [writeDr, notLive_of_live hs.1, accept_none, noWrite_of_idle ht hw, accept_none, hs.2]

theorem writeDr_abortsAt : AbortsAt cmd (writeDr cmd w s) s (.writeDataRegister w) := by
  rw [writeDr_engine hs cmd ht hw]
  exact (engineDo_abortsAt _ _ _).bind _

/-- A reply of another length aborts, and stands in `rx` (R182; log entry 25). -/
theorem writeDr_of_length_ne {r : Bits} (hx : (Exchange.call (.writeDataRegister w) r).answered s)
    (hlen : r.length ≠ w.length) :
    writeDr cmd w s = raise (.transportError cmd (some w.length) (some r.length))
      ((Exchange.call (.writeDataRegister w) r).after s) := by
  rw [writeDr_engine hs cmd ht hw, engineDo_eq cmd hx, bind_ok, if_neg hlen]

end

theorem select_abortsAt (cmd : Command) (blk : Blk) (sel : Sel) {pos n : Nat} (hp : s.params.wf = true)
    (ht : s.tap = .runTestIdle) (hv : validPosition pos n = true) :
    AbortsAt cmd (select cmd blk sel pos n s) s
      (.writeInstructionRegister (irFrameWire s.params (opcode s.params blk sel) pos n)) := by
  have hop : (opcode s.params blk sel).length = s.params.irLen := length_opcode ..
  rw [select, writeOpcode, notLive_of_live hs.1, accept_none, offIdle_of_idle ht, accept_none, padIr_eq hv hop,
    bind_ok]
  exact (writeIr_abortsAt hs cmd ht (irFrameWire_ne_nil hp hv hop)).bind _

theorem shift_abortsAt (cmd : Command) {blk : Blk} {sel : Sel} {v : Bits} {pos n : Nat} (ht : s.tap = .runTestIdle)
    (hv : validPosition pos n = true) (hsel : s.curSel = some (blk, sel)) (hl : v.length = selLength sel) :
    AbortsAt cmd (shift cmd blk v pos n s) s (.writeDataRegister (drFrameWire v blk pos n)) := by
  have hn : s.noShift blk v = none := by simp [State.noShift, hsel, hl]
  have htrim : trim blk < v.length := hl ▸ trim_lt_selLength blk sel
  rw [shift, notLive_of_live hs.1, accept_none, hn, accept_none, offIdle_of_idle ht, accept_none,
    padDr_eq hv htrim, bind_ok]
  exact writeDr_abortsAt hs cmd ht (drFrameWire_ne_nil hv htrim)

end

theorem validPosition_of_le {pos n : Nat} (h1 : 1 ≤ pos) (hn : pos ≤ n) : validPosition pos n = true := by
  simp [validPosition, h1, hn, h1.trans hn]

/-- Settles O40: every command that makes a call aborts at it, and a wrong reply aborts after it. -/
theorem engineFailureAborts : Obligations.EngineFailureAborts := by
  intro w r b hw tapr name connection blk sel v pos n s he hb hp
  refine ⟨fun hc => (openTransport_abortsAt _ connection he hc hb).deliver _, fun hc => ?_⟩
  have hs : s.EngineLive := ⟨⟨he, hc⟩, hb⟩
  refine ⟨fun ht hne => (writeIr_abortsAt hs _ ht hne).deliver _,
    fun ht hne => (writeDr_abortsAt hs _ ht hne).deliver _,
    fun ht hne hx hlen hclose => ?_,
    (tapReset_abortsAt_first hs _).deliver _,
    fun hx => (tapReset_abortsAt_second hs _ hx).deliver _,
    fun ht => (goIdle_abortsAt hs _ ht).deliver _,
    fun ht => (changeState_abortsAt hs _ name ht).deliver _,
    fun hany hrst => (hwReset_abortsAt hs _ hany hrst).deliver _,
    fun ht h1 hn => (select_abortsAt hs _ blk sel hp ht (validPosition_of_le h1 hn)).deliver _,
    fun ht h1 hn hsel hl => (shift_abortsAt hs _ ht (validPosition_of_le h1 hn) hsel hl).deliver _⟩
  change (writeDr .writeDr w s).deliver Result.bits = _
  rw [writeDr_of_length_ne hs _ ht hne hx hlen]
  exact deliver_raise hclose _

/-! ### The bits in front of the chain -/

/-- The TCK-high sample of cycle `k` is the second of its two (R223). -/
theorem getElem?_flatMap_cycleBytes_high (p : Params) (cs : List (Bool × Bool)) (k : Nat) :
    (cs.flatMap (cycleBytes p))[2 * k + 1]? = cs[k]?.map fun c => sampleByte p true c.1 c.2 p.rstInactive := by
  induction cs generalizing k with
  | nil => rfl
  | cons c cs ih =>
    cases k with
    | zero => rfl
    | succ k => exact ih k

/-- The TDI levels at the rising edges of a frame's cycles are those of the cycles (R222, R223). -/
theorem tdiBits_expandCycles {p : Params} (hp : p.wf = true) {cs : List (Bool × Bool)} {first count : Nat}
    (h : first + count ≤ cs.length) :
    tdiBits p ((expandCycles p cs).map .byte) first count = slice (cs.map Prod.snd) first count := by
  apply List.ext_getElem
  · simp only [tdiBits, slice, List.length_map, List.length_range, List.length_take, List.length_drop]
    omega
  intro k hk hk'
  have hlt : first + k < cs.length := by
    simp only [tdiBits, List.length_map, List.length_range] at hk
    omega
  have hbyte : (expandCycles p cs)[2 * (first + k) + 1]?
      = some (sampleByte p true cs[first + k].1 cs[first + k].2 p.rstInactive) := by
    rw [expandCycles, List.getElem?_append_left (by rw [length_flatMap_cycleBytes]; omega),
      getElem?_flatMap_cycleBytes_high, List.getElem?_eq_getElem hlt, Option.map_some]
  obtain ⟨-, -, hdi, -⟩ := sampleByte_levels hp true cs[first + k].1 cs[first + k].2 p.rstInactive
  simp only [tdiBits, slice, List.getElem_map, List.getElem_range, List.getElem_take, List.getElem_drop,
    List.getElem?_map, hbyte, Option.map_some]
  exact hdi

/-- The data cycles carry the vector on TDI, in order (R181, R182). -/
theorem map_snd_dataCycles (w : Bits) : (dataCycles w).map Prod.snd = w := by
  induction w with
  | nil => rfl
  | cons b bs ih =>
    cases bs with
    | nil => rfl
    | cons c cs => exact congrArg (b :: ·) ih

theorem slice_middle (a w c : Bits) : slice (a ++ w ++ c) a.length w.length = w := by
  simp [slice]

theorem slice_writeIrCycles (w : Bits) : slice ((writeIrCycles w).map Prod.snd) 4 w.length = w := by
  simp only [writeIrCycles, List.map_append, map_snd_dataCycles]
  exact slice_middle [false, false, false, false] w _

theorem slice_writeDrCycles (w : Bits) : slice ((writeDrCycles w).map Prod.snd) 3 w.length = w := by
  simp only [writeDrCycles, List.map_append, map_snd_dataCycles]
  exact slice_middle [false, false, false] w _

/-! ### What a register write adds to the history -/

section
variable {p : Params} {w : Bits} {x : Exchange} (s : State)

/-- On RAW the data cycles of an IR write follow the four of its preamble (R181). -/
theorem isIr_tdiBits (hp : p.wf = true) (hb : p.backend = .raw) (hx : x.isIr p w) :
    tdiBits p ((x.after s).tx.drop s.tx.length) 4 w.length = w := by
  obtain ⟨rd, bits, rfl⟩ := hx
  simp only [irExchange, hb, shiftCycles_ir, Exchange.after, List.drop_left]
  rw [tdiBits_expandCycles hp (by rw [length_writeIrCycles]; omega), slice_writeIrCycles]

/-- On RAW the data cycles of a DR write follow the three of its preamble (R182). -/
theorem isDr_tdiBits (hp : p.wf = true) (hb : p.backend = .raw) (hx : x.isDr p w) :
    tdiBits p ((x.after s).tx.drop s.tx.length) 3 w.length = w := by
  obtain ⟨rd, bits, rfl, -⟩ := hx
  simp only [drExchange, hb, shiftCycles_dr, Exchange.after, List.drop_left]
  rw [tdiBits_expandCycles hp (by rw [length_writeDrCycles]; omega), slice_writeDrCycles]

theorem isIr_tx_engine (hb : p.backend = .engine) (hx : x.isIr p w) :
    (x.after s).tx = s.tx ++ [.call (.writeInstructionRegister w)] := by
  obtain ⟨rd, bits, rfl⟩ := hx
  simp only [irExchange, hb, Exchange.after]

theorem isDr_tx_engine (hb : p.backend = .engine) (hx : x.isDr p w) :
    (x.after s).tx = s.tx ++ [.call (.writeDataRegister w)] := by
  obtain ⟨rd, bits, rfl, -⟩ := hx
  simp only [drExchange, hb, Exchange.after]

end

/-- `WRITE_IR` answered in full, as the host sees it (R181). -/
theorem exec_writeIr_of_answered {w : Bits} {x : Exchange} {s : State} (hs : Ready s) (hw : w ≠ [])
    (hx : x.isIr s.params w) (ha : x.answered s) :
    exec (.writeIr w) s = .next { x.after s with lines := idleLines s, result := .none } := by
  change (writeIr .writeIr w s).deliver (fun _ => Result.none) = _
  rw [writeIr_eq _ hs.live hs.wf hs.idle hw hx ha]
  rfl

/-- `WRITE_DR` answered in full, as the host sees it (R182). -/
theorem exec_writeDr_of_answered {w : Bits} {x : Exchange} {s : State} (hs : Ready s) (hw : w ≠ [])
    (hx : x.isDr s.params w) (ha : x.answered s) :
    exec (.writeDr w) s
      = .next { x.after s with lines := idleLines s, result := .bits (x.reply s.params w.length) } := by
  change (writeDr .writeDr w s).deliver Result.bits = _
  rw [writeDr_eq _ hs.live hs.wf hs.idle hw hx ha]
  rfl

/-- Settles O60: both writes complete; on RAW the vector stands in the data cycles of the frame added to the history, on
ENGINE in the call. -/
theorem backendEquivalence : Obligations.BackendEquivalence := by
  intro w x y s e hs he hp hparams hts hte hw hx hy
  have hwf : e.params.wf = true := by rw [hparams]; exact hp
  have hrs : Ready s := ⟨hs.1, hp, hts⟩
  have hre : Ready e := ⟨he.1, hwf, hte⟩
  refine ⟨fun hxi hyi => ?_, fun hxd hyd => ?_⟩
  · exact ⟨_, _, exec_writeIr_of_answered hrs hw hxi hx, exec_writeIr_of_answered hre hw hyi hy,
      isIr_tdiBits s hp hs.2 hxi, isIr_tx_engine e he.2 hyi⟩
  · exact ⟨_, _, _, _, exec_writeDr_of_answered hrs hw hxd hx, exec_writeDr_of_answered hre hw hyd hy,
      isDr_tdiBits s hp hs.2 hxd, isDr_tx_engine e he.2 hyd, rfl, rfl, isDr_reply_length hxd, isDr_reply_length hyd⟩

end Sys2Proof.Machine

/-! PROOFS. The words of 30_encoding: what an image of typed fields holds and reads back (R84 to R86, R101), the formats
that go on the wire (R81 to R83, R100), and the bytes of a command (R108). -/

namespace Sys2Proof.Machine

/-! ### The fields a typed word names -/

/-- A key given once has the value given with it (R123). -/
theorem fieldValue?_of_mem {fs : Fields} (hn : (fs.map Prod.fst).Nodup) {kv : FieldKey × Int} (h : kv ∈ fs) :
    fieldValue? fs kv.1 = some kv.2 := by
  induction fs with
  | nil => cases h
  | cons a more ih =>
    obtain ⟨hfresh, hmore⟩ := List.nodup_cons.mp hn
    rcases List.mem_cons.mp h with rfl | h
    · simp [fieldValue?]
    · have hne : a.1 ≠ kv.1 := fun heq => hfresh (heq ▸ List.mem_map_of_mem h)
      rw [← ih hmore h]
      simp [fieldValue?, hne]

theorem fieldValue_of_mem {fs : Fields} (hn : (fs.map Prod.fst).Nodup) {kv : FieldKey × Int} (h : kv ∈ fs) :
    fieldValue fs kv.1 = kv.2 := by
  rw [fieldValue, fieldValue?_of_mem hn h, Option.getD_some]

theorem fieldValue?_of_notMem {fs : Fields} {key : FieldKey} (h : key ∉ fs.map Prod.fst) :
    fieldValue? fs key = none := by
  simp only [fieldValue?, Option.map_eq_none_iff, List.find?_eq_none, decide_eq_true_eq]
  rintro kv hkv rfl
  exact h (List.mem_map_of_mem hkv)

/-- R122 looks at nothing but the names. -/
theorem namesOnly_of_subset {keys : List FieldKey} {fs : Fields} (h : fs.map Prod.fst ⊆ keys) :
    namesOnly keys fs = true := by
  simp only [namesOnly, List.all_eq_true, decide_eq_true_eq]
  exact fun kv hkv => h (List.mem_map_of_mem hkv)

theorem cfgImageFields_keys (x : CfgImage) : (cfgImageFields x).map Prod.fst = fieldKeys cfgLayout := rfl
theorem coreImageFields_keys (x : CoreImage) : (coreImageFields x).map Prod.fst = fieldKeys coreLayout := rfl
theorem charImageFields_keys (x : CharImage) : (charImageFields x).map Prod.fst = fieldKeys charLayout := rfl

theorem cfgLayout_keys_nodup : (fieldKeys cfgLayout).Nodup := by decide
theorem coreLayout_keys_nodup : (fieldKeys coreLayout).Nodup := by decide
theorem charLayout_keys_nodup : (fieldKeys charLayout).Nodup := by decide

/-- `value` gives each key of `fs` what `fs` does. -/
def Gives (value : FieldKey → Int) (fs : Fields) : Prop := List.Forall (fun kv => value kv.1 = kv.2) fs

theorem gives_append {value : FieldKey → Int} {as bs : Fields} :
    Gives value (as ++ bs) ↔ Gives value as ∧ Gives value bs := List.forall_append ..

theorem gives_fieldValue {fs : Fields} (hn : (fs.map Prod.fst).Nodup) : Gives (fieldValue fs) fs :=
  List.forall_iff_forall_mem.mpr fun _ h => fieldValue_of_mem hn h

/-! ### Blocks of an image -/

theorem encodeLayout_append (value : FieldKey → Int) (as bs : List Slot) :
    encodeLayout value (as ++ bs) = encodeLayout value as ++ encodeLayout value bs := List.flatMap_append

/-- From the slot with number `k` on, an image is that of the rest of the layout (R88). -/
theorem drop_encodeLayout (value : FieldKey → Int) {layout rest : List Slot} {b : Nat} (k : Nat)
    (h : layout.drop k = rest) (hb : ((layout.take k).map Slot.width).sum = b) :
    (encodeLayout value layout).drop b = encodeLayout value rest := by
  have hsplit := encodeLayout_append value (layout.take k) (layout.drop k)
  rw [List.take_append_drop, h] at hsplit
  rw [hsplit, ← hb, ← length_encodeLayout value, List.drop_left]

theorem bitAt_drop (v : Bits) (b i : Nat) : bitAt (v.drop b) i = bitAt v (b + i) := by
  simp [bitAt, List.getD_eq_getElem?_getD]

theorem wordAt_drop (v : Bits) (b i w : Nat) : wordAt (v.drop b) i w = wordAt v (b + i) w := by
  simp [wordAt, slice]

/-! ### The lanes of an image -/

/-- A lane block of CFG is read from where its slots begin (R84). -/
theorem cfgLaneAt_encodeLayout {value : FieldKey → Int} {layout post : List Slot} {i : Nat} {l : CfgLane} (k : Nat)
    (hslots : layout.drop k = cfgLaneSlots i ++ post) (hb : ((layout.take k).map Slot.width).sum = 3 + 5 * i)
    (hv : Gives value (cfgLaneFields i l)) : cfgLaneAt (encodeLayout value layout) i = l := by
  have hread (j : Nat) : bitAt (encodeLayout value layout) (3 + j + 5 * i)
      = bitAt (encodeLayout value (cfgLaneSlots i ++ post)) j := by
    rw [← drop_encodeLayout value k hslots hb, bitAt_drop, Nat.add_right_comm]
  obtain ⟨hcore, htuning, hdebug, hchar, hunshadowed⟩ := hv
  obtain ⟨⟩ := l
  rw [cfgLaneAt, CfgLane.mk.injEq]
  exact ⟨(hread 0).trans (bitAt_encodeLayout _ _ 0 rfl rfl hcore),
    (hread 1).trans (bitAt_encodeLayout _ _ 1 rfl rfl htuning),
    (hread 2).trans (bitAt_encodeLayout _ _ 2 rfl rfl hdebug),
    (hread 3).trans (bitAt_encodeLayout _ _ 3 rfl rfl hchar),
    (hread 4).trans (bitAt_encodeLayout _ _ 4 rfl rfl hunshadowed)⟩

/-- A lane block of CHAR is read from where its slots begin (R86). -/
theorem charLaneAt_encodeLayout {value : FieldKey → Int} {layout post : List Slot} {i b : Nat} {l : CharLane}
    (k : Nat) (hslots : layout.drop k = charLaneSlots i ++ post) (hb : ((layout.take k).map Slot.width).sum = b)
    (hv : Gives value (charLaneFields i l)) : charLaneAt (encodeLayout value layout) b = l := by
  have hdrop : charLaneAt (encodeLayout value layout) b
      = charLaneAt (encodeLayout value (charLaneSlots i ++ post)) 0 := by
    rw [← drop_encodeLayout value k hslots hb]
    simp only [charLaneAt, bitAt_drop, wordAt_drop, Nat.zero_add, Nat.add_zero]
  obtain ⟨htestfail, hecount, hesword, hes, hphase, hbit, hvoltage, hoverride, hlen, hrun, hdone⟩ := hv
  obtain ⟨⟩ := l
  rw [hdrop, charLaneAt, CharLane.mk.injEq]
  exact ⟨bitAt_encodeLayout _ _ 0 rfl rfl htestfail, wordAt_encodeLayout _ _ 1 rfl rfl hecount,
    wordAt_encodeLayout _ _ 2 rfl rfl hesword, wordAt_encodeLayout _ _ 3 rfl rfl hes,
    wordAt_encodeLayout _ _ 4 rfl rfl hphase, wordAt_encodeLayout _ _ 5 rfl rfl hbit,
    wordAt_encodeLayout _ _ 6 rfl rfl hvoltage, bitAt_encodeLayout _ _ 7 rfl rfl hoverride,
    wordAt_encodeLayout _ _ 8 rfl rfl hlen, bitAt_encodeLayout _ _ 9 rfl rfl hrun,
    bitAt_encodeLayout _ _ 10 rfl rfl hdone⟩

/-! ### The words of the three formats -/

theorem length_cfgImageBits (x : CfgImage) : (cfgImageBits x).length = 27 := length_encodeLayout ..
theorem length_coreImageBits (x : CoreImage) : (coreImageBits x).length = 133 := length_encodeLayout ..
theorem length_charImageBits (x : CharImage) : (charImageBits x).length = 195 := length_encodeLayout ..

theorem zerosHold_cfgImageBits (x : CfgImage) : zerosHold cfgLayout (cfgImageBits x) = true :=
  zerosHold_encodeLayout ..
theorem zerosHold_coreImageBits (x : CoreImage) : zerosHold coreLayout (coreImageBits x) = true :=
  zerosHold_encodeLayout ..
theorem zerosHold_charImageBits (x : CharImage) : zerosHold charLayout (charImageBits x) = true :=
  zerosHold_encodeLayout ..

/-- The fields of a CFG word stand at the indices of R84. -/
theorem cfgImageOf_cfgImageBits (x : CfgImage) : cfgImageOf (cfgImageBits x) = x := by
  have hv := gives_fieldValue (cfgImageFields_keys x ▸ cfgLayout_keys_nodup)
  rw [cfgImageBits]
  generalize fieldValue (cfgImageFields x) = value at hv
  simp only [cfgImageFields, gives_append] at hv
  obtain ⟨⟨⟨⟨⟨hhead, h0⟩, h1⟩, h2⟩, h3⟩, hcore, htuning, hdebug⟩ := hv
  obtain ⟨⟩ := x
  rw [cfgImageOf, CfgImage.mk.injEq]
  exact ⟨bitAt_encodeLayout _ _ 1 rfl rfl hhead, cfgLaneAt_encodeLayout 2 rfl rfl h0,
    cfgLaneAt_encodeLayout 7 rfl rfl h1, cfgLaneAt_encodeLayout 12 rfl rfl h2, cfgLaneAt_encodeLayout 17 rfl rfl h3,
    bitAt_encodeLayout _ _ 22 rfl rfl hcore, bitAt_encodeLayout _ _ 23 rfl rfl htuning,
    bitAt_encodeLayout _ _ 24 rfl rfl hdebug⟩

/-- The fields of a CORE word stand at the indices of R85; slots 0, 12, 18 and 22 of the layout are no fields
of the caller's (R101). -/
theorem coreImageOf_coreImageBits (x : CoreImage) : coreImageOf (coreImageBits x) = x := by
  obtain ⟨henpll, hmpy, hvrange, hendivclk, hlb, h0, h1, h2, h3, hclkbyp, hsleeppll, hlock, hbsinitclk, henbstx, henbsrx,
    henbspt, hnearlock, hunlock, hcfgOvr⟩ := gives_fieldValue (coreImageFields_keys x ▸ coreLayout_keys_nodup)
  rw [coreImageBits]
  generalize fieldValue (coreImageFields x) = value at *
  obtain ⟨⟩ := x
  rw [coreImageOf, CoreImage.mk.injEq]
  exact ⟨bitAt_encodeLayout _ _ 1 rfl rfl henpll, wordAt_encodeLayout _ _ 2 rfl rfl hmpy,
    bitAt_encodeLayout _ _ 3 rfl rfl hvrange, bitAt_encodeLayout _ _ 4 rfl rfl hendivclk,
    wordAt_encodeLayout _ _ 5 rfl rfl hlb, wordAt_encodeLayout _ _ 6 rfl rfl h0, wordAt_encodeLayout _ _ 7 rfl rfl h1,
    wordAt_encodeLayout _ _ 8 rfl rfl h2, wordAt_encodeLayout _ _ 9 rfl rfl h3,
    wordAt_encodeLayout _ _ 10 rfl rfl hclkbyp, bitAt_encodeLayout _ _ 11 rfl rfl hsleeppll,
    bitAt_encodeLayout _ _ 13 rfl rfl hlock, bitAt_encodeLayout _ _ 14 rfl rfl hbsinitclk,
    bitAt_encodeLayout _ _ 15 rfl rfl henbstx, bitAt_encodeLayout _ _ 16 rfl rfl henbsrx,
    bitAt_encodeLayout _ _ 17 rfl rfl henbspt, bitAt_encodeLayout _ _ 19 rfl rfl hnearlock,
    bitAt_encodeLayout _ _ 20 rfl rfl hunlock, bitAt_encodeLayout _ _ 21 rfl rfl hcfgOvr⟩

/-- The lanes of a CHAR word stand at the indices of R86. -/
theorem charImageOf_charImageBits (x : CharImage) : charImageOf (charImageBits x) = x := by
  have hv := gives_fieldValue (charImageFields_keys x ▸ charLayout_keys_nodup)
  rw [charImageBits]
  generalize fieldValue (charImageFields x) = value at hv
  simp only [charImageFields, gives_append] at hv
  obtain ⟨⟨⟨h0, h1⟩, h2⟩, h3⟩ := hv
  obtain ⟨⟩ := x
  rw [charImageOf, CharImage.mk.injEq]
  exact ⟨charLaneAt_encodeLayout 1 rfl rfl h0, charLaneAt_encodeLayout 12 rfl rfl h1,
    charLaneAt_encodeLayout 23 rfl rfl h2, charLaneAt_encodeLayout 34 rfl rfl h3⟩

/-! ### The encoders on the fields of a word -/

/-- An image depends on the values of its fields alone (R88). -/
theorem encodeLayout_of_gives {v w : FieldKey → Int} {fs : Fields} {layout : List Slot}
    (hkeys : fs.map Prod.fst = fieldKeys layout) (hv : Gives v fs) (hw : Gives w fs) :
    encodeLayout v layout = encodeLayout w layout := by
  refine List.flatMap_congr fun slot hslot => ?_
  cases slot with
  | zero key width => rfl
  | field key width =>
    have hmem : key ∈ fs.map Prod.fst := hkeys ▸ List.mem_filterMap.mpr ⟨.field key width, hslot, rfl⟩
    obtain ⟨kv, hkv, rfl⟩ := List.mem_map.mp hmem
    have hsame := (List.forall_iff_forall_mem.mp hv kv hkv).trans (List.forall_iff_forall_mem.mp hw kv hkv).symm
    exact congrArg (be width) hsame

/-- A lane is not given twice by a map without names of `LANE_CTL_LAYOUT` (R124; log entry 17). -/
theorem laneTwice_of_no_other (p : Params) {fs : Fields} (h : ∀ m lane, ⟨.other m, lane⟩ ∉ fs.map Prod.fst)
    (i : Nat) : laneTwice p fs i = false := by
  have hnone : (laneLayoutKeys p i).any (fun k => (fieldValue? fs k).isSome) = false := by
    simp only [laneLayoutKeys, List.any_map, List.any_eq_false, Function.comp_apply]
    intro nw _
    simp [fieldValue?_of_notMem (h nw.1 (some i))]
  rw [laneTwice, hnone, Bool.and_false]

/-- A CoreControl field that is given, a lane ready and not by name too, has the value given (R124). -/
theorem coreValue_of_given (p : Params) {fs : Fields} {key : FieldKey} {v : Int} (h : fieldValue? fs key = some v)
    (htwice : ∀ i, laneTwice p fs i = false) : coreValue p fs key = v := by
  unfold coreValue
  split
  next i => simp only [h, htwice i, Bool.false_eq_true, if_false]
  next => rw [fieldValue, h, Option.getD_some]

theorem gives_coreValue (p : Params) (x : CoreImage) : Gives (coreValue p (coreImageFields x)) (coreImageFields x) := by
  have hother : ∀ m lane, (⟨.other m, lane⟩ : FieldKey) ∉ (coreImageFields x).map Prod.fst := fun m lane => by
    simp [coreImageFields]
  refine List.forall_iff_forall_mem.mpr fun kv hkv => coreValue_of_given p ?_ (laneTwice_of_no_other p hother)
  exact fieldValue?_of_mem (coreImageFields_keys x ▸ coreLayout_keys_nodup) hkv

theorem encodeCfg_cfgImageFields (x : CfgImage) : encodeCfg (cfgImageFields x) = .ok (cfgImageBits x) :=
  if_pos (namesOnly_of_subset (cfgImageFields_keys x ▸ List.Subset.refl _))

theorem encodeChar_charImageFields (x : CharImage) : encodeChar (charImageFields x) = .ok (charImageBits x) :=
  if_pos (namesOnly_of_subset (charImageFields_keys x ▸ List.Subset.refl _))

theorem encodeCore_coreImageFields (p : Params) (x : CoreImage) :
    encodeCore p (coreImageFields x) = .ok (coreImageBits x) := by
  have hnames : namesOnly (coreKeys p) (coreImageFields x) = true :=
    namesOnly_of_subset (coreImageFields_keys x ▸ List.subset_append_left ..)
  rw [encodeCore, if_pos hnames, coreImageBits, encodeLayout_of_gives (coreImageFields_keys x) (gives_coreValue p x)
    (gives_fieldValue (coreImageFields_keys x ▸ coreLayout_keys_nodup))]

/-- Settles O15: the encoders write the word's own fields, and each field stands at the index it is read from. -/
theorem formatImages : Obligations.FormatImages := by
  refine ⟨fun x s => ⟨rfl, ?_, length_cfgImageBits x, zerosHold_cfgImageBits x, cfgImageOf_cfgImageBits x⟩,
    fun x s => ⟨rfl, ?_, length_coreImageBits x, zerosHold_coreImageBits x, coreImageOf_coreImageBits x⟩,
    fun x s => ⟨rfl, ?_, length_charImageBits x, zerosHold_charImageBits x, charImageOf_charImageBits x⟩⟩
  · exact congrArg (fun image => (ofExcept image s).deliver Result.bits) (encodeCfg_cfgImageFields x)
  · exact congrArg (fun image => (ofExcept image s).deliver Result.bits) (encodeCore_coreImageFields s.params x)
  · exact congrArg (fun image => (ofExcept image s).deliver Result.bits) (encodeChar_charImageFields x)

/-! ### A sample byte -/

/-- Bit `k` of a SAMPLE byte is the level of the line whose pin `k` is (R81). -/
theorem getLsbD_formatSample (p : Params) (r m o i c : Bool) (k : Fin 8) :
    (formatSample p r m o i c).getLsbD k.val =
      (c && decide (p.pinTck = k) || m && decide (p.pinTms = k) || i && decide (p.pinTdi = k)
        || p.hasRst && r && decide (p.pinRst = k) || o && decide (p.pinTdo = k)) := by
  have hrst : (if p.hasRst = true then pinBit p.pinRst r else 0#8).getLsbD k.val
      = (p.hasRst && r && decide (p.pinRst = k)) := by
    cases p.hasRst
    · exact BitVec.getLsbD_zero
    · exact pinBit_getLsbD p.pinRst k r
  simp only [formatSample, sampleByte, BitVec.getLsbD_or, pinBit_getLsbD, hrst]

/-- Settles O16: the pins are distinct, so at the pin of one line the other four add nothing. -/
theorem sampleBits : Obligations.SampleBits := by
  intro r m o i c s hp
  refine ⟨formatSample s.params r m o i c, rfl, fun k => ?_⟩
  have hpins := wf_pins hp
  simp only [List.nodup_cons, List.mem_cons, List.not_mem_nil, not_or, or_false] at hpins
  obtain ⟨⟨hck_di, hck_do, hck_ms, hck_rst⟩, ⟨hdi_do, hdi_ms, hdi_rst⟩, ⟨hdo_ms, hdo_rst⟩, hms_rst, -⟩ := hpins
  rw [getLsbD_formatSample]
  split_ifs with hck hms hdi hdo hrst
  · simp [hck, Ne.symm hck_di, Ne.symm hck_do, Ne.symm hck_ms, Ne.symm hck_rst]
  · simp [hms, hck_ms, hdi_ms, hdo_ms, Ne.symm hms_rst]
  · simp [hdi, hck_di, Ne.symm hdi_ms, Ne.symm hdi_do, Ne.symm hdi_rst]
  · simp [hdo, hck_do, hdi_do, Ne.symm hdo_ms, Ne.symm hdo_rst]
  · simp [hrst, hck_rst, hdi_rst, hdo_rst, hms_rst]
  · simp [Ne.symm hck, Ne.symm hms, Ne.symm hdi, Ne.symm hdo, Ne.symm hrst]

/-! ### Frames in natural orientation -/

/-- Slot `k` of slots of one width is the `k`-th (R82). -/
theorem slice_flatten {slots : List Bits} {w : Nat} (hw : ∀ slot ∈ slots, slot.length = w) {k : Nat} {slot : Bits}
    (hk : slots[k]? = some slot) : slice slots.flatten (k * w) w = slot := by
  induction slots generalizing k with
  | nil => simp at hk
  | cons first more ih =>
    have hfirst : first.length = w := hw first (by simp)
    cases k with
    | zero =>
      obtain rfl : first = slot := by simpa using hk
      simp [slice, ← hfirst]
    | succ k =>
      have hrest := ih (fun slot hslot => hw slot (by simp [hslot])) (k := k) (by simpa using hk)
      rw [← hrest, slice, slice, List.flatten_cons, Nat.succ_mul, Nat.add_comm, ← List.drop_drop, ← hfirst,
        List.drop_left]

/-- The slots of an IRFRAME in natural orientation (R82, R151). -/
def irSlots (p : Params) (op : Bits) (pos n : Nat) : List Bits :=
  List.replicate (n - pos) (bypassBits p) ++ op :: List.replicate (pos - 1) (bypassBits p)

@[simp] theorem length_bypassBits (p : Params) : (bypassBits p).length = p.irLen := length_be ..

theorem length_of_mem_irSlots {p : Params} {op slot : Bits} {pos n : Nat} (hop : op.length = p.irLen)
    (h : slot ∈ irSlots p op pos n) : slot.length = p.irLen := by
  simp only [irSlots, List.mem_append, List.mem_replicate, List.mem_cons] at h
  obtain ⟨-, rfl⟩ | rfl | ⟨-, rfl⟩ := h
  · exact length_bypassBits p
  · exact hop
  · exact length_bypassBits p

/-- The opcode stands after `N - pos` others (R151). -/
theorem getElem?_irSlots (p : Params) (op : Bits) {pos n k : Nat} (h1 : 1 ≤ pos) (hn : pos ≤ n) (hk : k < n) :
    (irSlots p op pos n)[k]? = some (if k = n - pos then op else bypassBits p) := by
  rcases Nat.lt_trichotomy k (n - pos) with hlt | rfl | hgt
  · rw [irSlots, List.getElem?_append_left (by simpa using hlt), List.getElem?_replicate, if_pos hlt,
      if_neg (Nat.ne_of_lt hlt)]
  · simp [irSlots]
  · obtain ⟨j, rfl⟩ := Nat.exists_eq_add_of_lt hgt
    have hidx : n - pos + j + 1 - (n - pos) = j + 1 := by omega
    rw [irSlots, List.getElem?_append_right (by rw [List.length_replicate]; omega), List.length_replicate, hidx,
      List.getElem?_cons_succ, List.getElem?_replicate, if_pos (by omega), if_neg (by omega)]

theorem rep_false (m : Nat) : rep [false] m = List.replicate m false := by
  simp [rep]

theorem reverse_irFrameWire (p : Params) (op : Bits) (pos n : Nat) :
    (irFrameWire p op pos n).reverse = (irSlots p op pos n).flatten := by
  rw [irFrameWire, List.reverse_reverse]
  simp [irFrameNatural, irSlots, rep]

theorem reverse_drFrameWire (v : Bits) (blk : Blk) (pos n : Nat) :
    (drFrameWire v blk pos n).reverse
      = List.replicate (n - pos) false ++ dropLast v (trim blk) ++ List.replicate (pos - 1) false := by
  rw [drFrameWire, List.reverse_reverse, drFrameNatural, rep_false, rep_false]

theorem exec_irFrame {op : Bits} {pos n : Nat} {s : State} (he : s.err = .none) (hv : validPosition pos n = true)
    (hop : op.length = s.params.irLen) :
    exec (.irFrame op pos n) s = .next { s with result := .bits (irFrameWire s.params op pos n) } := by
  change (accept s.latched (padIr op pos n s)).deliver Result.bits = _
  rw [latched_of_none he, accept_none, padIr_eq hv hop]
  rfl

theorem exec_drFrame {v : Bits} {blk : Blk} {pos n : Nat} {s : State} (he : s.err = .none)
    (hv : validPosition pos n = true) (hl : trim blk < v.length) :
    exec (.drFrame v blk pos n) s = .next { s with result := .bits (drFrameWire v blk pos n) } := by
  change (accept s.latched (padDr v blk pos n s)).deliver Result.bits = _
  rw [latched_of_none he, accept_none, padDr_eq hv hl]
  rfl

/-- Settles O19: the reversed wire frame is the slots in order, the addressed device's after `N - pos` others. -/
theorem frameFormats : Obligations.FrameFormats := by
  intro op v blk pos n s he h1 hn
  have hv := validPosition_of_le h1 hn
  refine ⟨fun hop => ⟨_, exec_irFrame he hv hop, length_irFrameWire hv hop, fun k hk => ?_⟩,
    fun hl => ⟨_, exec_drFrame he hv hl, length_drFrameWire hv hl, ?_⟩⟩
  · rw [reverse_irFrameWire]
    exact slice_flatten (fun _ => length_of_mem_irSlots hop) (getElem?_irSlots s.params op h1 hn hk)
  · have hfront : (List.replicate (n - pos) false).length = n - pos := List.length_replicate
    have hvector : (dropLast v (trim blk)).length = v.length - trim blk := length_dropLast v (trim blk)
    have hmiddle := slice_middle (List.replicate (n - pos) false) (dropLast v (trim blk))
      (List.replicate (pos - 1) false)
    rw [hfront, hvector] at hmiddle
    rw [reverse_drFrameWire]
    refine ⟨?_, hmiddle, ?_⟩
    · rw [slice, List.drop_zero, List.append_assoc, List.take_left' hfront]
    · exact List.drop_left' (by rw [List.length_append, hfront, hvector])

/-! ### BYPASS for the whole chain -/

theorem rep_add (x : Bits) (a b : Nat) : rep x (a + b) = rep x a ++ rep x b := by
  rw [rep, List.replicate_add, List.flatten_append]
  rfl

/-- BYPASS to the addressed device and to every other is BYPASS to all `N` (R40, R151). -/
theorem irFrameWire_bypass (p : Params) {pos n : Nat} (h1 : 1 ≤ pos) (hn : pos ≤ n) :
    irFrameWire p (bypassBits p) pos n = (rep (bypassBits p) n).reverse := by
  have hone : bypassBits p = rep (bypassBits p) 1 := by simp [rep]
  have hcount : n - pos + 1 + (pos - 1) = n := by omega
  conv_rhs => rw [← hcount, rep_add, rep_add, ← hone]
  rfl

/-- Settles O42: the write is `writeOpcode`'s of a frame that is BYPASS throughout, and it records no selection. -/
theorem bypassOpcodeCompletes : Obligations.BypassOpcodeCompletes := by
  intro pos n x s hs hp ht h1 hn hx ha
  rw [← irFrameWire_bypass s.params h1 hn] at hx
  change (writeOpcode .writeIr (bypassBits s.params) none pos n s).deliver (fun _ => Result.none) = _
  rw [writeOpcode_eq _ hs hp ht (validPosition_of_le h1 hn) (length_bypassBits s.params) hx ha]
  rfl

end Sys2Proof.Machine

namespace Sys2Proof

/-! ### The bytes of a command -/

/-- Reading goes on with what the first operand says. -/
theorem andThen_eq {α β : Type} {p : Parser α} {f : α → Parser β} {bs rest : List Byte} {a : α}
    {r : Except DecodeError (β × List Byte)} (h : p bs = .ok (a, rest)) (hf : f a rest = r) : andThen p f bs = r :=
  (andThen_ok h).trans hf

/-- The last two operands of most commands, the chain position, or a first index and a count. -/
theorem getNats_putNats {α : Type} (f : Nat → Nat → α) (a b : Nat) (rest : List Byte) :
    (andThen getNat fun x => parseMap getNat fun y => f x y) (putNat a ++ (putNat b ++ rest)) = .ok (f a b, rest) :=
  andThen_eq (getNat_putNat a _) (parseMap_ok (getNat_putNat b rest))

theorem getBools_putBools {α : Type} (f : Bool → Bool → α) (a b : Bool) (rest : List Byte) :
    (andThen getBool fun x => parseMap getBool fun y => f x y) (putBool a ++ (putBool b ++ rest))
      = .ok (f a b, rest) :=
  andThen_eq (getBool_putBool a _) (parseMap_ok (getBool_putBool b rest))

/-- Every well-formed command is read back: its code selects the reader of its operands, each of which is read back in its
turn (R108; log entry 1). -/
theorem decode_encode (i : Instr) (rest : List Byte) (hwf : i.wellFormed = true) :
    decode (encode i ++ rest) = .ok (i, rest) := by
  cases i <;> simp only [encode, List.append_assoc, List.cons_append, List.nil_append]
  case tapReset | goIdle | closeChannel => rfl
  case encCfg fs | encCore fs | encChar fs => exact parseMap_ok (getFields_putFields fs rest)
  case decCfg v | decCore v | decChar v | toWire v | tmsWalk v | writeIr v | writeDr v | replyFormat v =>
    exact parseMap_ok (getBits_putBits v rest)
  case openChannel bytes | bbXfer bytes => exact parseMap_ok (getBytes_putBytes bytes rest)
  case bbExpand cycles => exact parseMap_ok (getCycles_putCycles cycles rest)
  case changeState name => exact parseMap_ok (getTapState_put (of_decide_eq_true hwf) rest)
  case sweep p => exact parseMap_ok (getSweepParams_put p rest)
  case sample r m o i c => exact getSample_put r m o i c rest
  case tckCycle a b | hwReset a b => exact getBools_putBools _ a b rest
  case bypassOpcode pos n | opcR0Configuration pos n | opcR0CoreInputs pos n | opcR0Readback pos n
      | opcR1Configuration pos n | opcR1CoreInputs pos n | opcR1Readback pos n =>
    exact getNats_putNats _ pos n rest
  case padIr op pos n | irFrame op pos n => exact andThen_eq (getBits_putBits op _) (getNats_putNats _ pos n rest)
  case bbExtract rd first count => exact andThen_eq (getBytes_putBytes rd _) (getNats_putNats _ first count rest)
  case padDr v blk pos n | drFrame v blk pos n | parseReply v blk pos n =>
    exact andThen_eq (getBits_putBits v _) (andThen_eq (getBlk_putBlk blk _) (getNats_putNats _ pos n rest))
  case select blk sel pos n =>
    exact andThen_eq (getBlk_putBlk blk _) (andThen_eq (getSel_putSel sel _) (getNats_putNats _ pos n rest))
  case shift blk v pos n =>
    exact andThen_eq (getBlk_putBlk blk _) (andThen_eq (getBits_putBits v _) (getNats_putNats _ pos n rest))
  case transact blk sel v pos n =>
    exact andThen_eq (getBlk_putBlk blk _) (andThen_eq (getSel_putSel sel _)
      (andThen_eq (getBits_putBits v _) (getNats_putNats _ pos n rest)))
  case configureBlock blk fs pos n =>
    exact andThen_eq (getBlk_putBlk blk _) (andThen_eq (getFields_putFields fs _) (getNats_putNats _ pos n rest))
  case sweepBlock blk bitNumber pos n =>
    exact andThen_eq (getBlk_putBlk blk _) (andThen_eq (getNat_putNat bitNumber _) (getNats_putNats _ pos n rest))
  case cfgImage x =>
    have h := getImage_put (Machine.length_cfgImageBits x) (Machine.zerosHold_cfgImageBits x) rest
    exact (parseMap_ok h).trans (by rw [Machine.cfgImageOf_cfgImageBits])
  case coreImage x =>
    have h := getImage_put (Machine.length_coreImageBits x) (Machine.zerosHold_coreImageBits x) rest
    exact (parseMap_ok h).trans (by rw [Machine.coreImageOf_coreImageBits])
  case charImage x =>
    have h := getImage_put (Machine.length_charImageBits x) (Machine.zerosHold_charImageBits x) rest
    exact (parseMap_ok h).trans (by rw [Machine.charImageOf_charImageBits])

/-- Settles O1, by `decode_encode`. -/
theorem decodeEncodeRoundTrip : Obligations.DecodeEncodeRoundTrip := decode_encode

/-- Settles O2: each word is evaluated by the decoder. -/
theorem decodedWords : Obligations.DecodedWords :=
  ⟨rfl, rfl, rfl, rfl, rfl, rfl, rfl, rfl, rfl, rfl, rfl⟩

end Sys2Proof

/-! PROOFS. The register codec of 40_register_codec: what the encoders and the decoders deliver (R122 to R130), that an
image is read back (R131) and that it depends on the residues of its fields alone (R121). -/

namespace Sys2Proof.Machine

/-! ### What the commands answer -/

/-- R122 is the only refusal of an encoder. -/
theorem deliver_image (keys : List FieldKey) (fs : Fields) (v : Bits) (s : State) :
    (ofExcept (if namesOnly keys fs then .ok v else .error .unknownField) s).deliver Result.bits
      = if namesOnly keys fs then .next { s with result := .bits v } else .refused .unknownField := by
  cases namesOnly keys fs <;> rfl

theorem exec_encCfg (fs : Fields) (s : State) :
    exec (.encCfg fs) s = if namesOnly (fieldKeys cfgLayout) fs then
        .next { s with result := .bits (encodeLayout (fieldValue fs) cfgLayout) }
      else .refused .unknownField := deliver_image ..

theorem exec_encCore (fs : Fields) (s : State) :
    exec (.encCore fs) s = if namesOnly (coreKeys s.params) fs then
        .next { s with result := .bits (encodeLayout (coreValue s.params fs) coreLayout) }
      else .refused .unknownField := deliver_image ..

theorem exec_encChar (fs : Fields) (s : State) :
    exec (.encChar fs) s = if namesOnly (fieldKeys charLayout) fs then
        .next { s with result := .bits (encodeLayout (fieldValue fs) charLayout) }
      else .refused .unknownField := deliver_image ..

/-- Command `dec` reads a vector of `n` bits by `layout` and refuses every other length (R127). -/
def Reads (dec : Bits → Instr) (layout : List Slot) (n : Nat) : Prop :=
  ∀ v s, exec (dec v) s = if v.length = n then .next { s with result := .fields (decodeLayout layout v) }
    else .refused .wrongLength

theorem deliver_decodeImage (layout : List Slot) (n : Nat) (v : Bits) (s : State) :
    (ofExcept (decodeImage layout n v) s).deliver Result.fields
      = if v.length = n then .next { s with result := .fields (decodeLayout layout v) }
        else .refused .wrongLength := by
  unfold decodeImage
  split <;> rfl

theorem decCfg_reads : Reads .decCfg cfgLayout 27 := deliver_decodeImage cfgLayout 27
theorem decCore_reads : Reads .decCore coreLayout 133 := deliver_decodeImage coreLayout 133
theorem decChar_reads : Reads .decChar charLayout 195 := deliver_decodeImage charLayout 195

/-- Settles O13: reversal is its own inverse. -/
theorem toWireReverses : Obligations.ToWireReverses := by
  intro v s
  refine ⟨rfl, ?_⟩
  change Host.Outcome.next { s with result := .bits v.reverse.reverse } = _
  rw [List.reverse_reverse]

/-! ### Names the image does not have -/

theorem not_namesOnly_of_mem {keys : List FieldKey} {fs : Fields} (h : ∃ kv ∈ fs, kv.1 ∉ keys) :
    ¬ namesOnly keys fs = true := by
  obtain ⟨kv, hmem, hkey⟩ := h
  exact fun hall => hkey (of_decide_eq_true (List.all_eq_true.mp hall kv hmem))

/-- Settles O12: an encoder answers an image only where it knows every name. -/
theorem unknownFieldRefused : Obligations.UnknownFieldRefused := fun fs s =>
  ⟨fun h => (exec_encCfg fs s).trans (if_neg (not_namesOnly_of_mem h)),
    fun h => (exec_encCore fs s).trans (if_neg (not_namesOnly_of_mem h)),
    fun h => (exec_encChar fs s).trans (if_neg (not_namesOnly_of_mem h))⟩

/-! ### Images of fixed length, read back -/

/-- Instruction `i` in state `s` makes the image of `value` in `layout`, if it answers a next state at all. -/
def Makes (i : Instr) (s : State) (value : FieldKey → Int) (layout : List Slot) : Prop :=
  ∀ t, exec i s = .next t → t = { s with result := .bits (encodeLayout value layout) }

theorem makes_of_exec {i : Instr} {s : State} {value : FieldKey → Int} {layout : List Slot} {c : Bool}
    (h : exec i s = if c then .next { s with result := .bits (encodeLayout value layout) }
      else .refused .unknownField) : Makes i s value layout := by
  intro t ht
  rw [h] at ht
  cases c with
  | false => cases ht
  | true => exact (Host.Outcome.next.inj ht).symm

theorem encCfg_makes (fs : Fields) (s : State) : Makes (.encCfg fs) s (fieldValue fs) cfgLayout :=
  makes_of_exec (exec_encCfg fs s)

theorem encCore_makes (fs : Fields) (s : State) : Makes (.encCore fs) s (coreValue s.params fs) coreLayout :=
  makes_of_exec (exec_encCore fs s)

theorem encChar_makes (fs : Fields) (s : State) : Makes (.encChar fs) s (fieldValue fs) charLayout :=
  makes_of_exec (exec_encChar fs s)

/-- The length of an image is the layout's (R126). -/
theorem Makes.length {i : Instr} {s t : State} {value : FieldKey → Int} {layout : List Slot}
    (h : Makes i s value layout) (ht : exec i s = .next t) :
    ∃ v, t.result = .bits v ∧ v.length = (layout.map Slot.width).sum :=
  ⟨_, congrArg State.result (h t ht), length_encodeLayout value layout⟩

/-- Settles O7: the widths of each layout add up to its variant's length. -/
theorem fixedLength : Obligations.FixedLength := fun fs s _ =>
  ⟨(encCfg_makes fs s).length, (encCore_makes fs s).length, (encChar_makes fs s).length⟩

/-- A decoder that reads `layout` gives back what was encoded in it (R131), before and after two reversals (R130). -/
theorem Makes.decodes {i : Instr} {s : State} {value : FieldKey → Int} {layout : List Slot} {dec : Bits → Instr}
    (h : Makes i s value layout) (hdec : Reads dec layout (layout.map Slot.width).sum) :
    ∀ t, exec i s = .next t → ∃ v, t.result = .bits v
      ∧ exec (dec v) t = .next { t with result := .fields (layout.map (readBack value)) }
      ∧ exec (dec v.reverse.reverse) t = .next { t with result := .fields (layout.map (readBack value)) } := by
  intro t ht
  have hread : exec (dec (encodeLayout value layout)) t
      = .next { t with result := .fields (layout.map (readBack value)) } := by
    rw [hdec _ t, if_pos (length_encodeLayout value layout), decodeLayout_encodeLayout]
  refine ⟨_, congrArg State.result (h t ht), hread, ?_⟩
  rw [List.reverse_reverse]
  exact hread

/-- Settles O14: each decoder reads the layout its encoder wrote. -/
theorem codecRoundTrip : Obligations.CodecRoundTrip := fun fs s =>
  ⟨(encCfg_makes fs s).decodes decCfg_reads, (encCore_makes fs s).decodes decCore_reads,
    (encChar_makes fs s).decodes decChar_reads⟩

/-! ### Images written out field by field -/

@[simp] theorem bits_globalSlot (value : FieldKey → Int) (name : FieldName) (w : Nat) :
    Slot.bits value (globalSlot name w) = be w (value ⟨name, none⟩) := rfl
@[simp] theorem bits_laneSlot (value : FieldKey → Int) (i : Nat) (name : FieldName) (w : Nat) :
    Slot.bits value (laneSlot i name w) = be w (value ⟨name, some i⟩) := rfl
@[simp] theorem bits_zeroSlot (value : FieldKey → Int) (key : FieldKey) (w : Nat) :
    Slot.bits value (.zero key w) = List.replicate w false := rfl

theorem encodeLayout_nil (value : FieldKey → Int) : encodeLayout value [] = [] := rfl

/-- Settles O4: the layout of R84 lists the fields in the order of R123. -/
theorem encCfgImage : Obligations.EncCfgImage := by
  intro fs s f g lane v
  have hlane (i : Nat) : encodeLayout (fieldValue fs) (cfgLaneSlots i) = lane i := by
    simp only [cfgLaneSlots, encodeLayout_cons, encodeLayout_nil, bits_laneSlot, lane, g, List.append_assoc,
      List.append_nil]
  have himage : encodeLayout (fieldValue fs) cfgLayout = v := by
    simp only [cfgLayout, guardHeadSlot, guardTailSlot, encodeLayout_append, hlane, encodeLayout_cons,
      encodeLayout_nil, bits_globalSlot, bits_zeroSlot, v, f, List.replicate, List.append_assoc, List.append_nil]
  rw [← himage]
  exact ⟨length_encodeLayout .., exec_encCfg fs s⟩

/-- Settles O6: the layout of R86 lists the fields in the order of R125. -/
theorem encCharImage : Obligations.EncCharImage := by
  intro fs s hnames g lane v
  have hlane (i : Nat) : encodeLayout (fieldValue fs) (charLaneSlots i) = lane i := by
    simp only [charLaneSlots, encodeLayout_cons, encodeLayout_nil, bits_laneSlot, lane, g, List.append_assoc,
      List.append_nil]
  have himage : encodeLayout (fieldValue fs) charLayout = v := by
    simp only [charLayout, guardHeadSlot, guardTailSlot, encodeLayout_append, hlane, encodeLayout_cons,
      encodeLayout_nil, bits_zeroSlot, v, List.replicate, List.append_assoc, List.append_nil]
  rw [← himage]
  refine ⟨fun i => ?_, length_encodeLayout .., (exec_encChar fs s).trans (if_pos hnames)⟩
  rw [← hlane i]
  exact length_encodeLayout ..

/-! ### The lane blocks of CORE -/

/-- A field that is no lane block has the value given, or 0 (R124). -/
theorem coreValue_of_not_lane (p : Params) (fs : Fields) {key : FieldKey} (h : ¬ ∃ i, key = ⟨.laneCtl, some i⟩) :
    coreValue p fs key = fieldValue fs key := by
  unfold coreValue
  split
  next i => exact absurd ⟨i, rfl⟩ h
  next => rfl

theorem coreValue_global (p : Params) (fs : Fields) (name : FieldName) :
    coreValue p fs ⟨name, none⟩ = fieldValue fs ⟨name, none⟩ :=
  coreValue_of_not_lane p fs (by simp)

/-- A lane block that is not given ready is composed from the names of `LANE_CTL_LAYOUT` (R124). -/
theorem coreValue_lane_named (p : Params) {fs : Fields} {i : Nat} (h : fieldValue? fs ⟨.laneCtl, some i⟩ = none) :
    coreValue p fs ⟨.laneCtl, some i⟩ = ((ube (laneLayoutBits p fs i) : Nat) : Int) := by
  simp only [coreValue, h]

/-- A lane block given ready, and by name too or not (R124; log entry 17). -/
theorem coreValue_lane_ready (p : Params) {fs : Fields} {i : Nat} {v : Int}
    (h : fieldValue? fs ⟨.laneCtl, some i⟩ = some v) :
    coreValue p fs ⟨.laneCtl, some i⟩ = if laneTwice p fs i then
      ((Config.laneGivenTwice (BitVec.ofInt 26 v) (BitVec.ofNat 26 (ube (laneLayoutBits p fs i)))).toNat : Int)
      else v := by
  simp only [coreValue, h]

/-- Without names a lane block that is not given is 0; with names they fill its 26 bits (R124). -/
theorem be_laneLayoutBits {p : Params} (hp : p.wf = true) (fs : Fields) (i : Nat) :
    be 26 ((ube (laneLayoutBits p fs i) : Nat) : Int)
      = if p.laneLayout = [] then be 26 0 else laneLayoutBits p fs i := by
  split
  next hnone => rw [laneLayoutBits, hnone]; rfl
  next hsome =>
    obtain ⟨hwidths, -⟩ := (wf_lanes hp).resolve_left hsome
    exact be_ube ((length_laneLayoutBits p fs i).trans hwidths)

/-- Settles O5: the layout of R85 lists the fields in the order of R124, and a lane block is what `coreValue` says. -/
theorem encCoreImage : Obligations.EncCoreImage := by
  intro fs s hp f lane v
  have hlane (i : Nat) : be 26 (coreValue s.params fs ⟨.laneCtl, some i⟩) = lane i := by
    cases hready : fieldValue? fs ⟨.laneCtl, some i⟩ with
    | none =>
      rw [coreValue_lane_named _ hready, be_laneLayoutBits hp]
      simp only [lane, hready, laneLayoutBits]
    | some x =>
      rw [coreValue_lane_ready _ hready, apply_ite (be 26)]
      simp only [lane, hready]
  have himage : encodeLayout (coreValue s.params fs) coreLayout = v := by
    simp only [coreLayout, guardHeadSlot, guardTailSlot, encodeLayout_cons, encodeLayout_nil,
      bits_globalSlot, bits_laneSlot, bits_zeroSlot, coreValue_global, hlane, v, f, List.replicate, List.append_assoc,
      List.append_nil, List.cons_append, List.nil_append]
  rw [← himage]
  exact ⟨length_encodeLayout .., exec_encCore fs s⟩

/-! ### Fields read at the running index -/

theorem decodeLayout_nil (v : Bits) : decodeLayout [] v = [] := rfl

theorem decodeLayout_slot (slot : Slot) (rest : List Slot) (v : Bits) (i : Nat) :
    decodeLayout (slot :: rest) (v.drop i)
      = (slot.key, (ube (slice v i slot.width) : Int)) :: decodeLayout rest (v.drop (i + slot.width)) :=
  decodeLayout_at (slot :: rest) v i

/-- The fields of `as` are read first, those of `bs` from where they end (R88). -/
theorem decodeLayout_append (as bs : List Slot) (v : Bits) (i : Nat) :
    decodeLayout (as ++ bs) (v.drop i)
      = decodeLayout as (v.drop i) ++ decodeLayout bs (v.drop (i + (as.map Slot.width).sum)) := by
  induction as generalizing i with
  | nil => rfl
  | cons slot as ih =>
    rw [List.cons_append, decodeLayout_slot, decodeLayout_slot, ih, List.map_cons, List.sum_cons, Nat.add_assoc]
    rfl

/-- A block of known width is read, and the index moves past it. -/
theorem decodeLayout_block {as : List Slot} {w : Nat} (h : (as.map Slot.width).sum = w) (bs : List Slot) (v : Bits)
    (i : Nat) : decodeLayout (as ++ bs) (v.drop i) = decodeLayout as (v.drop i) ++ decodeLayout bs (v.drop (i + w)) :=
  h ▸ decodeLayout_append as bs v i

theorem ube_slice_bit (v : Bits) (i : Nat) : (ube (slice v i 1) : Int) = bitValue (bitAt v i) :=
  congrArg Nat.cast (ube_slice_one v i)

/-- A lane block of CFG, read at the indices of R84. -/
theorem decodeLayout_cfgLane (i : Nat) (v : Bits) (b : Nat) :
    decodeLayout (cfgLaneSlots i) (v.drop b) =
      [(⟨.coreWe, some i⟩, bitValue (bitAt v b)), (⟨.tuningWe, some i⟩, bitValue (bitAt v (b + 1))),
       (⟨.debugWe, some i⟩, bitValue (bitAt v (b + 2))), (⟨.charWe, some i⟩, bitValue (bitAt v (b + 3))),
       (⟨.unshadowedWe, some i⟩, bitValue (bitAt v (b + 4)))] := by
  simp only [cfgLaneSlots, laneSlot, decodeLayout_slot, decodeLayout_nil, Slot.key, Slot.width, ube_slice_bit,
    Nat.add_assoc, Nat.reduceAdd]

/-- A lane block of CHAR, read at the indices of R129. -/
theorem decodeLayout_charLane (i : Nat) (v : Bits) (b : Nat) :
    decodeLayout (charLaneSlots i) (v.drop b) =
      [(⟨.testfail, some i⟩, bitValue (bitAt v b)), (⟨.ecount, some i⟩, (ube (slice v (b + 1) 12) : Int)),
       (⟨.esword, some i⟩, (ube (slice v (b + 13) 8) : Int)), (⟨.es, some i⟩, (ube (slice v (b + 21) 4) : Int)),
       (⟨.phaseOffset, some i⟩, (ube (slice v (b + 25) 7) : Int)),
       (⟨.bitSelect, some i⟩, (ube (slice v (b + 32) 5) : Int)),
       (⟨.voltageOffset, some i⟩, (ube (slice v (b + 37) 6) : Int)),
       (⟨.voltageOffsetOverride, some i⟩, bitValue (bitAt v (b + 43))),
       (⟨.scanLen, some i⟩, (ube (slice v (b + 44) 2) : Int)), (⟨.scanRun, some i⟩, bitValue (bitAt v (b + 46))),
       (⟨.scanDone, some i⟩, bitValue (bitAt v (b + 47)))] := by
  simp only [charLaneSlots, laneSlot, decodeLayout_slot, decodeLayout_nil, Slot.key, Slot.width, ube_slice_bit,
    Nat.add_assoc, Nat.reduceAdd]

/-- What a decoder answers, once the fields of its layout are known. -/
theorem Reads.fields {dec : Bits → Instr} {layout : List Slot} {n : Nat} {fields : Fields} (h : Reads dec layout n)
    (v : Bits) (s : State) (hfields : decodeLayout layout v = fields) :
    (v.length ≠ n → exec (dec v) s = .refused .wrongLength)
    ∧ (v.length = n → exec (dec v) s = .next { s with result := .fields fields }) :=
  ⟨fun hn => (h v s).trans (if_neg hn), fun hn => hfields ▸ (h v s).trans (if_pos hn)⟩

/-- Settles O9: the indices of R84 are the running sums of its widths. -/
theorem decCfgFields : Obligations.DecCfgFields := by
  refine fun v s => decCfg_reads.fields v s ?_
  change decodeLayout cfgLayout (v.drop 0) = _
  rw [cfgLayout, decodeLayout_block (w := 23) rfl, decodeLayout_block (w := 18) rfl,
    decodeLayout_block (w := 13) rfl, decodeLayout_block (w := 8) rfl, decodeLayout_block (w := 3) rfl]
  simp only [guardHeadSlot, guardTailSlot, globalSlot, decodeLayout_slot, decodeLayout_nil, decodeLayout_cfgLane,
    Slot.key, Slot.width, ube_slice_bit, Nat.reduceAdd]
  rfl

/-- Settles O10: the indices of R128 are the running sums of the widths of R85. -/
theorem decCoreFields : Obligations.DecCoreFields := by
  refine fun v s => decCore_reads.fields v s ?_
  change decodeLayout coreLayout (v.drop 0) = _
  rw [coreLayout, decodeLayout_block (w := 119) rfl, decodeLayout_block (w := 15) rfl]
  simp only [guardHeadSlot, guardTailSlot, globalSlot, laneSlot, decodeLayout_slot, decodeLayout_nil, Slot.key,
    Slot.width, ube_slice_bit, Nat.reduceAdd]
  rfl

/-- Settles O11: lane `i` of R86 begins at `2 + 48 i`, and the indices of R129 are the running sums of its widths. -/
theorem decCharFields : Obligations.DecCharFields := by
  refine fun v s => decChar_reads.fields v s ?_
  change decodeLayout charLayout (v.drop 0) = _
  rw [charLayout, decodeLayout_block (w := 194) rfl, decodeLayout_block (w := 146) rfl,
    decodeLayout_block (w := 98) rfl, decodeLayout_block (w := 50) rfl, decodeLayout_block (w := 2) rfl]
  simp only [guardHeadSlot, guardTailSlot, decodeLayout_slot, decodeLayout_nil, decodeLayout_charLane,
    Slot.key, Slot.width, ube_slice_bit, Nat.reduceAdd]
  rfl

/-! ### Masking (R121) -/

/-- `value` reduced modulo 2 to the declared width of `key`, where `key` has one: what `reduced` does to one entry. -/
def residue (p : Params) (layout : List Slot) (key : FieldKey) (value : Int) : Int :=
  match fieldWidth p layout key with
  | some w => value % ((2 ^ w : Nat) : Int)
  | none => value

theorem residue_of_width {p : Params} {layout : List Slot} {key : FieldKey} {w : Nat}
    (h : fieldWidth p layout key = some w) (value : Int) :
    residue p layout key value = value % ((2 ^ w : Nat) : Int) := by
  rw [residue, h]

theorem reduced_cons (p : Params) (layout : List Slot) (kv : FieldKey × Int) (fs : Fields) :
    reduced p layout (kv :: fs) = (kv.1, residue p layout kv.1 kv.2) :: reduced p layout fs := rfl

/-- Reducing a field map reduces the value of each key. -/
theorem fieldValue?_reduced (p : Params) (layout : List Slot) (fs : Fields) (key : FieldKey) :
    fieldValue? (reduced p layout fs) key = (fieldValue? fs key).map (residue p layout key) := by
  induction fs with
  | nil => rfl
  | cons kv fs ih =>
    rw [reduced_cons]
    by_cases hkey : kv.1 = key
    · subst hkey
      simp [fieldValue?]
    · simpa [fieldValue?, hkey] using ih

theorem isSome_fieldValue?_reduced (p : Params) (layout : List Slot) (fs : Fields) (key : FieldKey) :
    (fieldValue? (reduced p layout fs) key).isSome = (fieldValue? fs key).isSome := by
  rw [fieldValue?_reduced, Option.isSome_map]

theorem namesOnly_reduced (keys : List FieldKey) (p : Params) (layout : List Slot) (fs : Fields) :
    namesOnly keys (reduced p layout fs) = namesOnly keys fs := List.all_map

/-- A field written at its declared width has the same bits before and after the reduction. -/
theorem be_fieldValue_reduced {p : Params} {layout : List Slot} {key : FieldKey} {w : Nat}
    (h : fieldWidth p layout key = some w) (fs : Fields) :
    be w (fieldValue (reduced p layout fs) key) = be w (fieldValue fs key) := by
  rw [fieldValue, fieldValue, fieldValue?_reduced]
  cases fieldValue? fs key with
  | none => rfl
  | some x =>
    rw [Option.map_some, Option.getD_some, Option.getD_some, residue_of_width h]
    exact be_emod w x

/-- In a list without a repeated key, searching for the key of a member finds it. -/
theorem find?_key_of_mem {α β : Type} [DecidableEq β] {key : α → β} {l : List α} (hn : (l.map key).Nodup) {a : α}
    (h : a ∈ l) : l.find? (fun b => decide (key b = key a)) = some a := by
  induction l with
  | nil => cases h
  | cons b l ih =>
    obtain ⟨hfresh, hrest⟩ := List.nodup_cons.mp hn
    rcases List.mem_cons.mp h with rfl | h
    · simp
    · have hne : key b ≠ key a := fun heq => hfresh (heq ▸ List.mem_map_of_mem h)
      simpa [hne] using ih hrest h

/-- The declared width of a field of the image is that of its slot. -/
theorem fieldWidth_of_mem (p : Params) {layout : List Slot} (hn : (layout.map Slot.key).Nodup) {slot : Slot}
    (h : slot ∈ layout) : fieldWidth p layout slot.key = some slot.width := by
  rw [fieldWidth, find?_key_of_mem hn h]

theorem cfgLayout_slotKeys_nodup : (cfgLayout.map Slot.key).Nodup := by decide
theorem coreLayout_slotKeys_nodup : (coreLayout.map Slot.key).Nodup := by decide
theorem charLayout_slotKeys_nodup : (charLayout.map Slot.key).Nodup := by decide

/-- The declared width of a name of `LANE_CTL_LAYOUT` is the one given there; no field of CORE has such a name. -/
theorem fieldWidth_laneName {p : Params} (hn : (p.laneLayout.map Prod.fst).Nodup) {nw : Nat × Nat}
    (h : nw ∈ p.laneLayout) (lane : Option Nat) : fieldWidth p coreLayout ⟨.other nw.1, lane⟩ = some nw.2 := by
  have hnone : coreLayout.find? (fun s => decide (s.key = ⟨.other nw.1, lane⟩)) = none := rfl
  rw [fieldWidth, hnone]
  exact congrArg (Option.map Prod.snd) (find?_key_of_mem hn h)

/-- Images agree where their fields have the same bits (R88). -/
theorem encodeLayout_congr {value value' : FieldKey → Int} {layout : List Slot}
    (h : ∀ key w, .field key w ∈ layout → be w (value key) = be w (value' key)) :
    encodeLayout value layout = encodeLayout value' layout := by
  refine List.flatMap_congr fun slot hslot => ?_
  cases slot with
  | zero key w => rfl
  | field key w => exact h key w hslot

theorem encodeLayout_reduced (p : Params) {layout : List Slot} (hn : (layout.map Slot.key).Nodup) (fs : Fields) :
    encodeLayout (fieldValue (reduced p layout fs)) layout = encodeLayout (fieldValue fs) layout :=
  encodeLayout_congr fun _ _ hslot => be_fieldValue_reduced (fieldWidth_of_mem p hn hslot) fs

/-! ### Masking a lane block of CORE -/

theorem laneLayoutBits_reduced {p : Params} (hp : p.wf = true) (fs : Fields) (i : Nat) :
    laneLayoutBits p (reduced p coreLayout fs) i = laneLayoutBits p fs i := by
  have hn : (p.laneLayout.map Prod.fst).Nodup := by
    rcases wf_lanes hp with hnone | ⟨-, hn⟩
    · rw [hnone]
      exact List.nodup_nil
    · exact hn
  exact List.flatMap_congr fun nw hnw => be_fieldValue_reduced (fieldWidth_laneName hn hnw (some i)) fs

theorem laneTwice_reduced (p : Params) (layout : List Slot) (fs : Fields) (i : Nat) :
    laneTwice p (reduced p layout fs) i = laneTwice p fs i := by
  simp only [laneTwice, isSome_fieldValue?_reduced]

theorem ofInt_emod (w : Nat) (v : Int) : BitVec.ofInt w (v % ((2 ^ w : Nat) : Int)) = BitVec.ofInt w v := by
  apply BitVec.eq_of_toNat_eq
  rw [BitVec.toNat_ofInt, BitVec.toNat_ofInt, Int.emod_emod]

theorem coreLayout_lane_width : ∀ slot ∈ coreLayout, slot.key.name = .laneCtl → slot.width = 26 := by decide

/-- A lane block given ready enters the image by its residue, alone or in the free value of a lane given twice (log
entry 17); one that is not is composed from masked names. -/
theorem be_coreValue_lane_reduced {p : Params} (hp : p.wf = true) {i : Nat}
    (hslot : .field ⟨.laneCtl, some i⟩ 26 ∈ coreLayout) (fs : Fields) :
    be 26 (coreValue p (reduced p coreLayout fs) ⟨.laneCtl, some i⟩) = be 26 (coreValue p fs ⟨.laneCtl, some i⟩) := by
  have hwidth : fieldWidth p coreLayout ⟨.laneCtl, some i⟩ = some 26 :=
    fieldWidth_of_mem p coreLayout_slotKeys_nodup hslot
  have hreduced := fieldValue?_reduced p coreLayout fs ⟨.laneCtl, some i⟩
  cases hready : fieldValue? fs ⟨.laneCtl, some i⟩ with
  | none =>
    rw [hready, Option.map_none] at hreduced
    rw [coreValue_lane_named p hready, coreValue_lane_named p hreduced, laneLayoutBits_reduced hp]
  | some v =>
    rw [hready, Option.map_some, residue_of_width hwidth] at hreduced
    rw [coreValue_lane_ready p hready, coreValue_lane_ready p hreduced, laneTwice_reduced, laneLayoutBits_reduced hp,
      ofInt_emod, apply_ite (be 26), apply_ite (be 26), be_emod]

theorem be_coreValue_reduced {p : Params} (hp : p.wf = true) {key : FieldKey} {w : Nat}
    (hslot : .field key w ∈ coreLayout) (fs : Fields) :
    be w (coreValue p (reduced p coreLayout fs) key) = be w (coreValue p fs key) := by
  by_cases hlane : ∃ i, key = ⟨.laneCtl, some i⟩
  · obtain ⟨i, rfl⟩ := hlane
    obtain rfl : w = 26 := coreLayout_lane_width _ hslot rfl
    exact be_coreValue_lane_reduced hp hslot fs
  · rw [coreValue_of_not_lane p _ hlane, coreValue_of_not_lane p _ hlane]
    exact be_fieldValue_reduced (fieldWidth_of_mem p coreLayout_slotKeys_nodup hslot) fs

/-- Settles O8: an image takes each value at its declared width, where the residue has the same bits. -/
theorem masking : Obligations.Masking := by
  refine fun fs s => ⟨?_, ?_, fun hp => ?_⟩
  · rw [exec_encCfg, exec_encCfg, namesOnly_reduced, encodeLayout_reduced _ cfgLayout_slotKeys_nodup]
  · rw [exec_encChar, exec_encChar, namesOnly_reduced, encodeLayout_reduced _ charLayout_slotKeys_nodup]
  · rw [exec_encCore, exec_encCore, namesOnly_reduced,
      encodeLayout_congr fun key w hslot => be_coreValue_reduced hp hslot fs]

end Sys2Proof.Machine

/-! PROOFS. The daisy chain of 41_chain_addressing: the frames that `PAD_IR` and `PAD_DR` build, and the two ways in which
they build none (R150, R153, R157, R335). -/

namespace Sys2Proof.Machine

/-- The positions that R150 does not allow. -/
theorem validPosition_eq_false_iff {pos n : Nat} : validPosition pos n = false ↔ n < 1 ∨ pos < 1 ∨ n < pos := by
  simp only [validPosition, Bool.and_eq_false_iff, decide_eq_false_iff_not, Nat.not_le, or_assoc]

theorem validPosition_of_not_invalid {pos n : Nat} (h : ¬ (n < 1 ∨ pos < 1 ∨ n < pos)) : validPosition pos n = true := by
  rwa [← validPosition_eq_false_iff, Bool.not_eq_false] at h

/-! ### The frame procedures that build no frame -/

theorem padIr_of_length_ne {op : Bits} {s : State} (hop : op.length ≠ s.params.irLen) (pos n : Nat) :
    padIr op pos n s = .refused .wrongOpcodeWidth := if_neg hop

theorem padIr_of_invalid {op : Bits} {pos n : Nat} {s : State} (hop : op.length = s.params.irLen)
    (hv : validPosition pos n = false) : padIr op pos n s = raise (.configurationError (.position pos n)) s := by
  simp [padIr, hop, hv]

theorem padDr_of_length_le {v : Bits} {blk : Blk} (hl : v.length ≤ trim blk) (pos n : Nat) (s : State) :
    padDr v blk pos n s = .refused .vectorTooShort := if_neg (Nat.not_lt.mpr hl)

theorem padDr_of_invalid {v : Bits} {blk : Blk} {pos n : Nat} {s : State} (hl : trim blk < v.length)
    (hv : validPosition pos n = false) : padDr v blk pos n s = raise (.configurationError (.position pos n)) s := by
  simp [padDr, hl, hv]

/-! ### The commands -/

/-- With no error latched the command answers what the procedure does (R153). -/
theorem exec_padIr {s : State} (he : s.err = .none) (op : Bits) (pos n : Nat) :
    exec (.padIr op pos n) s = (padIr op pos n s).deliver .bits := by
  change (accept s.latched (padIr op pos n s)).deliver Result.bits = _
  rw [latched_of_none he, accept_none]

/-- With no error latched the command answers what the procedure does (R157). -/
theorem exec_padDr {s : State} (he : s.err = .none) (v : Bits) (blk : Blk) (pos n : Nat) :
    exec (.padDr v blk pos n) s = (padDr v blk pos n s).deliver .bits := by
  change (accept s.latched (padDr v blk pos n s)).deliver Result.bits = _
  rw [latched_of_none he, accept_none]

/-- Settles O17, by the branches of `padIr`: the width is looked at first, then the position. -/
theorem padIrFrame : Obligations.PadIrFrame := by
  intro op pos n s he hc natural
  rw [exec_padIr he]
  split_ifs with hwidth hposition
  · rw [padIr_of_length_ne hwidth]
    rfl
  · rw [padIr_of_invalid (not_not.mp hwidth) (validPosition_eq_false_iff.mpr hposition), deliver_raise hc]
  · have hop : op.length = s.params.irLen := not_not.mp hwidth
    have hv := validPosition_of_not_invalid hposition
    have hlength : natural.reverse.length = n * s.params.irLen := length_irFrameWire hv hop
    rw [padIr_eq hv hop]
    exact ⟨rfl, List.length_reverse ▸ hlength⟩

/-- Settles O18, by the branches of `padDr`: the vector's length is looked at first, then the position. -/
theorem padDrFrame : Obligations.PadDrFrame := by
  intro v blk pos n s he hc natural
  rw [exec_padDr he]
  split_ifs with hshort hposition
  · rw [padDr_of_length_le hshort]
    rfl
  · rw [padDr_of_invalid (Nat.not_le.mp hshort) (validPosition_eq_false_iff.mpr hposition), deliver_raise hc]
  · have hl : trim blk < v.length := Nat.not_le.mp hshort
    have hv := validPosition_of_not_invalid hposition
    have hlength : natural.reverse.length = n - 1 + v.length - trim blk := length_drFrameWire hv hl
    rw [padDr_eq hv hl]
    exact ⟨rfl, List.length_reverse ▸ hlength⟩

end Sys2Proof.Machine

/-! PROOFS. The TAP controller of 42_tap_controller: the tables of R172 and R180, what each command does when the
transport answers in full (R174 to R189), and what each refuses (R179, R180, R185, R187, R189, R190, R343). -/

namespace Sys2Proof.Machine

/-! ### The transition table and the shortest walks -/

/-- TMS = 1 keeps the TAP in Test-Logic-Reset (R172). -/
theorem tapWalk_reset_replicate (k : Nat) : tapWalk .testLogicReset (List.replicate k true) = .testLogicReset := by
  induction k with
  | zero => rfl
  | succ k ih => exact ih

theorem tapWalk_replicate_five {t : TapState} (ht : t ≠ .unknown) :
    tapWalk t (List.replicate 5 true) = .testLogicReset := by
  cases t
  case unknown => contradiction
  all_goals rfl

/-- Five cycles with TMS = 1 are enough, and further ones stay (R173). -/
theorem tapWalk_replicate {t : TapState} (ht : t ≠ .unknown) {k : Nat} (hk : 5 ≤ k) :
    tapWalk t (List.replicate k true) = .testLogicReset := by
  obtain ⟨more, rfl⟩ := Nat.exists_eq_add_of_le hk
  rw [List.replicate_add, tapWalk_append, tapWalk_replicate_five ht, tapWalk_reset_replicate]

/-- The sixteen states of R171, without the model's `Unknown` (R21). -/
def knownStates : List TapState :=
  [.testLogicReset, .runTestIdle, .selectDRScan, .captureDR, .shiftDR, .exit1DR, .pauseDR, .exit2DR, .updateDR,
   .selectIRScan, .captureIR, .shiftIR, .exit1IR, .pauseIR, .exit2IR, .updateIR]

theorem mem_knownStates {t : TapState} : t ∈ knownStates ↔ t ≠ .unknown := by
  cases t <;> decide

theorem tapPath_self (t : TapState) : tapPath t t = [] := by
  cases t <;> rfl

/-- The local check on the table of R180 that makes it one of shortest walks: an entry off the diagonal is a first cycle and
then the entry of the state it leads to, and from the state the other cycle leads to the way is no shorter. -/
theorem tapPath_table : ∀ s ∈ knownStates, ∀ t ∈ knownStates, s ≠ t →
    ∃ b, tapPath s t = b :: tapPath (tapNext s b) t ∧ (tapPath s t).length ≤ (tapPath (tapNext s !b) t).length := by
  decide

theorem tapNext_known {s : TapState} (hs : s ≠ .unknown) (b : Bool) : tapNext s b ≠ .unknown :=
  mt (tapNext_unknown_iff s b).mp hs

section
variable {s t : TapState} (hs : s ≠ .unknown) (ht : t ≠ .unknown)
include hs ht

theorem tapPath_step (hne : s ≠ t) : ∃ b, tapPath s t = b :: tapPath (tapNext s b) t
    ∧ (tapPath s t).length ≤ (tapPath (tapNext s !b) t).length :=
  tapPath_table s (mem_knownStates.mpr hs) t (mem_knownStates.mpr ht) hne

theorem tapPath_ne_nil (hne : s ≠ t) : tapPath s t ≠ [] := by
  obtain ⟨b, hb, -⟩ := tapPath_step hs ht hne
  simp [hb]

/-- The tabulated walk leads where it says (R180). -/
theorem tapWalk_tapPath : tapWalk s (tapPath s t) = t := by
  induction hpath : tapPath s t generalizing s with
  | nil => exact of_not_not fun hne => tapPath_ne_nil hs ht hne hpath
  | cons b rest ih =>
    have hne : s ≠ t := by rintro rfl; simp [tapPath_self] at hpath
    obtain ⟨c, hc, -⟩ := tapPath_step hs ht hne
    obtain ⟨rfl, hrest⟩ := List.cons.inj (hc.symm.trans hpath)
    exact ih (tapNext_known hs c) hrest

/-- A walk no longer than the tabulated one is that one: it begins with the same cycle, since the other one leads no
nearer (R180). -/
theorem eq_tapPath_of_length_le {seq : Bits} (hw : tapWalk s seq = t) (hl : seq.length ≤ (tapPath s t).length) :
    seq = tapPath s t := by
  induction seq generalizing s with
  | nil => rw [← hw, tapWalk_nil, tapPath_self]
  | cons b rest ih =>
    have hne : s ≠ t := by rintro rfl; simp [tapPath_self] at hl
    obtain ⟨c, hc, hother⟩ := tapPath_step hs ht hne
    have hshort := ih (tapNext_known hs b) hw
    rw [List.length_cons] at hl
    by_cases hbc : b = c
    · subst hbc
      rw [hc, List.length_cons] at hl
      rw [hc, ← hshort (Nat.le_of_succ_le_succ hl)]
    · rw [← Bool.eq_not.mpr hbc] at hother
      have hrest := hshort (by omega)
      rw [← hrest] at hother
      omega

end

/-- Settles O21: the walk of ones, and the two facts that the local check of the table carries along a walk. -/
theorem tapTableFacts : Obligations.TapTableFacts :=
  ⟨fun _ _ ht hk => tapWalk_replicate ht hk,
    fun _ _ hs ht => ⟨tapWalk_tapPath hs ht, fun _ hw hl => eq_tapPath_of_length_le hs ht hw hl⟩⟩

/-! ### Frames of cycles -/

theorem expandCycles_single (p : Params) (tms tdi : Bool) : expandCycles p [(tms, tdi)]
    = [sampleByte p false tms tdi p.rstInactive, sampleByte p true tms tdi p.rstInactive]
      ++ List.replicate p.rxLag (sampleByte p true tms tdi p.rstInactive) := rfl

/-- A frame of one cycle (R175). -/
theorem frameDone_single (s : State) (tms tdi : Bool) (rd : List Byte) :
    frameDone s [(tms, tdi)] rd = { (Exchange.transfer (expandCycles s.params [(tms, tdi)]) rd).after s with
      tap := tapNext s.tap tms
      curSel := if tapNext s.tap tms = .testLogicReset then none else s.curSel
      lines := restingLines s tms tdi } := by
  have hvisits : visitsReset s.tap [tms] = decide (tapNext s.tap tms = .testLogicReset) := by
    rw [visitsReset_cons, visitsReset_nil, Bool.or_false]
  simp only [frameDone, List.map_cons, List.map_nil, hvisits, decide_eq_true_eq]
  rfl

theorem getLastD_walkCycles (seq : Bits) : (walkCycles seq).getLastD (false, false) = (seq.getLastD false, false) := by
  simp only [walkCycles, List.getLastD_eq_getLast?, List.getLast?_map]
  cases seq.getLast? <;> rfl

/-- A frame of a walk: TDI is low in every cycle (R177). -/
theorem frameDone_walkCycles (s : State) (seq : Bits) (rd : List Byte) :
    frameDone s (walkCycles seq) rd = { (Exchange.transfer (expandCycles s.params (walkCycles seq)) rd).after s with
      tap := tapWalk s.tap seq
      curSel := if visitsReset s.tap seq then none else s.curSel
      lines := restingLines s (seq.getLastD false) false } := by
  simp only [frameDone, map_walkCycles, getLastD_walkCycles]

/-- Settles O22: `runCycles` of one cycle; the bit is that of the high sample, the second byte of the frame. -/
theorem tckCycleCompletes : Obligations.TckCycleCompletes := by
  intro tms tdi rd s hs hp p bytes hx
  have hbytes : expandCycles s.params [(tms, tdi)] = bytes := expandCycles_single s.params tms tdi
  rw [← hbytes] at hx ⊢
  change (accept s.noCycles (runCycles .tckCycle [(tms, tdi)] s)).deliver _ = _
  rw [noCycles_of_rawLive hs, accept_none, runCycles_eq _ hs.1 hp (List.cons_ne_nil _ _) hx, frameDone_single,
    List.length_singleton, tdoBits_succ]
  rfl

/-- Settles O23: `walk` of the sequence, which is none where it is empty. -/
theorem tmsWalkCompletes : Obligations.TmsWalkCompletes := by
  intro seq rd s hs hp
  have hexec : exec (.tmsWalk seq) s = (walk .tmsWalk seq s).deliver fun _ => .none := by
    change (accept s.noCycles (walk .tmsWalk seq s)).deliver _ = _
    rw [noCycles_of_rawLive hs, accept_none]
  rw [hexec]
  refine ⟨fun hnil => ?_, fun hne hx => ?_⟩
  · rw [hnil, walk_nil _ hs.1]
    rfl
  · rw [walk_eq _ hs.1 hp hne hx, frameDone_walkCycles]
    rfl

/-! ### Moving the TAP -/

/-- Settles O24: the exchanges are those that `tapReset` makes on each backend. -/
theorem tapResetCompletes : Obligations.TapResetCompletes := by
  intro rd b1 b2 s hs hp low high xs ha
  have hx : areTapReset s.params xs := by
    dsimp only [xs, areTapReset]
    cases s.params.backend with
    | raw => exact ⟨rd, rfl⟩
    | engine => exact ⟨b1, b2, rfl⟩
  change (tapReset .tapReset s).deliver _ = _
  rw [tapReset_eq _ hs hp hx ha]
  rfl

section
variable {s : State} (cmd : Command) {name : TapState}

/-- The walk of no cycles, where the TAP is already in the state named (R180). -/
theorem walk_tapPath_of_eq (hs : s.Live) (heq : s.tap = name) : walk cmd (tapPath s.tap name) s = .ok () s := by
  rw [heq, tapPath_self, walk_nil cmd hs]

/-- The shortest walk to another state, answered in full, ends there (R180). -/
theorem walk_tapPath_of_ne {rd : List Byte} (hs : s.Live) (hp : s.params.wf = true) (ht : s.tap ≠ .unknown)
    (hn : name ≠ .unknown) (hne : s.tap ≠ name)
    (hx : (Exchange.transfer (expandCycles s.params (walkCycles (tapPath s.tap name))) rd).answered s) :
    walk cmd (tapPath s.tap name) s
      = .ok () { (Exchange.transfer (expandCycles s.params (walkCycles (tapPath s.tap name))) rd).after s with
        tap := name
        curSel := if visitsReset s.tap (tapPath s.tap name) then none else s.curSel
        lines := restingLines s ((tapPath s.tap name).getLastD false) false } := by
  rw [walk_eq cmd hs hp (tapPath_ne_nil ht hn hne) hx, frameDone_walkCycles, tapWalk_tapPath ht hn]

variable (ht : s.tap ≠ .unknown)
include ht

theorem goIdle_raw (hs : s.RawLive) : goIdle cmd s = walk cmd (tapPath s.tap .runTestIdle) s := by
  rw [goIdle, notLive_of_live hs.1, accept_none, if_neg ht, hs.2]

theorem goIdle_engine {bits : Bits} (hs : s.EngineLive) (hx : (Exchange.call .goIdle bits).answered s) :
    goIdle cmd s = .ok () (trackTo .runTestIdle ((Exchange.call .goIdle bits).after s)) := by
  rw [goIdle, notLive_of_live hs.1, accept_none, if_neg ht, hs.2]
  exact congrArg (Res.bind · _) (engineDo_eq cmd hx)

theorem changeState_raw (hs : s.RawLive) : changeState cmd name s = walk cmd (tapPath s.tap name) s := by
  rw [changeState, notLive_of_live hs.1, accept_none, if_neg ht, hs.2]

theorem changeState_engine {bits : Bits} (hs : s.EngineLive)
    (hx : (Exchange.call (.changeState name) bits).answered s) :
    changeState cmd name s = .ok () (trackTo name ((Exchange.call (.changeState name) bits).after s)) := by
  rw [changeState, notLive_of_live hs.1, accept_none, if_neg ht, hs.2]
  exact congrArg (Res.bind · _) (engineDo_eq cmd hx)

end

/-- Settles O25: the shortest walk to Run-Test/Idle on RAW, what `trackTo` records of it on ENGINE. -/
theorem goIdleCompletes : Obligations.GoIdleCompletes := by
  intro rd bits s hs hp ht path frame
  change (_ → _ → (goIdle .goIdle s).deliver _ = _) ∧ (_ → _ → _ → (goIdle .goIdle s).deliver _ = _)
    ∧ (_ → _ → (goIdle .goIdle s).deliver _ = _)
  refine ⟨fun hb heq => ?_, fun hb hne hx => ?_, fun hb hx => ?_⟩
  · rw [goIdle_raw _ ht ⟨hs, hb⟩, walk_tapPath_of_eq _ hs heq]
    rfl
  · rw [goIdle_raw _ ht ⟨hs, hb⟩, walk_tapPath_of_ne _ hs hp ht (by decide) hne hx]
    rfl
  · rw [goIdle_engine _ ht ⟨hs, hb⟩ hx, trackTo_eq]
    simp only [reduceCtorEq, or_false]
    rfl

/-- Settles O26: the shortest walk to the state named on RAW, what `trackTo` records of it on ENGINE. -/
theorem changeStateCompletes : Obligations.ChangeStateCompletes := by
  intro name rd bits s hs hp ht hn path frame
  change (_ → _ → (changeState .changeState name s).deliver _ = _)
    ∧ (_ → _ → _ → (changeState .changeState name s).deliver _ = _)
    ∧ (_ → _ → (changeState .changeState name s).deliver _ = _)
  refine ⟨fun hb heq => ?_, fun hb hne hx => ?_, fun hb hx => ?_⟩
  · rw [changeState_raw _ ht ⟨hs, hb⟩, walk_tapPath_of_eq _ hs heq]
    rfl
  · rw [changeState_raw _ ht ⟨hs, hb⟩, walk_tapPath_of_ne _ hs hp ht hn hne hx]
    rfl
  · rw [changeState_engine _ ht ⟨hs, hb⟩ hx, trackTo_eq]
    rfl

/-! ### Register writes -/

/-- Settles O27, by the equation of a write answered in full. -/
theorem writeIrCompletes : Obligations.WriteIrCompletes :=
  fun _ _ _ hs hp ht hw hx ha => exec_writeIr_of_answered ⟨hs, hp, ht⟩ hw hx ha

/-- Settles O28, by the equation of a write answered in full and the length of its reply. -/
theorem writeDrCompletes : Obligations.WriteDrCompletes :=
  fun _ _ _ hs hp ht hw hx ha => ⟨isDr_reply_length hx, exec_writeDr_of_answered ⟨hs, hp, ht⟩ hw hx ha⟩

/-! ### The reset line -/

theorem flush_of_getLast? (p : Params) {bytes : List Byte} {b : Byte} (h : bytes.getLast? = some b) :
    flush p bytes = List.replicate p.rxLag b := by
  simp only [flush, h]

/-- The flush repeats the last sample, so that the lines rest at its levels (R225). -/
theorem linesAfter_flush (p : Params) (old : Lines) {bytes : List Byte} {b : Byte} (h : bytes.getLast? = some b) :
    linesAfter p old (bytes ++ List.replicate p.rxLag b) = sampleLevels p old b := by
  have hlast : (bytes ++ List.replicate p.rxLag b).getLast? = some b := by
    rw [List.getLast?_append, List.getLast?_replicate, h]
    split <;> rfl
  simp only [linesAfter, hlast]

/-- The samples of `HW_RESET` before the flush: the pulse, then the walk (R186). -/
def hwResetSamples (p : Params) (l : Lines) (hw tapr : Bool) : List Byte :=
  (if hw then List.replicate p.rstPulseSamples (sampleByte p l.tck l.tms l.tdi !p.rstInactive)
    ++ [sampleByte p l.tck l.tms l.tdi p.rstInactive] else [])
  ++ if tapr then (walkCycles [true, true, true, true, true]).flatMap (cycleBytes p) else []

/-- The last of them: that of the walk, or the released one of the pulse. -/
def hwResetLast (p : Params) (l : Lines) (tapr : Bool) : Byte :=
  if tapr then sampleByte p true true false p.rstInactive else sampleByte p l.tck l.tms l.tdi p.rstInactive

/-- `HW_RESET` does something: the pulse, the walk or both (R186). -/
theorem hwReset_any {hw tapr : Bool} : ¬ (hw = false ∧ tapr = false) ↔ hw = true ∨ tapr = true := by
  rw [not_and_or, Bool.not_eq_false, Bool.not_eq_false]

section
variable {hw tapr : Bool} (hany : hw = true ∨ tapr = true)
include hany

theorem getLast?_hwResetSamples (p : Params) (l : Lines) :
    (hwResetSamples p l hw tapr).getLast? = some (hwResetLast p l tapr) := by
  cases tapr with
  | true => simp [hwResetSamples, hwResetLast, walkCycles, cycleBytes]
  | false =>
    obtain rfl : hw = true := by simpa using hany
    simp [hwResetSamples, hwResetLast]

theorem hwResetBytes_eq (p : Params) (l : Lines) :
    hwResetBytes p l hw tapr = hwResetSamples p l hw tapr ++ List.replicate p.rxLag (hwResetLast p l tapr) := by
  rw [← flush_of_getLast? p (getLast?_hwResetSamples hany p l)]
  rfl

/-- The updates of `HW_RESET` that does anything (R186). -/
theorem afterHwReset_eq (s : State) : afterHwReset hw tapr s = { s with
    tap := if tapr then .testLogicReset else .unknown
    curSel := none
    lines := if tapr then { s.lines with tck := true, tms := true, tdi := false } else s.lines } := by
  cases tapr with
  | true => cases hw <;> rfl
  | false =>
    obtain rfl : hw = true := by simpa using hany
    rfl

variable {s : State} (hline : ¬ (hw = true ∧ s.params.hasRst = false))
include hline

/-- The lines after the frame are the walk's at rest, or the pulse's with the reset line released (R186, R224). -/
theorem linesAfter_hwReset (hp : s.params.wf = true) :
    (if tapr then { linesAfter s.params s.lines (hwResetBytes s.params s.lines hw tapr) with
        tck := true, tms := true, tdi := false }
      else linesAfter s.params s.lines (hwResetBytes s.params s.lines hw tapr))
      = if tapr then restingLines s true false else { s.lines with rst := s.params.rstInactive } := by
  rw [hwResetBytes_eq hany, linesAfter_flush _ _ (getLast?_hwResetSamples hany _ _)]
  cases tapr with
  | true => simp [hwResetLast, sampleLevels_sampleByte hp, restingLines]
  | false =>
    obtain rfl : hw = true := by simpa using hany
    have hrst : s.params.hasRst = true := by simpa using hline
    simp [hwResetLast, sampleLevels_sampleByte hp, hrst]

/-- `HW_RESET` on RAW whose frame is answered in full (R186). -/
theorem hwReset_raw (cmd : Command) {rd : List Byte} (hs : s.RawLive) (hp : s.params.wf = true)
    (hx : (Exchange.transfer (hwResetBytes s.params s.lines hw tapr) rd).answered s) :
    hwReset cmd hw tapr s
      = .ok () { (Exchange.transfer (hwResetBytes s.params s.lines hw tapr) rd).after s with
        tap := if tapr then .testLogicReset else .unknown
        curSel := none
        lines := if tapr then restingLines s true false else { s.lines with rst := s.params.rstInactive } } := by
  rw [hwReset, notLive_of_live hs.1, accept_none, if_neg (hwReset_any.mpr hany), if_neg hline, hs.2]
  dsimp only
  rw [bbXfer_eq cmd hx, bind_ok, afterHwReset_eq hany]
  dsimp only
  rw [linesAfter_hwReset hany hline hp]

/-- `HW_RESET` on ENGINE whose call is answered (R186). -/
theorem hwReset_engine (cmd : Command) {bits : Bits} (hs : s.EngineLive)
    (hx : (Exchange.call (.reset hw tapr) bits).answered s) :
    hwReset cmd hw tapr s = .ok () (afterHwReset hw tapr ((Exchange.call (.reset hw tapr) bits).after s)) := by
  rw [hwReset, notLive_of_live hs.1, accept_none, if_neg (hwReset_any.mpr hany), if_neg hline, hs.2]
  exact congrArg (Res.bind · _) (engineDo_eq cmd hx)

end

/-- Settles O29, by the branches of `hwReset`; the frame written out is `hwResetBytes`. -/
theorem hwResetCompletes : Obligations.HwResetCompletes := by
  intro hw tapr rd bits s hs hp p held pulse cycle walk last frame call
  change if _ then (hwReset .hwReset hw tapr s).deliver _ = _
    else if _ then (hwReset .hwReset hw tapr s).deliver _ = _
    else (_ → _ → (hwReset .hwReset hw tapr s).deliver _ = _) ∧ (_ → _ → (hwReset .hwReset hw tapr s).deliver _ = _)
  split
  next hnone =>
    rw [hwReset, notLive_of_live hs, accept_none, if_pos hnone]
    rfl
  next hnone =>
  split
  next hline =>
    rw [hwReset, notLive_of_live hs, accept_none, if_neg hnone, if_pos hline]
    rfl
  next hline =>
    have hany := hwReset_any.mp hnone
    have hframe : frame = .transfer (hwResetBytes s.params s.lines hw tapr) rd := by
      rw [hwResetBytes_eq hany]
      rfl
    refine ⟨fun hb hx => ?_, fun hb hx => ?_⟩
    · rw [hframe] at hx ⊢
      rw [hwReset_raw hany hline _ ⟨hs, hb⟩ hp hx]
      rfl
    · rw [hwReset_engine hany hline _ ⟨hs, hb⟩ hx, afterHwReset_eq hany]
      rfl

/-! ### Opening and closing -/

/-- Settles O30, by the branches of `openTransport`. -/
theorem openCompletes : Obligations.OpenCompletes := by
  intro connection bits s call
  change (_ → _ → _ → (openTransport .openChannel connection s).deliver _ = _)
    ∧ (_ → _ → _ → _ → (openTransport .openChannel connection s).deliver _ = _)
    ∧ (_ → _ → (openTransport .openChannel connection s).deliver _ = _)
  refine ⟨fun he hc hb => ?_, fun he hc hb hx => ?_, fun he hc => ?_⟩
  · rw [openTransport, latched_of_none he, accept_none, hc, hb]
    rfl
  · rw [openTransport, latched_of_none he, accept_none, hc, hb]
    dsimp only
    rw [engineDo_eq _ hx]
    rfl
  · rw [openTransport, latched_of_none he, accept_none, hc]
    rfl

theorem released_err (s : State) : (released s).err = s.err := by
  cases hc : s.chan <;> cases hb : s.params.backend <;> simp only [released, hc, hb]

theorem released_of_closed {s : State} (hc : s.chan = .closed) : released s = s := by
  simp only [released, hc]

theorem released_of_opened {s : State} (hc : s.chan = .opened) :
    (released s).chan = .closed ∧ (released s).tap = .unknown ∧ (released s).curSel = none := by
  cases hb : s.params.backend <;> simp only [released, hc, hb, and_self]

/-- Settles O31: the release, and what it leaves of an open and of a closed channel. -/
theorem closeCompletes : Obligations.CloseCompletes := by
  intro s hclose
  refine ⟨?_, released_err s, released_of_closed, released_of_opened⟩
  change (closeTransport s).deliver _ = _
  rw [closeTransport_eq hclose]
  rfl

/-! ### Refusals -/

/-- A command that is not accepted is refused, whatever it would have done. -/
theorem deliver_accept_some {α : Type} {no : Option Refusal} {r : Refusal} (h : no = some r) (k : Res α)
    (f : α → Result) : (accept no k).deliver f = .refused r := by
  rw [h]
  rfl

theorem noCycles_of_engineLive {s : State} (hs : s.EngineLive) : s.noCycles = some .engineHasNoCycles := by
  simp [State.noCycles, notLive_of_live hs.1, hs.2]

theorem noFraming_of_none {s : State} (he : s.err = .none) : s.noFraming = s.noCycles := if_pos he

theorem noWrite_nil (s : State) : s.noWrite [] = some .emptyShift := if_pos rfl

theorem noWrite_of_not_idle {s : State} {w : Bits} (hw : w ≠ []) (ht : s.tap ≠ .runTestIdle) :
    s.noWrite w = some .notInIdle := by
  rw [State.noWrite, if_neg hw, State.offIdle, if_neg ht]

section
variable {s : State} (hs : s.Live)
include hs

theorem exec_writeIr_refused {w : Bits} {r : Refusal} (h : s.noWrite w = some r) :
    exec (.writeIr w) s = .refused r := by
  change (accept s.notLive (accept (s.noWrite w) _)).deliver _ = _
  rw [notLive_of_live hs, accept_none, deliver_accept_some h]

theorem exec_writeDr_refused {w : Bits} {r : Refusal} (h : s.noWrite w = some r) :
    exec (.writeDr w) s = .refused r := by
  change (accept s.notLive (accept (s.noWrite w) _)).deliver _ = _
  rw [notLive_of_live hs, accept_none, deliver_accept_some h]

theorem exec_goIdle_of_unknown (ht : s.tap = .unknown) : exec .goIdle s = .refused .tapUnknown := by
  change (goIdle .goIdle s).deliver _ = _
  rw [goIdle, notLive_of_live hs, accept_none, if_pos ht]
  rfl

theorem exec_changeState_of_unknown (ht : s.tap = .unknown) (name : TapState) :
    exec (.changeState name) s = .refused .tapUnknown := by
  change (changeState .changeState name s).deliver _ = _
  rw [changeState, notLive_of_live hs, accept_none, if_pos ht]
  rfl

end

/-- Settles O32: each command's check that fails; the cycle-level ones share theirs. -/
theorem tapRefusals : Obligations.TapRefusals := by
  intro name w tms tdi seq cycles bytes first count s hs
  refine ⟨fun ht => ⟨exec_goIdle_of_unknown hs ht, exec_changeState_of_unknown hs ht name⟩,
    ⟨exec_writeIr_refused hs (noWrite_nil s), exec_writeDr_refused hs (noWrite_nil s)⟩,
    fun hw ht => ⟨exec_writeIr_refused hs (noWrite_of_not_idle hw ht),
      exec_writeDr_refused hs (noWrite_of_not_idle hw ht)⟩,
    fun hb => ?_⟩
  have hcycles := noCycles_of_engineLive ⟨hs, hb⟩
  have hframing := (noFraming_of_none hs.1).trans hcycles
  exact ⟨deliver_accept_some hcycles _ _, deliver_accept_some hcycles _ _, deliver_accept_some hframing _ _,
    deliver_accept_some hcycles _ _, deliver_accept_some hframing _ _⟩

theorem encodeCfg_nil : encodeCfg [] = .ok (encodeLayout (fieldValue []) cfgLayout) := rfl

section
variable {s : State} (he : s.err = .none) (hc : s.chan = .closed)
include he hc

theorem notLive_of_closed : s.notLive = some .channelClosed := by
  simp [State.notLive, he, hc]

theorem noCycles_of_closed : s.noCycles = some .channelClosed := by
  rw [State.noCycles, notLive_of_closed he hc]

/-- `CONFIGURE_BLOCK` is refused at the first of its transactions, whose image the host encodes before (R303). -/
theorem configureBlock_of_closed (blk : Blk) (coreParams : Fields) (pos n : Nat) :
    configureBlock blk coreParams pos n s = .refused .channelClosed := by
  rw [configureBlock, transactImage, encodeCfg_nil, ofExcept_ok, bind_ok, transact, notLive_of_closed he hc,
    accept_some, bind_refused, bind_refused]

end

/-- Settles O33: a command that needs the channel asks for it first, by one of the three checks that say so. -/
theorem closedRefuses : Obligations.ClosedRefuses := by
  intro i s he hc hneeds
  have hlive := notLive_of_closed he hc
  have hcycles := noCycles_of_closed he hc
  have hframing := (noFraming_of_none he).trans hcycles
  cases i
  case tckCycle | tmsWalk | bbXfer => exact deliver_accept_some hcycles _ _
  case bbExpand | bbExtract => exact deliver_accept_some hframing _ _
  case configureBlock blk coreParams pos n =>
    change (configureBlock blk coreParams pos n s).deliver _ = _
    rw [configureBlock_of_closed he hc, deliver_refused]
  case tapReset | goIdle | changeState | writeIr | writeDr | hwReset | select | shift | transact | bypassOpcode
      | opcR0Configuration | opcR0CoreInputs | opcR0Readback | opcR1Configuration | opcR1CoreInputs | opcR1Readback =>
    exact deliver_accept_some hlive _ _
  all_goals cases hneeds

end Sys2Proof.Machine

/-! PROOFS. The line multiplexer of 43_bitbang_framing: the waveforms of an expanded cycle list (R222 to R226), a
transfer answered in full (R230), and the TDO bits taken from the bytes read (R232). -/

namespace Sys2Proof.Machine

/-! ### Acceptance and answers -/

/-- On RAW a pure command of file 43 is accepted in a live state and after an error (R342; log entry 12). -/
theorem noFraming_of_raw {s : State} (hs : s.err = .none → s.chan = .opened) (hb : s.params.backend = .raw) :
    s.noFraming = none := by
  by_cases he : s.err = .none
  · exact (noFraming_of_none he).trans (noCycles_of_rawLive ⟨⟨he, hs he⟩, hb⟩)
  · rw [State.noFraming, if_neg he, if_pos hb]

theorem exec_bbExpand {s : State} (h : s.noFraming = none) (cycles : List (Bool × Bool)) :
    exec (.bbExpand cycles) s =
      if cycles = [] then .refused .emptyCycleList
      else .next { s with result := .bytes (expandCycles s.params cycles) } := by
  change (accept s.noFraming _).deliver Result.bytes = _
  rw [h, accept_none]
  split <;> rfl

theorem exec_bbXfer {s : State} (hs : s.RawLive) (bytes : List Byte) :
    exec (.bbXfer bytes) s =
      if bytes = [] then .refused .emptyTransfer else (bbXfer .bbXfer bytes s).deliver .bytes := by
  change (accept s.noCycles _).deliver Result.bytes = _
  rw [noCycles_of_rawLive hs, accept_none]
  split <;> rfl

theorem exec_bbExtract_of_some {rd : List Byte} {first count : Nat} {s : State} {v : Bits} (hs : s.noFraming = none)
    (h : extractTdo s.params rd first count = some v) :
    exec (.bbExtract rd first count) s = .next { s with result := .bits v } := by
  change (accept s.noFraming _).deliver Result.bits = _
  rw [hs, accept_none, h]
  rfl

theorem exec_bbExtract_of_none {rd : List Byte} {first count : Nat} {s : State} (hs : s.noFraming = none)
    (h : extractTdo s.params rd first count = none) :
    exec (.bbExtract rd first count) s = .refused .indexOutsideFrame := by
  change (accept s.noFraming _).deliver Result.bits = _
  rw [hs, accept_none, h]
  rfl

/-! ### Waveforms -/

theorem pinBit_getLsbD_of_ne {pin k : Fin 8} (h : k ≠ pin) (level : Bool) :
    (pinBit pin level).getLsbD k.val = false := by
  rw [pinBit_getLsbD, decide_eq_false h.symm, Bool.and_false]

/-- A written sample, line by line: `PIN_TDO` and the unused bits are 0 (R222). -/
theorem getLsbD_sampleByte {p : Params} (hp : p.wf = true) (tck tms tdi rst : Bool) (k : Fin 8) :
    (sampleByte p tck tms tdi rst).getLsbD k.val =
      if k = p.pinTck then tck
      else if k = p.pinTms then tms
      else if k = p.pinTdi then tdi
      else if k = p.pinRst then p.hasRst && rst
      else false := by
  obtain ⟨htck, htms, htdi, -, hrst⟩ := sampleByte_levels hp tck tms tdi rst
  split_ifs with h1 h2 h3 h4
  · rw [h1, htck]
  · rw [h2, htms]
  · rw [h3, htdi]
  · rw [h4, hrst]
  · have hreset : (if p.hasRst then pinBit p.pinRst rst else 0#8).getLsbD k.val = false := by
      split
      · exact pinBit_getLsbD_of_ne h4 rst
      · exact BitVec.getLsbD_zero
    simp only [sampleByte, BitVec.getLsbD_or, pinBit_getLsbD_of_ne h1, pinBit_getLsbD_of_ne h2,
      pinBit_getLsbD_of_ne h3, hreset, Bool.or_false]

/-- Byte `j` belongs to cycle `j / 2`, with TCK low in the first of its two and high in the second (R223). -/
theorem getElem?_flatMap_cycleBytes (p : Params) (cs : List (Bool × Bool)) (j : Nat) :
    (cs.flatMap (cycleBytes p))[j]? =
      cs[j / 2]?.map fun c => sampleByte p (decide (j % 2 = 1)) c.1 c.2 p.rstInactive := by
  induction cs generalizing j with
  | nil => rfl
  | cons c cs ih =>
    match j with
    | 0 => rfl
    | 1 => rfl
    | j + 2 =>
      rw [Nat.add_div_right j two_pos, Nat.add_mod_right]
      exact ih j

section
variable (p : Params) {cs : List (Bool × Bool)}

/-- The flush does not move the bytes of the cycles (R225). -/
theorem getElem?_expandCycles {j : Nat} {c : Bool × Bool} (h : cs[j / 2]? = some c) :
    (expandCycles p cs)[j]? = some (sampleByte p (decide (j % 2 = 1)) c.1 c.2 p.rstInactive) := by
  obtain ⟨hlt, -⟩ := List.getElem?_eq_some_iff.mp h
  rw [expandCycles, List.getElem?_append_left (by rw [length_flatMap_cycleBytes]; omega),
    getElem?_flatMap_cycleBytes, h, Option.map_some]

/-- The flush bytes are the last sample again (R225). -/
theorem getElem?_expandCycles_flush (hcs : cs ≠ []) {j : Nat} (hj : j < p.rxLag) :
    (expandCycles p cs)[2 * cs.length + j]? = (expandCycles p cs)[2 * cs.length - 1]? := by
  have hlen := length_flatMap_cycleBytes p cs
  have hpos := List.length_pos_iff.mpr hcs
  have hlast := getLast?_flatMap_cycleBytes p cs
  rw [List.getLast?_eq_some_getLast hcs, Option.map_some] at hlast
  rw [expandCycles, flush_of_getLast? p hlast, List.getElem?_append_right (by omega),
    List.getElem?_append_left (by omega), ← hlen, ← List.getLast?_eq_getElem?, hlast, Nat.add_sub_cancel_left,
    List.getElem?_replicate, if_pos hj]

end

/-- Settles O35: byte `j` is a sample of cycle `j / 2`, read line by line. -/
theorem bbExpandWaveforms : Obligations.BbExpandWaveforms := by
  intro cycles s hs hb hp
  have haccepted := noFraming_of_raw hs hb
  refine ⟨by rw [exec_bbExpand haccepted, if_pos rfl], fun hne => ?_⟩
  refine ⟨expandCycles s.params cycles, ?_, ?_, ?_, ?_⟩
  · rw [exec_bbExpand haccepted, if_neg hne]
  · exact length_expandCycles s.params hne
  · exact fun j c hc => ⟨_, getElem?_expandCycles s.params hc, getLsbD_sampleByte hp _ _ _ _⟩
  · exact fun j hj => getElem?_expandCycles_flush s.params hne hj

/-! ### Transfers answered in full -/

theorem linesAfter_concat (p : Params) (old : Lines) (bytes : List Byte) (last : Byte) :
    linesAfter p old (bytes ++ [last]) = sampleLevels p old last := by
  simp only [linesAfter, List.getLast?_concat]

/-- Settles O36: the equation of a transfer answered in full, whose last byte leaves its levels on the lines. -/
theorem bbXferCompletes : Obligations.BbXferCompletes := by
  intro bytes last rd s hs
  refine ⟨by rw [exec_bbXfer hs, if_pos rfl], fun hx => ?_⟩
  have hne : bytes ++ [last] ≠ [] := List.append_ne_nil_of_right_ne_nil bytes (List.cons_ne_nil last [])
  rw [exec_bbXfer hs, if_neg hne, bbXfer_eq _ hx, linesAfter_concat]
  rfl

/-! ### TDO bits -/

/-- One cycle whose TCK-high byte lies outside the bytes read leaves no bits at all (R232). -/
theorem extractTdo_eq_none {p : Params} {rd : List Byte} {first count k : Nat} (hk : k < count)
    (hout : rd.length ≤ 2 * (first + k) + 1 + p.rxLag) : extractTdo p rd first count = none := by
  induction count generalizing first k with
  | zero => cases hk
  | succ count ih =>
    rw [extractTdo]
    cases k with
    | zero =>
      have hnone : tdoOfCycle p rd first = none := by
        exact congrArg (Option.map _) (List.getElem?_eq_none hout)
      rw [hnone]
    | succ k =>
      have hrest : extractTdo p rd (first + 1) count = none := ih (Nat.lt_of_succ_lt_succ hk) (by omega)
      rw [hrest]
      cases tdoOfCycle p rd first <;> rfl

/-- The bits of cycles that each lie inside the bytes read (R232). -/
theorem extractTdo_of_inside {p : Params} {rd : List Byte} {first count : Nat}
    (h : ∀ k, k < count → 2 * (first + k) + 1 + p.rxLag < rd.length) :
    extractTdo p rd first count = some (tdoBits p rd first count) := by
  refine extractTdo_eq p rd first count ?_
  cases count with
  | zero => simp
  | succ n =>
    have hlast := h n n.lt_succ_self
    simp only [Nat.add_one_ne_zero, if_false]
    omega

/-- Settles O37: all cycles inside the bytes read, or one outside. -/
theorem bbExtractBits : Obligations.BbExtractBits := by
  intro rd first count s hs hb
  have haccepted := noFraming_of_raw hs hb
  refine ⟨fun hin => exec_bbExtract_of_some haccepted (extractTdo_of_inside hin), fun ⟨k, hk, hout⟩ => ?_⟩
  exact exec_bbExtract_of_none haccepted (extractTdo_eq_none hk hout)

end Sys2Proof.Machine

/-! PROOFS. The scan controller of 44_scan_controller: a selection, a data shift and a transaction answered in full (R252,
R254, R256), what each refuses (R187, R253, R254, R256), and a transaction that stops in its second step (R258, R340). -/

namespace Sys2Proof.Machine

/-! ### Selecting -/

/-- A row of the target's opcode table is the `SELECT` of its block and register (R100, R252; log entry 4). -/
theorem exec_opcRow (blk : Blk) (sel : Sel) (pos n : Nat) (s : State) :
    exec (opcRow pos n blk sel) s = exec (.select blk sel pos n) s := by
  cases blk <;> cases sel <;> rfl

/-- Settles O41: a row is its `SELECT`, whose answered write is `select_eq`; the frame written out is `irFrameWire`. -/
theorem selectCompletes : Obligations.SelectCompletes := by
  intro blk sel pos n x s i hi hs hp ht h1 hn bypass hx ha
  have hexec : exec i s = (select .select blk sel pos n s).deliver fun _ => .none := by
    rcases hi with rfl | rfl
    · rfl
    · exact exec_opcRow blk sel pos n s
  rw [hexec, select_eq _ hs hp ht (validPosition_of_le h1 hn) hx ha]
  rfl

/-! ### Shifting -/

section
variable {s : State} {blk b : Blk} {sel : Sel} {v : Bits}

theorem noShift_of_none (hc : s.curSel = none) : s.noShift blk v = some .nothingSelected := by
  simp only [State.noShift, hc]

theorem noShift_of_selected (hc : s.curSel = some (b, sel)) :
    s.noShift blk v = if b = blk then (if v.length = selLength sel then none else some .vectorMismatch)
      else some .blockMismatch := by
  simp only [State.noShift, hc]

theorem noShift_of_accepted (hc : s.curSel = some (blk, sel)) (hl : v.length = selLength sel) :
    s.noShift blk v = none := by
  rw [noShift_of_selected hc, if_pos rfl, if_pos hl]

end

/-- Settles O43: the answered write is `shift_eq`; the frame written out is `drFrameWire`. -/
theorem shiftCompletes : Obligations.ShiftCompletes := by
  intro blk sel v pos n x s hs hp ht h1 hn hc hl w hx ha
  have hv := validPosition_of_le h1 hn
  have hlength : w.length = n - 1 + v.length - trim blk :=
    length_drFrameWire hv (hl ▸ trim_lt_selLength blk sel)
  refine ⟨hl ▸ hlength, isDr_reply_length hx, ?_⟩
  change (shift .shift blk v pos n s).deliver Result.bits = _
  rw [shift_eq _ hs hp ht hv hc hl hx ha]
  rfl

/-! ### Transactions -/

/-- Settles O45: the four steps answered are `transact_eq`, which has the reply's length too. -/
theorem transactCompletes : Obligations.TransactCompletes := by
  intro blk sel v pos n xs s hs hp hph ht h1 hn hl hx ha
  obtain ⟨reply, hrun, hlength, x2, hx2, hreply⟩ :=
    transact_eq .transact hs hp hph ht (validPosition_of_le h1 hn) hl hx ha
  refine ⟨x2, reply, hx2, hreply, hlength, ?_⟩
  change (transact .transact blk sel v pos n s).deliver Result.bits = _
  rw [hrun]
  rfl

/-! ### Refusals -/

theorem offIdle_of_not_idle {s : State} (ht : s.tap ≠ .runTestIdle) : s.offIdle = some .notInIdle := if_neg ht

section
variable {s : State} {sel : Sel} {v : Bits}

theorem noTransact_of_busy (hph : s.phase ≠ .idle) : s.noTransact sel v = some .transactionInProgress := if_neg hph

theorem noTransact_of_not_idle (hph : s.phase = .idle) (ht : s.tap ≠ .runTestIdle) :
    s.noTransact sel v = some .notInIdle := by
  rw [State.noTransact, if_pos hph, if_neg ht]

theorem noTransact_of_length_ne (hph : s.phase = .idle) (ht : s.tap = .runTestIdle) (hl : v.length ≠ selLength sel) :
    s.noTransact sel v = some .vectorMismatch := by
  rw [State.noTransact, if_pos hph, if_pos ht, if_neg hl]

variable (hs : s.Live)
include hs

/-- No opcode is written outside Run-Test/Idle, at whatever position (R187, R252; log entry 11). -/
theorem writeOpcode_of_not_idle (cmd : Command) (op : Bits) (selects : Option (Blk × Sel)) (pos n : Nat)
    (ht : s.tap ≠ .runTestIdle) : writeOpcode cmd op selects pos n s = .refused .notInIdle := by
  rw [writeOpcode, notLive_of_live hs, accept_none, offIdle_of_not_idle ht, accept_some]

theorem exec_select_of_not_idle (blk : Blk) (sel : Sel) (pos n : Nat) (ht : s.tap ≠ .runTestIdle) :
    exec (.select blk sel pos n) s = .refused .notInIdle := by
  change (writeOpcode .select _ _ pos n s).deliver _ = _
  rw [writeOpcode_of_not_idle hs _ _ _ pos n ht, deliver_refused]

theorem exec_bypassOpcode_of_not_idle (pos n : Nat) (ht : s.tap ≠ .runTestIdle) :
    exec (.bypassOpcode pos n) s = .refused .notInIdle := by
  change (writeOpcode .writeIr _ none pos n s).deliver _ = _
  rw [writeOpcode_of_not_idle hs _ _ _ pos n ht, deliver_refused]

theorem exec_shift_refused {blk : Blk} {r : Refusal} (pos n : Nat) (h : s.noShift blk v = some r) :
    exec (.shift blk v pos n) s = .refused r := by
  change (accept s.notLive (accept (s.noShift blk v) _)).deliver _ = _
  rw [notLive_of_live hs, accept_none, deliver_accept_some h]

theorem exec_shift_of_not_idle {blk : Blk} (pos n : Nat) (h : s.noShift blk v = none) (ht : s.tap ≠ .runTestIdle) :
    exec (.shift blk v pos n) s = .refused .notInIdle := by
  change (accept s.notLive (accept (s.noShift blk v) (accept s.offIdle _))).deliver _ = _
  rw [notLive_of_live hs, accept_none, h, accept_none, deliver_accept_some (offIdle_of_not_idle ht)]

theorem exec_transact_refused (blk : Blk) {r : Refusal} (pos n : Nat) (h : s.noTransact sel v = some r) :
    exec (.transact blk sel v pos n) s = .refused r := by
  change (accept s.notLive (accept (s.noTransact sel v) _)).deliver _ = _
  rw [notLive_of_live hs, accept_none, deliver_accept_some h]

end

/-- Settles O44: each command's check that fails, none of which looks at the position. -/
theorem scanRefusals : Obligations.ScanRefusals := by
  intro blk b sel v pos n s hs
  refine ⟨fun hc => exec_shift_refused hs pos n (noShift_of_none hc),
    fun hc hb => exec_shift_refused hs pos n ?_,
    fun hc hl => exec_shift_refused hs pos n ?_,
    fun hph => exec_transact_refused hs blk pos n (noTransact_of_busy hph),
    fun hph ht hl => exec_transact_refused hs blk pos n (noTransact_of_length_ne hph ht hl),
    fun ht => ⟨?_, ?_, ?_, fun hc hl => ?_, fun hph => ?_⟩⟩
  · rw [noShift_of_selected hc, if_neg hb]
  · rw [noShift_of_selected hc, if_pos rfl, if_neg hl]
  · exact exec_select_of_not_idle hs blk sel pos n ht
  · rw [exec_opcRow, exec_select_of_not_idle hs blk sel pos n ht]
  · exact exec_bypassOpcode_of_not_idle hs pos n ht
  · exact exec_shift_of_not_idle hs pos n (noShift_of_accepted hc hl) ht
  · exact exec_transact_refused hs blk pos n (noTransact_of_not_idle hph ht)

/-! ### A transaction that stops in its second step -/

theorem writeDrCycles_ne_nil (w : Bits) : writeDrCycles w ≠ [] :=
  List.ne_nil_of_length_pos (by rw [length_writeDrCycles]; omega)

section
variable {s : State}

/-- On RAW `WRITE_DR` is one frame, and what aborts the transfer of that frame aborts the write (R174, R182). -/
theorem writeDr_of_bbXfer_raise (cmd : Command) {w : Bits} {e : Err} {u : State} (hs : s.RawLive)
    (ht : s.tap = .runTestIdle) (hw : w ≠ [])
    (h : bbXfer cmd (expandCycles s.params (writeDrCycles w)) s = raise e u) : writeDr cmd w s = raise e u := by
  have hrun : runCycles cmd (writeDrCycles w) s = raise e u := by
    rw [runCycles, notLive_of_live hs.1, accept_none, if_neg (writeDrCycles_ne_nil w), h, raise_bind]
  rw [writeDr, notLive_of_live hs.1, accept_none, noWrite_of_idle ht hw, accept_none, hs.2]
  dsimp only
  rw [hrun, raise_bind]

/-- The frame of a DR write ends with TMS and TDI low, taken in full or not (R182, R341). -/
theorem linesAfter_writeDr (w : Bits) (hp : s.params.wf = true) (hb : s.params.backend = .raw) :
    linesAfter s.params s.lines (expandCycles s.params (writeDrCycles w)) = idleLines s := by
  have hlast : (writeDrCycles w).getLast (writeDrCycles_ne_nil w) = (false, false) := by
    simp [writeDrCycles, walkCycles, post]
  simp only [linesAfter, getLast?_expandCycles s.params (writeDrCycles_ne_nil w), sampleLevels_sampleByte hp, hlast,
    idleLines, hb, restingLines]

/-- An accepted `SHIFT` is the `WRITE_DR` of its frame (R254). -/
theorem shift_eq_writeDr (cmd : Command) {blk : Blk} {sel : Sel} {v : Bits} {pos n : Nat} (hs : Ready s)
    (hv : validPosition pos n = true) (hc : s.curSel = some (blk, sel)) (hl : v.length = selLength sel) :
    shift cmd blk v pos n s = writeDr cmd (drFrameWire v blk pos n) s := by
  rw [shift, notLive_of_live hs.live, accept_none, noShift_of_accepted hc hl, accept_none, offIdle_of_idle hs.idle,
    accept_none, padDr_eq hv (hl ▸ trim_lt_selLength blk sel), bind_ok]

end

/-- Where step 2 of a transaction begins, its first exchange answered (R256). -/
def stepTwo (blk : Blk) (sel : Sel) (x : Exchange) (s : State) : State :=
  { x.after s with phase := .shiftData, curSel := some (blk, sel), lines := idleLines s }

/-- What is left of a transaction after its second step (R256). -/
def afterStepTwo (cmd : Command) (blk : Blk) (sel : Sel) (pos n : Nat) (reply : Bits) (s : State) : Res Bits :=
  (tapReset cmd (s.setPhase .resetTAP)).bind fun _ s1 =>
  (select cmd blk sel pos n (s1.setPhase .selectData)).bind fun _ s2 =>
  .ok reply (s2.setPhase .idle)

section
variable (blk : Blk) (sel : Sel) (x : Exchange) {s : State} (hs : Ready s)

theorem stepTwo_params : (stepTwo blk sel x s).params = s.params := after_params x s

include hs

theorem stepTwo_ready : Ready (stepTwo blk sel x s) where
  live := ⟨(after_err x s).trans hs.live.1, (after_chan x s).trans hs.live.2⟩
  wf := (congrArg Params.wf (after_params x s)).trans hs.wf
  idle := (after_tap x s).trans hs.idle

/-- Handing over the frame of step 2 leaves the lines at rest, where step 1 left them (R341). -/
theorem handedOver_stepTwo (w : Bits) (hb : s.params.backend = .raw) :
    let t := stepTwo blk sel x s
    let bytes := expandCycles s.params (shiftCycles [true, false, false] w)
    handedOver t bytes = { t with tx := t.tx ++ bytes.map .byte, env := t.env.afterWrite } := by
  intro t bytes
  have hparams : t.params = s.params := stepTwo_params blk sel x
  have hlines : linesAfter t.params t.lines bytes = t.lines := calc
    linesAfter t.params t.lines bytes
      = linesAfter t.params t.lines (expandCycles t.params (writeDrCycles w)) := by rw [hparams, ← shiftCycles_dr]
    _ = idleLines t := linesAfter_writeDr w (stepTwo_ready blk sel x hs).wf (hparams ▸ hb)
    _ = t.lines := idleLines_of hparams rfl
  rw [handedOver, hlines]

end

section
variable {blk : Blk} {sel : Sel} {v : Bits} {pos n : Nat} {x : Exchange} {s : State} (hs : Ready s)
  (hph : s.phase = .idle) (hv : validPosition pos n = true) (hl : v.length = selLength sel)
  (hx : x.isIr s.params (irFrameWire s.params (opcode s.params blk sel) pos n)) (ha : x.answered s)
include hs hph hv hl hx ha

/-- A transaction whose first exchange is answered goes on with its data shift (R256). -/
theorem transact_eq_shift_bind (cmd : Command) :
    transact cmd blk sel v pos n s
      = (shift cmd blk v pos n (stepTwo blk sel x s)).bind (afterStepTwo cmd blk sel pos n) := by
  have ha' : x.answered (s.setPhase .selectInstruction) := (answered_congr ⟨rfl, rfl⟩ x).mpr ha
  have hstate : stepTwo blk sel x s = State.setPhase ({ x.after (s.setPhase .selectInstruction) with
      lines := idleLines (s.setPhase .selectInstruction), curSel := some (blk, sel) } : State) .shiftData := by
    cases x <;> rfl
  rw [transact, notLive_of_live hs.live, accept_none, noTransact_of_idle hph hs.idle hl, accept_none,
    select_eq (s := s.setPhase .selectInstruction) cmd hs.live hs.wf hs.idle hv hx ha', bind_ok, ← hstate]
  rfl

variable {e : Err} {u : State}

/-- What aborts the data shift aborts the transaction: its last two steps do not run (R258). -/
theorem exec_transact_of_writeDr_raise
    (h : writeDr .transact (drFrameWire v blk pos n) (stepTwo blk sel x s) = raise e u) (hclose : closeHeard u) :
    exec (.transact blk sel v pos n) s = .next (aborted u e) := by
  change (transact .transact blk sel v pos n s).deliver Result.bits = _
  rw [transact_eq_shift_bind hs hph hv hl hx ha, shift_eq_writeDr _ (stepTwo_ready blk sel x hs) hv rfl hl, h,
    raise_bind, deliver_raise hclose]

/-- On RAW the data shift is one transfer, and the release after it asks the transport nothing (R230, R340). -/
theorem exec_transact_of_bbXfer_raise (hb : s.params.backend = .raw)
    (h : bbXfer .transact (expandCycles s.params (shiftCycles [true, false, false] (drFrameWire v blk pos n)))
      (stepTwo blk sel x s) = raise e u) (hu : u.params = s.params) :
    exec (.transact blk sel v pos n) s = .next (aborted u e) := by
  have ht := stepTwo_ready blk sel x hs
  have hparams := stepTwo_params blk sel x (s := s)
  rw [shiftCycles_dr, ← hparams] at h
  rw [← hparams] at hb hu
  have hne := drFrameWire_ne_nil hv (hl ▸ trim_lt_selLength blk sel)
  exact exec_transact_of_writeDr_raise hs hph hv hl hx ha (writeDr_of_bbXfer_raise _ ⟨ht.live, hb⟩ ht.idle hne h)
    (closeHeard_of_raw (hu ▸ hb))

end

/-- Settles O46: the data shift is one transfer or one call, which `raise`s in the state that the answer leaves. -/
theorem transactStepTwoFails : Obligations.TransactStepTwoFails := by
  intro blk sel v pos n x count rd r s hlive hp hph ht h1 hn hl hx ha w bytes t handed heard called lost
  have hs : Ready s := ⟨hlive, hp, ht⟩
  have hv := validPosition_of_le h1 hn
  have hparams : t.params = s.params := stepTwo_params blk sel x
  refine ⟨fun hb => ?_, fun hb => ?_⟩
  · have hhanded : handedOver t bytes = handed := handedOver_stepTwo blk sel x hs w hb
    have hlost := @exec_transact_of_bbXfer_raise blk sel v pos n x s hs hph hv hl hx ha
    refine ⟨fun hwrite => ?_, fun hwrite hcount => ?_, fun hwrite hread => ?_, fun hwrite hread hlen => ?_⟩
    · have hw := hhanded ▸ txWrite_failed hwrite
      exact hlost hb (bbXfer_of_write_ne hw nofun) hparams
    · have hw := hhanded ▸ txWrite_accepted hwrite
      exact hlost hb (bbXfer_of_write_ne hw (hcount <| Option.some.inj ·)) hparams
    · have hw := hhanded ▸ txWrite_accepted hwrite
      exact hlost hb (bbXfer_of_read_failed hw (rxRead_failed hread)) hparams
    · have hw := hhanded ▸ txWrite_accepted hwrite
      exact hlost hb (bbXfer_of_read_ne hw (rxRead_returned hread) hlen) hparams
  · have hready : Ready t := stepTwo_ready blk sel x hs
    have ht : t.EngineLive := ⟨hready.live, hparams ▸ hb⟩
    have hw : w ≠ [] := drFrameWire_ne_nil hv (hl ▸ trim_lt_selLength blk sel)
    have hlost := @exec_transact_of_writeDr_raise blk sel v pos n x s hs hph hv hl hx ha
    refine ⟨fun hcall hclose => ?_, fun hreply hlen hclose => ?_⟩
    · exact hlost (writeDr_abortsAt ht _ hready.idle hw hcall) hclose
    · exact hlost (writeDr_of_length_ne ht _ hready.idle hw hreply hlen) hclose

end Sys2Proof.Machine

/-! PROOFS. The reply parser of 45_readback_decoder: when `PARSE_REPLY` answers and when it aborts (R281, R284), and
what a counter's window holds (R285, R288). -/

namespace Sys2Proof.Machine

/-! ### A window's bits, least significant first -/

theorem ule_cons (b : Bool) (w : Bits) : ule (b :: w) = 2 * ule w + b.toNat := by
  rw [ule, List.reverse_cons, ube_concat, ule]

/-- Least significant bit first, bit `j` weighs 2 to the `j` (R285). -/
theorem ule_map_range (f : Nat → Bool) (n : Nat) :
    ule ((List.range n).map f) = ((List.range n).map fun j => (f j).toNat * 2 ^ j).sum := by
  induction n generalizing f with
  | zero => rfl
  | succ n ih =>
    have hdouble : ∀ j, (f (j + 1)).toNat * 2 ^ (j + 1) = 2 * ((f (j + 1)).toNat * 2 ^ j) := fun j => by ring
    rw [List.range_succ_eq_map, List.map_cons, List.map_map, ule_cons, ih (f ∘ Nat.succ), List.map_cons, List.map_map,
      List.sum_cons, pow_zero, mul_one, Nat.add_comm, ← List.sum_map_mul_left]
    simp only [Function.comp_def, Nat.succ_eq_add_one, hdouble]

/-- The low bits of a number, least significant first, are what `beNat` writes, turned round (R14). -/
theorem reverse_map_testBit_range (w m : Nat) : ((List.range w).map m.testBit).reverse = beNat w m := by
  refine List.ext_getElem (by simp [beNat]) fun j hj _ => ?_
  simp [beNat, List.getElem_reverse]

theorem ule_map_testBit_range (w m : Nat) : ule ((List.range w).map m.testBit) = m % 2 ^ w := by
  rw [ule, reverse_map_testBit_range, ube_beNat]

/-- A slice inside the vector is its bits, one by one (R12). -/
theorem slice_eq_map_range {a : Bits} {start n : Nat} (h : start + n ≤ a.length) :
    slice a start n = (List.range n).map fun j => a.getD (start + j) false := by
  have hlen : (slice a start n).length = n := by simp only [slice, List.length_take, List.length_drop]; omega
  refine List.ext_getElem (by simpa using hlen) fun j hj _ => ?_
  have hin : start + j < a.length := by omega
  simp [slice, List.getD_eq_getElem?_getD, hin]

/-! ### The counter of a lane -/

theorem laneCounter_eq_ule (a : Bits) (i : Nat) : laneCounter a i = ule (slice a (2 + 48 * i) 12) := rfl

/-- The window of each lane lies inside an aligned reply that passes the length check (R284). -/
theorem window_le {a : Bits} {i : Nat} (h : windowsEnd ≤ a.length) (hi : i < 4) : 2 + 48 * i + 12 ≤ a.length := by
  rw [windowsEnd] at h
  omega

/-- A counter is the sum of its window's bits at their weights (R285). -/
theorem laneCounter_eq_sum {a : Bits} {i : Nat} (h : windowsEnd ≤ a.length) (hi : i < 4) :
    laneCounter a i = ((List.range 12).map fun j => (a.getD (2 + 48 * i + j) false).toNat * 2 ^ j).sum := by
  rw [laneCounter_eq_ule, slice_eq_map_range (window_le h hi), ule_map_range]

/-- A window that holds the bits of a 12-bit number reads as that number (R288). -/
theorem laneCounter_of_testBit {a : Bits} {i k : Nat} (h : windowsEnd ≤ a.length) (hi : i < 4) (hk : k ≤ 4095)
    (hbits : ∀ j < 12, a[2 + 48 * i + j]? = some (k.testBit j)) : laneCounter a i = k := by
  have hwindow : slice a (2 + 48 * i) 12 = (List.range 12).map k.testBit := by
    rw [slice_eq_map_range (window_le h hi)]
    refine List.map_congr_left fun j hj => ?_
    rw [List.getD_eq_getElem?_getD, hbits j (List.mem_range.mp hj), Option.getD_some]
  rw [laneCounter_eq_ule, hwindow, ule_map_testBit_range]
  exact Nat.mod_eq_of_lt (by omega)

/-- The four counters as a result, once each window is known. -/
theorem countersResult_of_laneCounter {a : Bits} {c : Fin 4 → Nat} (h : ∀ i : Fin 4, laneCounter a i.val = c i) :
    countersResult (laneCounters a) = .counters (c 0) (c 1) (c 2) (c 3) := by
  rw [← h 0, ← h 1, ← h 2, ← h 3]
  rfl

/-! ### The commands -/

theorem exec_parseReply (reply : Bits) (blk : Blk) (pos n : Nat) (s : State) :
    exec (.parseReply reply blk pos n) s = (parseReply reply blk pos n s).deliver countersResult := rfl

/-- With no error latched, an invalid position is an abort (R281). -/
theorem parseReply_of_invalid {pos n : Nat} {s : State} (he : s.err = .none) (hv : validPosition pos n = false)
    (reply : Bits) (blk : Blk) :
    parseReply reply blk pos n s = raise (.configurationError (.position pos n)) s := by
  rw [parseReply, latched_of_none he, accept_none, hv]
  rfl

/-- A reply too short for the four windows is an abort that names both lengths (R284). -/
theorem parseReply_of_short {reply : Bits} {blk : Blk} {pos n : Nat} {s : State} (he : s.err = .none)
    (hv : validPosition pos n = true) (hl : reply.length < replyLead s.params blk pos n + windowsEnd) :
    parseReply reply blk pos n s
      = raise (.protocolViolation reply.length (replyLead s.params blk pos n + windowsEnd)) s := by
  rw [parseReply, latched_of_none he, accept_none, if_pos hv, countersOf, if_pos hl]

/-- A reply that is long enough gives the counters of its windows and leaves the state (R281). -/
theorem parseReply_of_fits {reply : Bits} {blk : Blk} {pos n : Nat} {s : State} (he : s.err = .none)
    (hv : validPosition pos n = true) (hl : replyLead s.params blk pos n + windowsEnd ≤ reply.length) :
    parseReply reply blk pos n s = .ok (laneCounters (alignedReply s.params reply blk pos n)) s := by
  rw [parseReply, latched_of_none he, accept_none, if_pos hv, countersOf, if_neg (Nat.not_lt.mpr hl)]

theorem exec_replyFormat_of_short {a : Bits} {s : State} (he : s.err = .none) (h : a.length < windowsEnd) :
    exec (.replyFormat a) s = .refused .replyTooShort := by
  change (accept s.latched _).deliver countersResult = _
  rw [latched_of_none he, accept_none, if_pos h, deliver_refused]

theorem exec_replyFormat_of_fits {a : Bits} {s : State} (he : s.err = .none) (h : windowsEnd ≤ a.length) :
    exec (.replyFormat a) s = .next { s with result := countersResult (laneCounters a) } := by
  change (accept s.latched _).deliver countersResult = _
  rw [latched_of_none he, accept_none, if_neg (Nat.not_lt.mpr h), deliver_ok]
  rfl

/-- Settles O47, by the branches of `parseReply`: the position is looked at first, then the length. -/
theorem parseReplyCounters : Obligations.ParseReplyCounters := by
  intro reply blk pos n s he hc nat lead c
  have hlength : nat.length = reply.length := List.length_reverse
  rw [exec_parseReply, hlength]
  split_ifs with hposition hshort
  · rw [parseReply_of_invalid he (validPosition_eq_false_iff.mpr hposition), deliver_raise hc]
  · have hv := validPosition_of_not_invalid hposition
    rw [parseReply_of_short he hv hshort, deliver_raise hc]
    rfl
  · have hv := validPosition_of_not_invalid hposition
    rw [parseReply_of_fits he hv (Nat.not_lt.mp hshort)]
    exact ⟨rfl, laneCounter_le (nat.drop lead)⟩

/-- Settles O48: a word that is not refused holds the four windows, and each counter is the sum of its window. -/
theorem replyWindows : Obligations.ReplyWindows := by
  intro a s he c
  split_ifs with hshort
  · exact exec_replyFormat_of_short he hshort
  · have hfits : windowsEnd ≤ a.length := Nat.not_lt.mp hshort
    have hcounter (i : Fin 4) : laneCounter a i.val = c i.val := laneCounter_eq_sum hfits i.isLt
    rw [exec_replyFormat_of_fits he hfits, countersResult_of_laneCounter hcounter]
    rfl

/-- Settles O49: after the lead, the window of each lane holds the bits of the counter it was made for. -/
theorem syntheticReply : Obligations.SyntheticReply := by
  intro k nat blk pos n s he h1 hn hk lead hl hbits
  have haligned : alignedReply s.params nat.reverse blk pos n = nat.drop lead :=
    congrArg (List.drop lead) nat.reverse_reverse
  have hfits : windowsEnd ≤ (nat.drop lead).length := by rw [List.length_drop, windowsEnd]; omega
  have hcounter (i : Fin 4) : laneCounter (nat.drop lead) i.val = k i := by
    refine laneCounter_of_testBit hfits i.isLt (hk i) fun j hj => ?_
    rw [List.getElem?_drop, ← hbits i j hj]
    simp only [Nat.add_assoc]
  rw [exec_parseReply, parseReply_of_fits he (validPosition_of_le h1 hn) (hl.trans_eq List.length_reverse.symm),
    deliver_ok, haligned, countersResult_of_laneCounter hcounter]
  rfl

end Sys2Proof.Machine

/-! PROOFS. The host's pseudo-commands of 46_sweep_sequence: the samples every command emits (R315), a block configured
(R303, R304) and swept (R306 to R314), and a whole sweep, which aborts before anything is sent (R301) or ends with the
channel closed (R316). -/

namespace Sys2Proof.Machine

/-! ### The samples a command emits -/

/-- The part of `exec_emits` that speaks of the sink: the result a command delivers is no part of it. -/
theorem exec_sink {i : Instr} {s t : State} (h : exec i s = .next t) :
    ∃ new, t.sink = s.sink ++ new ∧ ∀ x ∈ new, x.inRange ∧ x.bitSelect < bitNumberOf i := by
  obtain ⟨u, x, rfl, hu⟩ | ⟨u, rfl, hu⟩ := exec_emits i s t h <;> exact hu.sink

/-- Settles O54: a step waits, or runs a command, whose new samples are in range beside the old ones. -/
theorem sinkInRange : Obligations.SinkInRange := by
  refine ⟨fun s t h hold => ?_, fun i s t h => exec_sink h⟩
  obtain rfl | ⟨i, rest, -, -, hx⟩ := step_next h
  · exact hold
  · obtain ⟨new, hsink, hnew⟩ := exec_sink hx
    rw [hsink]
    exact fun x hm => (List.mem_append.mp hm).elim (hold x) fun hm => (hnew x hm).1

/-! ### Configuring a block -/

/-- The first image of R303 has every write-enable clear. -/
theorem encodeCfg_nil_eq_zeros : encodeCfg [] = .ok (List.replicate 27 false) := by decide

/-- The second image of R303, written out for the statements. -/
theorem encodeCfg_weSet : encodeCfg weSet = .ok weImage := by decide

/-- Settles O50: the three transactions answered are `configureBlock_eq`, of the images written out. -/
theorem configureBlockCompletes : Obligations.ConfigureBlockCompletes := by
  intro blk coreParams v3 pos n xs s hlive hp hph ht h1 hn h3 lane hx ha
  have hrun := configureBlock_eq ⟨hlive, hp, ht⟩ hph (validPosition_of_le h1 hn) encodeCfg_nil_eq_zeros
    encodeCfg_weSet h3 hx ha
  change (configureBlock blk coreParams pos n s).deliver _ = _
  rw [hrun]
  rfl

/-! ### The places of the samples -/

/-- The places of a loop's samples are those of its elements, in order (R306, R307). -/
theorem map_place_of_areEach {α : Type} {each : α → List Exchange → List SweepSample → Prop}
    {places : α → List (Nat × Nat × Int × Int)}
    (heach : ∀ a xs ss, each a xs ss → ss.map SweepSample.place = places a) {as : List α} {xs : List Exchange}
    {ss : List SweepSample} (h : areEach each as xs ss) : ss.map SweepSample.place = as.flatMap places := by
  induction as generalizing xs ss with
  | nil =>
    obtain ⟨-, rfl⟩ := h
    rfl
  | cons a more ih =>
    obtain ⟨xs1, xs2, ss1, ss2, -, rfl, hfirst, hmore⟩ := h
    rw [List.map_append, heach a xs1 ss1 hfirst, ih hmore, List.flatMap_cons]

/-- The places of the samples of one read: the block's lanes, at one voltage, bit-select and phase (R313, R314). -/
def readPlaces (blk : Blk) (v : Int) (b : Nat) (ph : Int) : List (Nat × Nat × Int × Int) :=
  (List.range 4).map fun i => ((if blk = .r0 then 0 else 4) + i, b, v, ph)

theorem map_place_samplesIn (p : Params) (reply : Bits) (blk : Blk) (v : Int) (b : Nat) (ph : Int) (pos n : Nat) :
    (samplesIn p reply blk v b ph pos n).map SweepSample.place = readPlaces blk v b ph := rfl

theorem map_place_of_areReads {p : Params} {blk : Blk} {v : Int} {b pos n : Nat} {phs : List Int} {xs : List Exchange}
    {ss : List SweepSample} (h : areReads p blk v b pos n phs xs ss) :
    ss.map SweepSample.place = phs.flatMap (readPlaces blk v b) := by
  induction phs generalizing xs ss with
  | nil =>
    obtain ⟨-, rfl⟩ := h
    rfl
  | cons ph more ih =>
    obtain ⟨x, xs', ss', -, rfl, -, hmore⟩ := h
    rw [List.map_append, map_place_samplesIn, ih hmore, List.flatMap_cons]

theorem map_place_of_areSweepBlock {p : Params} {blk : Blk} {bitNumber pos n : Nat} {xs : List Exchange}
    {ss : List SweepSample} (h : areSweepBlock p blk bitNumber pos n xs ss) :
    ss.map SweepSample.place = blockPlaces blk bitNumber :=
  map_place_of_areEach (fun _ _ _ hv => map_place_of_areEach (fun _ _ _ hb => by
    obtain ⟨_, _, _, -, -, -, hreads⟩ := hb
    exact map_place_of_areReads hreads) hv) h

/-- A block has 64 voltages, and within each for every bit-select 32 phases of four lanes (R317). -/
theorem length_blockPlaces (blk : Blk) (bitNumber : Nat) : (blockPlaces blk bitNumber).length = 8192 * bitNumber := by
  simp only [blockPlaces, List.length_flatMap, List.length_map, List.length_range, List.map_const', List.sum_replicate,
    smul_eq_mul]
  ring

/-! ### Sweeping a block -/

/-- A loop makes no exchange where it has no elements, or where no element makes one. -/
theorem exchanges_eq_nil_iff_of_areEach {α : Type} {each : α → List Exchange → List SweepSample → Prop} {P : Prop}
    (heach : ∀ a xs ss, each a xs ss → (xs = [] ↔ P)) {as : List α} {xs : List Exchange} {ss : List SweepSample}
    (h : areEach each as xs ss) : xs = [] ↔ as = [] ∨ P := by
  induction as generalizing xs ss with
  | nil =>
    obtain ⟨rfl, -⟩ := h
    simp
  | cons a more ih =>
    obtain ⟨xs1, xs2, ss1, ss2, rfl, -, hfirst, hmore⟩ := h
    rw [List.append_eq_nil_iff, heach a xs1 ss1 hfirst, ih hmore]
    simp +contextual

/-- The only swept block without an exchange is that of no bit-selects: every pair begins with its select (R307, R308). -/
theorem exchanges_eq_nil_iff_of_areSweepBlock {p : Params} {blk : Blk} {bitNumber pos n : Nat} {xs : List Exchange}
    {ss : List SweepSample} (h : areSweepBlock p blk bitNumber pos n xs ss) : xs = [] ↔ bitNumber = 0 := by
  have hpair (v : Int) (b : Nat) (xs : List Exchange) (ss : List SweepSample) (hb : arePair p blk v pos n b xs ss) :
      xs = [] ↔ False := by
    obtain ⟨x, y, xs', rfl, -⟩ := hb
    simp
  have hvoltage (v : Int) (xs : List Exchange) (ss : List SweepSample)
      (hv : areEach (fun b => arePair p blk v pos n b) (List.range bitNumber) xs ss) : xs = [] ↔ bitNumber = 0 := by
    rw [exchanges_eq_nil_iff_of_areEach (hpair v) hv, List.range_eq_nil, or_false]
  rw [exchanges_eq_nil_iff_of_areEach hvoltage h, or_iff_right (by decide)]

/-- The state that the operations of a sweep lead to, written out. -/
theorem Ran.eq {s t : State} {sel : Blk × Sel} {xs : List Exchange} {ss : List SweepSample} (h : Ran s sel xs ss t) :
    t = { afterAll s xs with
      lines := if xs = [] then s.lines else Machine.idleLines s
      curSel := if xs = [] then s.curSel else some sel
      sink := s.sink ++ ss } := by
  rw [h.follows.eq, h.tap, h.phase, h.lines, h.curSel, h.sink, ← afterAll_tap s xs, ← afterAll_phase s xs]

/-- `SWEEP_BLOCK` answered in full, the state written out (R308). -/
theorem sweepBlock_eq {blk : Blk} {bitNumber pos n : Nat} (hv : validPosition pos n = true) {xs : List Exchange}
    {ss : List SweepSample} {s : State} (hs : Ready s)
    (ht : namesOnly (fieldKeys charLayout) s.params.diagTemplate = true) (hf : repliesFit s.params blk pos n)
    (hx : areSweepBlock s.params blk bitNumber pos n xs ss) (ha : Answers s xs) :
    sweepBlock blk bitNumber pos n s = .ok () { afterAll s xs with
      lines := if bitNumber = 0 then s.lines else idleLines s
      curSel := if bitNumber = 0 then s.curSel else some (blk, .readback)
      sink := s.sink ++ ss } := by
  obtain ⟨t, hrun, hran⟩ := sweepBlock_ran hv hs ht hf hx ha
  rw [hrun, hran.eq]
  simp only [exchanges_eq_nil_iff_of_areSweepBlock hx]

/-- The result of a sweep is what it added to the sink (R313, R317). -/
theorem deliver_samplesResult_ok {s t : State} {ss : List SweepSample} (h : t.sink = s.sink ++ ss) :
    (samplesResult s.sink.length (.ok () t)).deliver .samples = .next (t.setResult (.samples ss)) := by
  rw [samplesResult, bind_ok, deliver_ok, h, List.drop_left]

/-- A sweep that aborts has no result (R340). -/
theorem deliver_samplesResult_raise {before : Nat} {e : Err} {s : State} (h : closeHeard s) :
    (samplesResult before (raise e s)).deliver .samples = .next (aborted s e) := by
  rw [samplesResult, raise_bind, deliver_raise h]

theorem exec_sweepBlock {s : State} (he : s.err = .none) (blk : Blk) (bitNumber pos n : Nat) :
    exec (.sweepBlock blk bitNumber pos n) s
      = (samplesResult s.sink.length (sweepBlock blk bitNumber pos n s)).deliver .samples := by
  change (samplesResult s.sink.length (accept s.latched _)).deliver _ = _
  rw [latched_of_none he, accept_none]

/-! ### Replies too short -/

section
variable {blk : Blk} {v : Int} {b pos n : Nat} {s : State} (hs : Ready s)
  (ht : namesOnly (fieldKeys charLayout) s.params.diagTemplate = true) (hv : validPosition pos n = true)
include hs ht hv

/-- A pair goes on from its select and its priming read, whose reply is dropped, to its phases (R308 to R310). -/
theorem readPair_eq_forEach {x y : Exchange}
    (hx : x.isIr s.params (irFrameWire s.params (opcode s.params blk .readback) pos n))
    (hy : y.isDr s.params (drFrameWire (diagImage s.params v b 0) blk pos n)) (ha : Answers s [x, y]) :
    readPair blk v pos n b s = forEach (readPhase blk v b pos n) phases { afterAll s [x, y] with
      curSel := some (blk, .readback), lines := idleLines s } := by
  obtain ⟨hax, hay, -⟩ := ha
  obtain ⟨t, hsel⟩ : ∃ t : State, t = { x.after s with
    lines := idleLines s, curSel := some (blk, .readback) } := ⟨_, rfl⟩
  have hfollows : Follows s [x] t := hsel ▸ rfl
  have hparams := hfollows.params
  have hready : Ready t := hfollows.ready hs (by rw [hsel]; exact (after_tap x s).trans hs.idle)
  have hcur : t.curSel = some (blk, .readback) := by rw [hsel]
  have hlines : idleLines t = idleLines s := idleLines_of hparams (by rw [hsel])
  have hay' : y.answered t := (answered_congr hfollows.talk y).mpr hay
  rw [readPair, select_eq .select hs.live hs.wf hs.idle hv hx hax, bind_ok, ← hsel,
    shiftDiag_eq hready (hparams ▸ ht) hv hcur (hparams ▸ hy) hay', bind_ok, hlines, hsel]
  congr 1
  cases x <;> cases y <;> rfl

/-- A read whose reply is too short for `PARSE_REPLY` aborts after its exchange (R284, R333). -/
theorem readPhase_of_short {ph : Int} {z : Exchange} (hc : s.curSel = some (blk, .readback))
    (hf : ¬ repliesFit s.params blk pos n)
    (hz : z.isDr s.params (drFrameWire (diagImage s.params v b ph) blk pos n)) (ha : z.answered s) :
    readPhase blk v b pos n ph s
      = raise (.protocolViolation (n - 1 + selLength .readback - trim blk) (replyLead s.params blk pos n + windowsEnd))
          { z.after s with lines := idleLines s } := by
  have himage : (diagImage s.params v b ph).length = selLength .readback :=
    encodeChar_length (encodeChar_diag ht v b ph)
  have hlength : (z.reply s.params (drFrameWire (diagImage s.params v b ph) blk pos n).length).length
      = n - 1 + selLength .readback - trim blk := by
    rw [isDr_reply_length hz, length_drFrameWire hv (himage ▸ trim_lt_selLength blk .readback), himage]
  obtain ⟨t, hshift⟩ : ∃ t : State, t = { z.after s with lines := idleLines s } := ⟨_, rfl⟩
  have herr : t.err = .none := by rw [hshift]; exact (after_err z s).trans hs.live.1
  have hparams : t.params = s.params := by rw [hshift]; exact after_params z s
  have hshort := hlength.trans_lt (Nat.lt_of_not_le hf)
  rw [readPhase, shiftDiag_eq hs ht hv hc hz ha, bind_ok, ← hshift, parseReply_of_short herr hv (hparams ▸ hshort),
    raise_bind, hlength, hparams]

end

/-- Where replies are too short, the first read after the priming one ends a block's sweep (R308, R333). -/
theorem sweepBlock_of_short {blk : Blk} {bitNumber pos n : Nat} {x y z : Exchange} {s : State} (hs : Ready s)
    (ht : namesOnly (fieldKeys charLayout) s.params.diagTemplate = true) (hv : validPosition pos n = true)
    (hf : ¬ repliesFit s.params blk pos n) (hb : 1 ≤ bitNumber)
    (hx : x.isIr s.params (irFrameWire s.params (opcode s.params blk .readback) pos n))
    (hy : y.isDr s.params (drFrameWire (diagImage s.params 31 0 0) blk pos n))
    (hz : z.isDr s.params (drFrameWire (diagImage s.params 31 0 15) blk pos n)) (ha : Answers s [x, y, z]) :
    sweepBlock blk bitNumber pos n s
      = raise (.protocolViolation (n - 1 + selLength .readback - trim blk) (replyLead s.params blk pos n + windowsEnd))
          { afterAll s [x, y, z] with curSel := some (blk, .readback), lines := idleLines s } := by
  obtain ⟨more, rfl⟩ := Nat.exists_eq_add_of_le' hb
  obtain ⟨hxy, hz', -⟩ := (answers_append s [x, y] [z]).mp ha
  obtain ⟨t, hprimed⟩ : ∃ t : State, t = { afterAll s [x, y] with
    curSel := some (blk, .readback), lines := idleLines s } := ⟨_, rfl⟩
  have hfollows : Follows s [x, y] t := hprimed ▸ rfl
  have hparams := hfollows.params
  have hready : Ready t := hfollows.ready hs (by rw [hprimed]; exact (afterAll_tap s [x, y]).trans hs.idle)
  have hlines : idleLines t = idleLines s := idleLines_of hparams (by rw [hprimed])
  have hread := readPhase_of_short hready (hparams ▸ ht) hv (by rw [hprimed]) (hparams ▸ hf) (hparams ▸ hz)
    ((answered_congr hfollows.talk z).mpr hz')
  have hvoltages : voltages = 31 :: voltages.tail := rfl
  have hphases : phases = 15 :: phases.tail := rfl
  rw [sweepBlock, hvoltages, forEach_cons, List.range_succ_eq_map, forEach_cons, readPair_eq_forEach hs ht hv hx hy hxy,
    ← hprimed, hphases, forEach_cons, hread, raise_bind, raise_bind, raise_bind, hlines, hparams, hprimed]
  congr 1
  cases x <;> cases y <;> cases z <;> rfl

/-- Settles O51: the loops answered in full are `sweepBlock_eq`, and where replies are too short `sweepBlock_of_short`. -/
theorem sweepBlockCompletes : Obligations.SweepBlockCompletes := by
  intro blk bitNumber pos n s hlive hp htap h1 hn ht
  have hs : Ready s := ⟨hlive, hp, htap⟩
  have hv := validPosition_of_le h1 hn
  refine ⟨fun hf xs ss hx ha => ?_, ?_⟩
  · have hplaces := map_place_of_areSweepBlock hx
    refine ⟨hplaces, ?_, ?_⟩
    · rw [← length_blockPlaces blk, ← hplaces, List.length_map]
    · rw [exec_sweepBlock hlive.1, sweepBlock_eq hv hs ht hf hx ha, deliver_samplesResult_ok rfl]
      rfl
  · intro hf hb x y z hx hy hz ha t hclose
    rw [exec_sweepBlock hlive.1, sweepBlock_of_short hs ht hv hf hb hx hy hz ha, deliver_samplesResult_raise hclose]
    rfl

/-! ### A sweep that fails its validation -/

theorem exec_sweep (q : SweepParams) (s : State) :
    exec (.sweep q) s = (samplesResult s.sink.length (sweep q s)).deliver .samples := rfl

theorem sweep_of_invalid {q : SweepParams} {s : State} (he : s.err = .none) (hv : validPosition q.pos q.n = false) :
    sweep q s = raise (.configurationError (.position q.pos q.n)) s := by
  rw [sweep, latched_of_none he, accept_none, if_neg (Bool.eq_false_iff.mp hv)]

theorem sweep_of_unknown_pattern {q : SweepParams} {s : State} (he : s.err = .none)
    (hv : validPosition q.pos q.n = true) (hm : q.testPattern ∉ s.params.testPatterns.numbers) :
    sweep q s = raise (.configurationError (.pattern q.testPattern)) s := by
  rw [sweep, latched_of_none he, accept_none, if_pos hv, coreParamsFor_eq_none hm]

/-- What an abort leaves, by channel and backend (R340, R341; on an open channel log entry 35). -/
theorem aborted_cases (s : State) (e : Err) :
    (s.chan = .closed → aborted s e = { s with err := e, result := .none })
    ∧ (s.chan = .opened → s.params.backend = .raw → aborted s e = { s with
        chan := .closed, tap := .unknown, curSel := none, err := e, result := .none })
    ∧ (s.chan = .opened → s.params.backend = .engine → aborted s e = { s with
        chan := .closed, tap := .unknown, curSel := none, tx := s.tx ++ [.call .close], env := s.env.afterEngine
        err := e, result := .none }) := by
  refine ⟨fun hc => ?_, fun hc hb => ?_, fun hc hb => ?_⟩
  · rw [aborted, released_of_closed hc]
  · simp only [aborted, released, hc, hb]
  · simp only [aborted, released, hc, hb]

/-- Settles O53: either check that fails raises in the state given, before any operation on it. -/
theorem sweepValidatesFirst : Obligations.SweepValidatesFirst := by
  intro q s he fails
  have hfails {e : Err} (h : sweep q s = raise e s) : fails e := by
    have hexec (hclose : closeHeard s) : exec (.sweep q) s = .next (aborted s e) := by
      rw [exec_sweep, h, deliver_samplesResult_raise hclose]
    obtain ⟨hclosed, hraw, hengine⟩ := aborted_cases s e
    refine ⟨fun hc => ?_, fun hc hb => ?_, fun hc hb hanswer => ?_⟩
    · have hclose : closeHeard s := fun ho => by simp [hc] at ho
      rw [hexec hclose, hclosed hc]
    · rw [hexec (closeHeard_of_raw hb), hraw hc hb]
    · rw [hexec fun _ _ => hanswer, hengine hc hb]
  refine ⟨fun hposition => ?_, fun ⟨_, h1, hn⟩ hm => ?_⟩
  · exact hfails (sweep_of_invalid he (validPosition_eq_false_iff.mpr (by omega)))
  · exact hfails (sweep_of_unknown_pattern he (validPosition_of_le h1 hn) hm)

/-! ### A whole sweep -/

/-- Further exchanges after those that lead from `s` to `t`: `t`'s own fields stay. -/
theorem Follows.afterAll_eq {s t : State} {xs : List Exchange} (h : Follows s xs t) (ys : List Exchange) :
    afterAll t ys = { afterAll s (xs ++ ys) with
      tap := t.tap, phase := t.phase, lines := t.lines, curSel := t.curSel, sink := t.sink } := by
  have hfollows : Follows s (xs ++ ys) (afterAll t ys) := h.trans rfl
  rw [hfollows.eq, afterAll_tap t ys, afterAll_phase t ys, afterAll_lines t ys, afterAll_curSel t ys, afterAll_sink t ys]

/-- What `OPEN` sets besides its exchange with the engine (R188). -/
def opened (s : State) : State :=
  { s with chan := .opened, tap := .unknown, curSel := none, phase := .idle }

theorem afterAll_opened (s : State) (xs : List Exchange) : afterAll (opened s) xs = opened (afterAll s xs) := by
  induction xs generalizing s with
  | nil => rfl
  | cons x xs ih =>
    have hfirst : x.after (opened s) = opened (x.after s) := by cases x <;> rfl
    rw [afterAll_cons, hfirst, ih, afterAll_cons]

/-- Opening leaves what decides the transport's answers. -/
theorem answers_opened (s : State) (xs : List Exchange) : Answers (opened s) xs ↔ Answers s xs :=
  answers_congr (s := s) (t := opened s) ⟨rfl, rfl⟩ xs

/-- `OPEN` of a closed channel answered in full (R188). -/
theorem openTransport_eq (cmd : Command) {connection : List Byte} {xs : List Exchange} {s : State} (he : s.err = .none)
    (hc : s.chan = .closed) (hx : areEngineOnly s.params (.configure connection) xs) (ha : Answers s xs) :
    openTransport cmd connection s = .ok () (afterAll (opened s) xs) := by
  rw [openTransport, latched_of_none he, accept_none, hc]
  cases hb : s.params.backend with
  | raw =>
    simp only [areEngineOnly, hb] at hx
    subst hx
    rfl
  | engine =>
    simp only [areEngineOnly, hb] at hx
    obtain ⟨bits, rfl⟩ := hx
    dsimp only
    rw [engineDo_eq cmd ha.1]
    rfl

/-- Where the bring-up of a sweep ends, its exchanges answered: opened, in Run-Test/Idle, the lines at rest (R302). -/
def broughtUp (s : State) (xs : List Exchange) : State :=
  { afterAll (opened s) xs with tap := .runTestIdle, lines := idleLines s }

theorem follows_broughtUp (s : State) (xs : List Exchange) : Follows (opened s) xs (broughtUp s xs) := rfl

theorem broughtUp_params (s : State) (xs : List Exchange) : (broughtUp s xs).params = s.params :=
  afterAll_params (opened s) xs

theorem broughtUp_phase (s : State) (xs : List Exchange) : (broughtUp s xs).phase = .idle := afterAll_phase (opened s) xs

theorem broughtUp_curSel (s : State) (xs : List Exchange) : (broughtUp s xs).curSel = none :=
  afterAll_curSel (opened s) xs

theorem broughtUp_sink (s : State) (xs : List Exchange) : (broughtUp s xs).sink = s.sink := afterAll_sink (opened s) xs

theorem broughtUp_ready {s : State} (he : s.err = .none) (hp : s.params.wf = true) (xs : List Exchange) :
    Ready (broughtUp s xs) :=
  ⟨(follows_broughtUp s xs).live ⟨he, rfl⟩, (broughtUp_params s xs).symm ▸ hp, rfl⟩

/-- The bring-up of a sweep answered in full: `OPEN`, then `TAP_RESET` (R302). -/
theorem bringUp_eq {connection : List Byte} {xs1 xs2 : List Exchange} {s : State} (he : s.err = .none)
    (hc : s.chan = .closed) (hp : s.params.wf = true) (hx1 : areEngineOnly s.params (.configure connection) xs1)
    (hx2 : areTapReset s.params xs2) (ha : Answers s (xs1 ++ xs2)) :
    ((openTransport .openChannel connection s).bind fun _ t => tapReset .tapReset t)
      = .ok () (broughtUp s (xs1 ++ xs2)) := by
  have hparams : (afterAll (opened s) xs1).params = s.params := afterAll_params (opened s) xs1
  have hfollows : Follows (opened s) xs1 (afterAll (opened s) xs1) := rfl
  have hanswers := (answers_opened s (xs1 ++ xs2)).mpr ha
  have hlines : idleLines (afterAll (opened s) xs1) = idleLines s :=
    idleLines_congr hparams (afterAll_lines (opened s) xs1)
  rw [openTransport_eq _ he hc hx1 ((answers_append s xs1 xs2).mp ha).1, bind_ok,
    tapReset_eq _ (hfollows.live ⟨he, rfl⟩) (hparams ▸ hp) (hparams ▸ hx2) (hfollows.answers hanswers), hlines,
    ← broughtUp_curSel s (xs1 ++ xs2), broughtUp, afterAll_append]

/-- One block of a sweep answered in full: configured, then swept (R316). -/
theorem runBlock_eq {blk : Blk} {coreParams : Fields} {bitNumber pos n : Nat} (hv : validPosition pos n = true)
    {xs : List Exchange} {ss : List SweepSample} {s : State} (hs : Ready s) (hph : s.phase = .idle)
    (ht : namesOnly (fieldKeys charLayout) s.params.diagTemplate = true) (hf : repliesFit s.params blk pos n)
    (hx : areBlock s.params coreParams bitNumber pos n blk xs ss) (ha : Answers s xs) :
    runBlock coreParams bitNumber pos n blk s = .ok () { afterAll s xs with
      lines := idleLines s
      curSel := some (blk, if bitNumber = 0 then .coreInputs else .readback)
      sink := s.sink ++ ss } := by
  obtain ⟨v3, xs1, xs2, h3, rfl, hconf, hsweep⟩ := hx
  obtain ⟨t, hconfigured⟩ : ∃ t : State, t = { afterAll s xs1 with
    curSel := some (blk, .coreInputs), lines := idleLines s } := ⟨_, rfl⟩
  have hfollows : Follows s xs1 t := hconfigured ▸ rfl
  have hparams := hfollows.params
  have htap : t.tap = (afterAll s (xs1 ++ xs2)).tap := by simp [hconfigured]
  have hphase : t.phase = (afterAll s (xs1 ++ xs2)).phase := by simp [hconfigured]
  have hsink : t.sink = s.sink := by simp [hconfigured]
  have hrest : t.lines = idleLines s := by rw [hconfigured]
  have hcur : t.curSel = some (blk, .coreInputs) := by rw [hconfigured]
  have hready : Ready t := hfollows.ready hs (by simpa [htap] using hs.idle)
  rw [runBlock, configureBlock_eq hs hph hv encodeCfg_nil_eq_zeros encodeCfg_weSet h3 hconf
      ((answers_append s xs1 xs2).mp ha).1, bind_ok, ← hconfigured,
    sweepBlock_eq hv hready (hparams ▸ ht) (hparams ▸ hf) (hparams ▸ hsweep) (hfollows.answers ha),
    hfollows.afterAll_eq, htap, hphase, hsink, hrest, hcur, idleLines_of hparams hrest]
  by_cases hb : bitNumber = 0 <;> simp only [hb, if_true, if_false]

/-- Both blocks of a sweep answered in full (R302, R316). -/
theorem runBlocks_eq {coreParams : Fields} {bitNumber pos n : Nat} (hv : validPosition pos n = true)
    {xs : List Exchange} {ss : List SweepSample} {s : State} (hs : Ready s) (hph : s.phase = .idle)
    (ht : namesOnly (fieldKeys charLayout) s.params.diagTemplate = true) (hf : ∀ blk, repliesFit s.params blk pos n)
    (hx : areEach (areBlock s.params coreParams bitNumber pos n) [.r0, .r1] xs ss) (ha : Answers s xs) :
    forEach (runBlock coreParams bitNumber pos n) [.r0, .r1] s = .ok () { afterAll s xs with
      lines := idleLines s
      curSel := some (.r1, if bitNumber = 0 then .coreInputs else .readback)
      sink := s.sink ++ ss } := by
  obtain ⟨xs0, _, ss0, _, rfl, rfl, hblock0, xs1, _, ss1, _, rfl, rfl, hblock1, rfl, rfl⟩ := hx
  rw [List.append_nil] at ha ⊢
  rw [List.append_nil]
  obtain ⟨t, hswept⟩ : ∃ t : State, t = { afterAll s xs0 with
    lines := idleLines s
    curSel := some (.r0, if bitNumber = 0 then .coreInputs else .readback)
    sink := s.sink ++ ss0 } := ⟨_, rfl⟩
  have hfollows : Follows s xs0 t := hswept ▸ rfl
  have hparams := hfollows.params
  have htap : t.tap = (afterAll s (xs0 ++ xs1)).tap := by simp [hswept]
  have hphase : t.phase = (afterAll s (xs0 ++ xs1)).phase := by simp [hswept]
  have hsink : t.sink = s.sink ++ ss0 := by rw [hswept]
  have hrest : t.lines = idleLines s := by rw [hswept]
  have hready : Ready t := hfollows.ready hs (by simpa [htap] using hs.idle)
  have hidle : t.phase = .idle := by simpa [hphase] using hph
  rw [forEach_cons, runBlock_eq hv hs hph ht (hf _) hblock0 ((answers_append s xs0 xs1).mp ha).1, bind_ok, ← hswept,
    forEach_cons, runBlock_eq hv hready hidle (hparams ▸ ht) (hparams ▸ hf _) (hparams ▸ hblock1)
      (hfollows.answers ha), bind_ok, forEach_nil, hfollows.afterAll_eq, htap, hphase, hsink,
    idleLines_of hparams hrest, List.append_assoc]

/-- The state in which a sweep reaches its `CLOSE`, its exchanges answered (R316). -/
def sweptBoth (s : State) (bitNumber : Nat) (xs : List Exchange) (ss : List SweepSample) : State :=
  { afterAll s xs with
    tap := .runTestIdle, phase := .idle, chan := .opened, lines := idleLines s, sink := s.sink ++ ss,
    curSel := some (.r1, if bitNumber = 0 then .coreInputs else .readback) }

/-- `SWEEP` answered in full: validated, brought up, both blocks, closed (R316). -/
theorem sweep_eq {q : SweepParams} {coreParams : Fields} {xs : List Exchange} {ss : List SweepSample} {s : State}
    (he : s.err = .none) (hc : s.chan = .closed) (hp : s.params.wf = true) (hv : validPosition q.pos q.n = true)
    (hcore : coreParamsFor s.params q.testPattern = some coreParams)
    (ht : namesOnly (fieldKeys charLayout) s.params.diagTemplate = true)
    (hf : ∀ blk, repliesFit s.params blk q.pos q.n) (hx : areSweep s.params coreParams q xs ss) (ha : Answers s xs)
    (hclose : closeHeard (sweptBoth s q.bitNumber xs ss)) :
    sweep q s = .ok () (released (sweptBoth s q.bitNumber xs ss)) := by
  obtain ⟨xs1, xs2, xs3, rfl, hopen, hreset, hblocks⟩ := hx
  have hparams := broughtUp_params s (xs1 ++ xs2)
  have hfollows := follows_broughtUp s (xs1 ++ xs2)
  have hanswers := (answers_opened s (xs1 ++ xs2 ++ xs3)).mpr ha
  have hup := bringUp_eq he hc hp hopen hreset ((answers_append s (xs1 ++ xs2) xs3).mp ha).1
  have hboth := runBlocks_eq hv (broughtUp_ready he hp _) (broughtUp_phase s _) (hparams ▸ ht) (hparams ▸ hf)
    (hparams ▸ hblocks) (hfollows.answers hanswers)
  have hstate : ({ afterAll (broughtUp s (xs1 ++ xs2)) xs3 with
      lines := idleLines (broughtUp s (xs1 ++ xs2))
      curSel := some (.r1, if q.bitNumber = 0 then .coreInputs else .readback)
      sink := (broughtUp s (xs1 ++ xs2)).sink ++ ss } : State) = sweptBoth s q.bitNumber (xs1 ++ xs2 ++ xs3) ss := by
    rw [hfollows.afterAll_eq, broughtUp_phase, broughtUp_sink, idleLines_of hparams rfl, afterAll_opened]
    rfl
  rw [sweep, latched_of_none he, accept_none, if_pos hv, hcore]
  dsimp only
  rw [← bind_assoc, hup, bind_ok, hboth, bind_ok, hstate, closeTransport_eq hclose]

theorem released_sink (s : State) : (released s).sink = s.sink := by
  cases hc : s.chan <;> cases hb : s.params.backend <;> simp only [released, hc, hb]

/-- Settles O52: the exchanges answered lead to `sweep_eq`'s state, and each block's samples are in their places. -/
theorem sweepCompletes : Obligations.SweepCompletes := by
  intro q coreParams xs ss s he hc hp h1 hn hcore ht hf hx ha t hclose
  have hplaces : ss.map SweepSample.place = blockPlaces .r0 q.bitNumber ++ blockPlaces .r1 q.bitNumber := by
    obtain ⟨_, _, xs3, -, -, -, hblocks⟩ := hx
    have hboth := map_place_of_areEach (places := fun blk => blockPlaces blk q.bitNumber) (fun _ _ _ hblock => by
      obtain ⟨_, _, _, -, -, -, hsweep⟩ := hblock
      exact map_place_of_areSweepBlock hsweep) hblocks
    rw [hboth, List.flatMap_cons, List.flatMap_singleton]
  refine ⟨hplaces, ?_, ?_⟩
  · rw [← List.length_map SweepSample.place, hplaces, List.length_append, length_blockPlaces, length_blockPlaces]
    ring
  · have hsink : (released (sweptBoth s q.bitNumber xs ss)).sink = s.sink ++ ss := released_sink _
    rw [exec_sweep, sweep_eq he hc hp (validPosition_of_le h1 hn) (coreParamsFor_of_is hp hcore) ht hf hx ha hclose,
      deliver_samplesResult_ok hsink]
    rfl

end Sys2Proof.Machine

/-! PROOFS. Exceptions, reset and hazards (60_exceptions, 70_reset_and_hazards): what an invalid position leaves (R331),
what a latched error refuses (R342), what every abort leaves (R340, R341), and a transport that never answers (R385). -/

namespace Sys2Proof.Machine

/-! ### Invalid positions -/

theorem validPosition_of_not_le {pos n : Nat} (h : ¬ (1 ≤ n ∧ 1 ≤ pos ∧ pos ≤ n)) : validPosition pos n = false :=
  validPosition_eq_false_iff.mpr (by omega)

/-- An abort keeps the phase it meets (R341). -/
theorem aborted_setPhase (s : State) (p : Phase) (e : Err) :
    aborted (s.setPhase p) e = { aborted s e with phase := p } := by
  cases hc : s.chan <;> cases hb : s.params.backend <;> simp [aborted, released, hc, hb, State.setPhase]

section
variable {pos n : Nat} {s : State} (hs : s.Live) (ht : s.tap = .runTestIdle) (hv : validPosition pos n = false)
include hs ht hv

theorem writeOpcode_of_invalid (cmd : Command) {op : Bits} (selects : Option (Blk × Sel))
    (hop : op.length = s.params.irLen) :
    writeOpcode cmd op selects pos n s = raise (.configurationError (.position pos n)) s := by
  rw [writeOpcode, notLive_of_live hs, accept_none, offIdle_of_idle ht, accept_none, padIr_of_invalid hop hv,
    raise_bind]

theorem select_of_invalid (cmd : Command) (blk : Blk) (sel : Sel) :
    select cmd blk sel pos n s = raise (.configurationError (.position pos n)) s :=
  writeOpcode_of_invalid hs ht hv cmd _ (length_opcode ..)

theorem shift_of_invalid (cmd : Command) {blk : Blk} {sel : Sel} {v : Bits} (hc : s.curSel = some (blk, sel))
    (hl : v.length = selLength sel) :
    shift cmd blk v pos n s = raise (.configurationError (.position pos n)) s := by
  rw [shift, notLive_of_live hs, accept_none, noShift_of_accepted hc hl, accept_none, offIdle_of_idle ht, accept_none,
    padDr_of_invalid (hl ▸ trim_lt_selLength blk sel) hv, raise_bind]

/-- A transaction ends in its first `SELECT`, whose phase it has entered (R256, R258). -/
theorem transact_of_invalid (cmd : Command) (blk : Blk) {sel : Sel} {v : Bits} (hph : s.phase = .idle)
    (hl : v.length = selLength sel) :
    transact cmd blk sel v pos n s
      = raise (.configurationError (.position pos n)) (s.setPhase .selectInstruction) := by
  have hselect := select_of_invalid (s := s.setPhase .selectInstruction) hs ht hv cmd blk sel
  rw [transact, notLive_of_live hs, accept_none, noTransact_of_idle hph ht hl, accept_none, hselect, raise_bind]

end

/-- Settles O20: each command raises where it builds its first frame, after every check that refuses. -/
theorem invalidPositionAborts : Obligations.InvalidPositionAborts := by
  intro blk sel v pos n s hs hclose ht hpos e
  have hv := validPosition_of_not_le hpos
  have hselect : exec (.select blk sel pos n) s = .next (aborted s e) := by
    change (select .select blk sel pos n s).deliver _ = _
    rw [select_of_invalid hs ht hv, deliver_raise hclose]
  refine ⟨hselect, (exec_opcRow ..).trans hselect, ?_, fun hc hl => ?_, fun hph hl => ?_⟩
  · change (writeOpcode .writeIr _ none pos n s).deliver _ = _
    rw [writeOpcode_of_invalid hs ht hv _ _ (length_bypassBits _), deliver_raise hclose]
  · change (shift .shift blk v pos n s).deliver _ = _
    rw [shift_of_invalid hs ht hv _ hc hl, deliver_raise hclose]
  · have hclose' : closeHeard (s.setPhase .selectInstruction) := hclose
    change (transact .transact blk sel v pos n s).deliver _ = _
    rw [transact_of_invalid hs ht hv _ _ hph hl, deliver_raise hclose', aborted_setPhase]

/-! ### Refusals with an error latched -/

/-- `CONFIGURE_BLOCK` is refused as its first transaction is, whose image the host encodes before (R303). -/
theorem configureBlock_of_notLive {s : State} {r : Refusal} (h : s.notLive = some r) (blk : Blk) (coreParams : Fields)
    (pos n : Nat) : configureBlock blk coreParams pos n s = .refused r := by
  rw [configureBlock, transactImage, encodeCfg_nil, ofExcept_ok, bind_ok, transact, h, accept_some, bind_refused,
    bind_refused]

section
variable {s : State} (he : s.err ≠ .none)
include he

theorem latched_of_err : s.latched = some .errorLatched := if_neg he

theorem notLive_of_err : s.notLive = some .errorLatched := if_neg he

theorem noCycles_of_err : s.noCycles = some .errorLatched := by
  rw [State.noCycles, notLive_of_err he]

end

/-- Settles O34: a command that can change state or raise looks at the latch first, in one of three checks. -/
theorem latchedRefuses : Obligations.LatchedRefuses := by
  intro i s he haccepted
  have hlatched := latched_of_err he
  have hlive := notLive_of_err he
  cases i
  case padIr | padDr | openChannel | parseReply | irFrame | drFrame | replyFormat =>
    exact deliver_accept_some hlatched _ _
  case tckCycle | tmsWalk | bbXfer => exact deliver_accept_some (noCycles_of_err he) _ _
  case configureBlock blk coreParams pos n =>
    change (configureBlock blk coreParams pos n s).deliver _ = _
    rw [configureBlock_of_notLive hlive, deliver_refused]
  case sweepBlock | sweep =>
    change (samplesResult _ (accept s.latched _)).deliver _ = _
    rw [hlatched]
    rfl
  case tapReset | goIdle | changeState | writeIr | writeDr | hwReset | select | shift | transact | bypassOpcode
      | opcR0Configuration | opcR0CoreInputs | opcR0Readback | opcR1Configuration | opcR1CoreInputs | opcR1Readback =>
    exact deliver_accept_some hlive _ _
  all_goals cases haccepted

/-! ### What every abort leaves -/

theorem trackTo_err (name : TapState) (s : State) : (trackTo name s).err = s.err := by
  rw [trackTo_eq]

theorem DeliversSettled.err_none_or_aborted {s : State} {o : Host.Outcome State Fault Refusal}
    (h : DeliversSettled s o) (he : s.err = .none) : Delivers (fun u => u.err = .none) Aborted o :=
  h.mono (fun _ hu => hu.err.trans he) (fun _ ⟨hu, _⟩ => hu)

section
variable {s : State} (hc : s.Consistent)
include hc

/-- `CHANGE_STATE` of any name, `Unknown` too, which is not well formed, latches an error only by an abort. -/
theorem changeState_err_none_or_aborted (cmd : Command) (name : TapState) :
    (changeState cmd name s).sat (fun _ u => u.err = .none) Aborted := by
  refine sat_accept_live fun hl => ?_
  have hr := running_of_live hc hl
  split
  · trivial
  · split
    · exact sat_mono (walk_runsOn cmd _ hr) (fun _ _ ⟨hu, _⟩ => hu.1.1) (fun _ ⟨hu, _⟩ => hu)
    · exact sat_bind (engineDo_runsOn cmd _ hr) (fun _ ⟨hu, _⟩ => hu)
        fun _ u ⟨hu, _⟩ => (trackTo_err name u).trans hu.1.1

/-- From a consistent state without an error a command ends without one, or in an abort. A command that is not well
formed is one of five, and four of them are settled all the same: their field maps may name a key twice. -/
theorem exec_err_none_or_aborted (he : s.err = .none) (i : Instr) :
    Delivers (fun u => u.err = .none) Aborted (exec i s) := by
  by_cases hwf : i.wellFormed = true
  · exact (exec_settled hc i hwf).err_none_or_aborted he
  cases i
  case encCfg | encCore | encChar => exact ((ofExcept_unmoved _ s).stays.settled hc).err_none_or_aborted he
  case configureBlock blk coreParams pos n =>
    exact (configureBlock_settles hc blk coreParams pos n).delivers.err_none_or_aborted he
  case changeState name => exact delivers_deliver (changeState_err_none_or_aborted hc _ name)
  all_goals exact absurd rfl hwf

end

/-- Settles O59: an error in the next state is an abort's, and an abort has no result. -/
theorem abortReleases : Obligations.AbortReleases := by
  intro i s t hc he ht herr
  obtain ⟨u, x, rfl, hu⟩ | ⟨u, rfl, -, hchan, htap, hsel⟩ := exec_err_none_or_aborted hc he i t ht
  · exact absurd hu herr
  · exact ⟨hchan, htap, hsel, rfl⟩

/-! ### A transport that never answers -/

theorem txWrite_silent {bytes : List Byte} {s : State} (h : s.writeAnswer bytes = .silent) :
    txWrite bytes s = .stuck .transportSilent := by
  simp only [txWrite, h]

theorem rxRead_silent {count : Nat} {s : State} (h : s.readAnswer count = .silent) :
    rxRead count s = .stuck .transportSilent := by
  simp only [rxRead, h]

theorem bbXfer_of_write_silent (cmd : Command) {bytes : List Byte} {s : State} (h : s.writeAnswer bytes = .silent) :
    bbXfer cmd bytes s = .stuck .transportSilent := by
  rw [bbXfer, txWrite_silent h, bind_stuck]

theorem bbXfer_of_read_silent (cmd : Command) {bytes : List Byte} {s : State}
    (hw : s.writeAnswer bytes = .accepted bytes.length)
    (hr : (handedOver s bytes).readAnswer bytes.length = .silent) :
    bbXfer cmd bytes s = .stuck .transportSilent := by
  rw [bbXfer, txWrite_accepted hw, bind_ok, if_pos rfl, rxRead_silent hr, bind_stuck]

/-- What the host sees of a transfer that waits (R230, R385). -/
theorem exec_bbXfer_of_stuck {bytes : List Byte} {s : State} {f : Fault} (hs : s.RawLive) (hne : bytes ≠ [])
    (h : bbXfer .bbXfer bytes s = .stuck f) : exec (.bbXfer bytes) s = .fault f := by
  rw [exec_bbXfer hs, if_neg hne, h, deliver_stuck]

/-- The next thing an operation does is the engine call `c` in state `u`; all else depends on its answer (R64). -/
def Asks {α : Type} (r : Res α) (u : State) (c : EngineCall) : Prop :=
  ∃ k : Option Bits → State → Res α, r = (engineCall c u).bind k

theorem Asks.bind {α β : Type} {r : Res α} {u : State} {c : EngineCall} (h : Asks r u c) (f : α → State → Res β) :
    Asks (r.bind f) u c := by
  obtain ⟨k, rfl⟩ := h
  exact ⟨_, bind_assoc ..⟩

theorem engineCall_silent {c : EngineCall} {s : State} (h : s.engineAnswer c = .silent) :
    engineCall c s = .stuck .transportSilent := by
  simp only [engineCall, h]

/-- A command whose call is not answered waits (R385). -/
theorem Asks.deliver {α : Type} {r : Res α} {u : State} {c : EngineCall} (h : Asks r u c) (f : α → Result)
    (hu : u.engineAnswer c = .silent) : r.deliver f = .fault .transportSilent := by
  obtain ⟨k, rfl⟩ := h
  rw [engineCall_silent hu, bind_stuck, deliver_stuck]

theorem engineDo_asks (cmd : Command) (c : EngineCall) (s : State) : Asks (engineDo cmd c s) s c := ⟨_, rfl⟩

theorem openTransport_asks (cmd : Command) (connection : List Byte) {s : State} (he : s.err = .none)
    (hc : s.chan = .closed) (hb : s.params.backend = .engine) :
    Asks (openTransport cmd connection s) s (.configure connection) := by
  rw [openTransport, latched_of_none he, accept_none, hc, hb]
  exact (engineDo_asks ..).bind _

theorem closeTransport_asks {s : State} (hc : s.chan = .opened) (hb : s.params.backend = .engine) :
    Asks (closeTransport s) s .close := by
  rw [closeTransport, hc, hb]
  exact ⟨_, rfl⟩

/-- The release of an abort is asked with the error latched already (R340). -/
theorem raise_asks {α : Type} (e : Err) {s : State} (hc : s.chan = .opened) (hb : s.params.backend = .engine) :
    Asks (raise e s : Res α) (s.setErr e) .close :=
  (closeTransport_asks (s := s.setErr e) hc hb).bind _

section
variable {s : State} (hs : s.EngineLive)
include hs

theorem tapReset_asks_first (cmd : Command) : Asks (tapReset cmd s) s .resetTAP := by
  rw [tapReset_engine hs]
  exact (engineDo_asks ..).bind _

theorem tapReset_asks_second (cmd : Command) {b : Bits} (hx : (Exchange.call .resetTAP b).answered s) :
    Asks (tapReset cmd s) ((Exchange.call .resetTAP b).after s) .goIdle := by
  rw [tapReset_engine hs, engineDo_eq cmd hx, bind_ok]
  exact (engineDo_asks ..).bind _

theorem goIdle_asks (cmd : Command) (ht : s.tap ≠ .unknown) : Asks (goIdle cmd s) s .goIdle := by
  rw [goIdle, notLive_of_live hs.1, accept_none, if_neg ht, hs.2]
  exact (engineDo_asks ..).bind _

theorem changeState_asks (cmd : Command) (name : TapState) (ht : s.tap ≠ .unknown) :
    Asks (changeState cmd name s) s (.changeState name) := by
  rw [changeState, notLive_of_live hs.1, accept_none, if_neg ht, hs.2]
  exact (engineDo_asks ..).bind _

theorem hwReset_asks (cmd : Command) {hw tapr : Bool} (hany : hw = true ∨ tapr = true)
    (hrst : hw = true → s.params.hasRst = true) : Asks (hwReset cmd hw tapr s) s (.reset hw tapr) := by
  have hline : ¬ (hw = true ∧ s.params.hasRst = false) := fun ⟨hhw, hno⟩ => by simp [hrst hhw] at hno
  rw [hwReset, notLive_of_live hs.1, accept_none, if_neg (hwReset_any.mpr hany), if_neg hline, hs.2]
  exact (engineDo_asks ..).bind _

theorem writeIr_asks (cmd : Command) {w : Bits} (ht : s.tap = .runTestIdle) (hw : w ≠ []) :
    Asks (writeIr cmd w s) s (.writeInstructionRegister w) := by
  rw [writeIr, notLive_of_live hs.1, accept_none, noWrite_of_idle ht hw, accept_none, hs.2]
  exact (engineDo_asks ..).bind _

theorem writeDr_asks (cmd : Command) {w : Bits} (ht : s.tap = .runTestIdle) (hw : w ≠ []) :
    Asks (writeDr cmd w s) s (.writeDataRegister w) := by
  rw [writeDr_engine hs cmd ht hw]
  exact (engineDo_asks ..).bind _

end

/-- Settles O39: a transfer waits at its write or its read, every other command at the engine call it asks next. -/
theorem silentTransportSticks : Obligations.SilentTransportSticks := by
  intro bytes w op b hw tapr name connection pos n s stuck
  refine ⟨fun hs hne => ⟨fun hwrite => ?_, fun hwrite hread => ?_⟩, fun hs => ?_,
    fun he hc hb => (openTransport_asks _ connection he hc hb).deliver _⟩
  · exact exec_bbXfer_of_stuck hs hne (bbXfer_of_write_silent _ hwrite)
  · exact exec_bbXfer_of_stuck hs hne (bbXfer_of_read_silent _ hwrite hread)
  · refine ⟨fun ht hne => (writeIr_asks hs _ ht hne).deliver _,
      fun ht hne => (writeDr_asks hs _ ht hne).deliver _,
      (tapReset_asks_first hs _).deliver _,
      fun hx => (tapReset_asks_second hs _ hx).deliver _,
      fun ht => (goIdle_asks hs _ ht).deliver _,
      fun ht => (changeState_asks hs _ name ht).deliver _,
      fun hany hrst => (hwReset_asks hs _ hany hrst).deliver _,
      (closeTransport_asks hs.1.2 hs.2).deliver _,
      fun hclose hop hpos => ?_⟩
    rw [exec_padIr hs.1.1, padIr_of_invalid hop (validPosition_of_not_le hpos)]
    exact (raise_asks _ hs.1.2 hs.2).deliver _ hclose

end Sys2Proof.Machine
